-- ==== Sys2Proof/Word.lean ====
section
/-! DEFINITION. The widths the spec computes with (spec/00_scope.md section 5): bytes, 16-bit operand
fields and `bits32` values. -/

namespace Sys2Proof

/-- A *byte*, an unsigned 8-bit value (spec/00_scope.md section 5). -/
abbrev Byte := BitVec 8

/-- A 16-bit operand field of the request bundle (spec/30_encoding.md R51). -/
abbrev Half := BitVec 16

/-- A `bits32` value: the CRC register, CRC results, the `sequence` operand. -/
abbrev Word := BitVec 32

end Sys2Proof
end

