-- ==== Sys2Proof/Config.lean ====
section
/-! DEFINITION. The configuration record of spec/00_scope.md section 3: the parameters a model takes as an
argument, with the constraints that make one legal (spec/70_reset_and_hazards.md R117). The type holds the
proofs of those constraints, so an illegal configuration (spec/93_implementation_defined.md U14) cannot be written. -/

namespace Sys2Proof

/-- `MSG_TYPES`, the nine named message-type bytes (spec/00_scope.md R7). -/
structure MsgTypes where
  handshake  : Byte
  heartbeat  : Byte
  command    : Byte
  ack        : Byte
  cmdAck     : Byte
  status     : Byte
  pushStatus : Byte
  event      : Byte
  error      : Byte
  deriving DecidableEq, Repr

/-- The nine values as a list, `MT_COMMAND` (the one value the spec gives) first. -/
def MsgTypes.toList (t : MsgTypes) : List Byte :=
  [t.command, t.handshake, t.heartbeat, t.ack, t.cmdAck, t.status, t.pushStatus, t.event, t.error]

/-- A legal configuration (spec/00_scope.md R6, R7, R8; spec/70_reset_and_hazards.md R117). -/
structure Config where
  /-- `MARKER0` (R6). -/
  marker0 : Byte
  /-- `MARKER1` (R6). -/
  marker1 : Byte
  /-- `MSG_TYPES` (R7). -/
  types : MsgTypes
  /-- `FLAG_BIT_ACK_REQ` (R8). -/
  flagAckReq : Fin 8
  /-- `FLAG_BIT_RESPONSE` (R8). -/
  flagResponse : Fin 8
  /-- `FLAG_BIT_ERROR` (R8). -/
  flagError : Fin 8
  /-- R117: `MARKER0 ≠ MARKER1`. -/
  markers_distinct : marker0 ≠ marker1
  /-- R117: `MSG_TYPES` has nine pairwise-distinct byte values. -/
  types_distinct : types.toList.Nodup
  /-- R117: `MT_COMMAND = 0x10`. -/
  command_code : types.command = 0x10#8
  /-- R117: the three flag-bit positions are distinct. -/
  flags_distinct : [flagAckReq, flagResponse, flagError].Nodup
  deriving DecidableEq, Repr

/-- The values spec/00_scope.md leaves OPEN (R7: eight message types; R8: three bit positions), with the
constraints it puts on them. The field defaults only show that such values exist. -/
structure OpenValues where
  handshake    : Byte := 0
  heartbeat    : Byte := 1
  ack          : Byte := 2
  cmdAck       : Byte := 3
  status       : Byte := 4
  pushStatus   : Byte := 5
  event        : Byte := 6
  error        : Byte := 7
  flagAckReq   : Fin 8 := 0
  flagResponse : Fin 8 := 1
  flagError    : Fin 8 := 2
  types_distinct :
    [0x10#8, handshake, heartbeat, ack, cmdAck, status, pushStatus, event, error].Nodup := by decide
  flags_distinct : [flagAckReq, flagResponse, flagError].Nodup := by decide
  deriving DecidableEq, Repr, Inhabited

/-- The OPEN values of the part at hand: a constant without a body, so no proof sees any of its values
(DESIGN CHOICE, notes/assumptions/2.md; spec/92_eei_decisions.md D3, D4). -/
opaque Config.openValues : OpenValues

/-- The configuration the reset state carries: the default markers of R6, `MT_COMMAND = 0x10` of R7, and the
OPEN values left open (notes/assumptions/2.md). -/
def Config.default : Config where
  marker0 := 0xA5#8
  marker1 := 0x5A#8
  types :=
    { handshake := Config.openValues.handshake, heartbeat := Config.openValues.heartbeat
      command := 0x10#8, ack := Config.openValues.ack, cmdAck := Config.openValues.cmdAck
      status := Config.openValues.status, pushStatus := Config.openValues.pushStatus
      event := Config.openValues.event, error := Config.openValues.error }
  flagAckReq := Config.openValues.flagAckReq
  flagResponse := Config.openValues.flagResponse
  flagError := Config.openValues.flagError
  markers_distinct := by decide
  types_distinct := Config.openValues.types_distinct
  command_code := rfl
  flags_distinct := Config.openValues.flags_distinct

/-! The frame-format constants of spec/00_scope.md R9 and the CRC parameters of R11. -/

/-- `MARKER_SIZE`. -/
def markerSize : Nat := 2
/-- `HEADER_SIZE`, bytes 0 to 8, marker included. -/
def headerSize : Nat := 9
/-- `CHECKSUM_SIZE`. -/
def checksumSize : Nat := 4
/-- `MAX_PAYLOAD`. -/
def maxPayload : Nat := 255
/-- `MIN_FRAME = HEADER_SIZE + CHECKSUM_SIZE`. -/
def minFrame : Nat := 13
/-- `MAX_FRAME = 13 + 255`. -/
def maxFrame : Nat := 268
/-- `POLY`, reflected. -/
def crcPoly : Word := 0xEDB88320#32
/-- `INIT`. -/
def crcInitValue : Word := 0xFFFFFFFF#32
/-- `XOROUT`. -/
def crcXorOut : Word := 0xFFFFFFFF#32

end Sys2Proof
end

