-- ==== Sys2Proof/Syntax.lean ====
section
/-! DEFINITION. The commands of the block (spec/30_encoding.md R50), one constructor per row of
spec/opcode_table.json, each with the request-bundle fields it reads (R51). -/

namespace Sys2Proof

/-- A command with its operands. A buffer operand is its bytes; `buf_len` is its length (R51). -/
inductive Instr where
  /-- `CRC_INIT`, op 0x01 (spec/40_crc.md R58). -/
  | crcInit
  /-- `CRC_UPDATE`, op 0x02 (R59). -/
  | crcUpdate (byte : Byte)
  /-- `CRC_FINAL`, op 0x03 (R60). -/
  | crcFinal
  /-- `CRC_COMPUTE`, op 0x04 (R61). -/
  | crcCompute (buf : List Byte)
  /-- `ENCODE`, op 0x10 (spec/41_codec.md R67, R68). -/
  | encode (version mtype flags address : Half) (sequence : Word) (buf : List Byte)
  /-- `DECODE`, op 0x11 (R71, R72). -/
  | decode (buf : List Byte)
  /-- `SYNC_READ`, op 0x20 (spec/42_sync.md R79). -/
  | syncRead
  /-- `SYNC_ABORT`, op 0x21 (R90). -/
  | syncAbort
  deriving DecidableEq, Repr

end Sys2Proof
end

