-- ==== Sys2Proof/WellFormed.lean ====
section
/-! DEFINITION. Which commands can be written at the interface. The one limit is the buffer length: `buf_len` has
16 bits, so a buffer has 0 to 65535 bytes (spec/30_encoding.md R51; spec/93_implementation_defined.md U13). -/

namespace Sys2Proof

/-- A buffer `buf_len` can describe (R51: 0 to 65535 bytes). -/
def bufferFits (buf : List Byte) : Bool := decide (buf.length < 65536)

/-- A command that a request bundle can carry. -/
def Instr.wellFormed : Instr → Bool
  | .crcInit => true
  | .crcUpdate _ => true
  | .crcFinal => true
  | .crcCompute buf => bufferFits buf
  | .encode _ _ _ _ _ buf => bufferFits buf
  | .decode buf => bufferFits buf
  | .syncRead => true
  | .syncAbort => true

end Sys2Proof
end

