-- ==== Sys2Proof/Decode.lean ====
section
/-! DEFINITION. The request bundle (spec/30_encoding.md R51), its decoder (R50, R52) and its encoder; and the
bundle as a flat byte image, whose layout is the model's (DESIGN CHOICE, notes/assumptions/7.md). -/

namespace Sys2Proof

/-- The request bundle of R51. `buf` has exactly `buf_len` bytes, so a bundle R51 does not allow cannot be written. -/
structure Request where
  op       : Byte
  byte     : Byte := 0
  version  : Half := 0
  mtype    : Half := 0
  flags    : Half := 0
  address  : Half := 0
  sequence : Word := 0
  bufLen   : Half := 0
  buf      : List Byte := []
  buf_length : buf.length = bufLen.toNat := by rfl
  deriving DecidableEq, Repr

/-- Why a decoder gives no command. -/
inductive DecodeReject where
  /-- `op` is not in the table of R50; at the port this is answered ILLEGAL_COMMAND (R52), never a stop. -/
  | illegalOp (op : Byte)
  /-- A flat image with fewer bytes than its bundle has; only `decodeBytes` says so, the port holds whole bundles. -/
  | truncated
  deriving DecidableEq, Repr

/-- The decoder of R50: all 8 bits of `op` are matched, and only the fields the command reads are taken. -/
def decodeRequest (r : Request) : Except DecodeReject Instr :=
  if r.op = 0x01#8 then .ok .crcInit
  else if r.op = 0x02#8 then .ok (.crcUpdate r.byte)
  else if r.op = 0x03#8 then .ok .crcFinal
  else if r.op = 0x04#8 then .ok (.crcCompute r.buf)
  else if r.op = 0x10#8 then .ok (.encode r.version r.mtype r.flags r.address r.sequence r.buf)
  else if r.op = 0x11#8 then .ok (.decode r.buf)
  else if r.op = 0x20#8 then .ok .syncRead
  else if r.op = 0x21#8 then .ok .syncAbort
  else .error (.illegalOp r.op)

/-- `SYNC_ABORT`'s code, the one command a busy port accepts (spec/70_reset_and_hazards.md R119). -/
def Request.isAbort (r : Request) : Bool := r.op == 0x21#8

/-! ### The flat image: the fields in R51's order, `op` in bits 7..0, each later field above, least significant
byte first. -/

/-- A 16-bit field as two bytes, least significant first. -/
def le16 (x : Half) : List Byte := [x.extractLsb' 0 8, x.extractLsb' 8 8]

/-- A 32-bit field as four bytes, least significant first. -/
def le32 (x : Word) : List Byte :=
  [x.extractLsb' 0 8, x.extractLsb' 8 8, x.extractLsb' 16 8, x.extractLsb' 24 8]

/-- The bundle as bytes: 16 bytes of fields, then `buf`. -/
def Request.toBytes (r : Request) : List Byte :=
  [r.op, r.byte] ++ le16 r.version ++ le16 r.mtype ++ le16 r.flags ++ le16 r.address
    ++ le32 r.sequence ++ le16 r.bufLen ++ r.buf

/-- A bundle from the front of a byte string, with the bytes after it; `none` when bytes are missing. -/
def Request.ofBytes : List Byte → Option (Request × List Byte)
  | op :: byte :: v0 :: v1 :: m0 :: m1 :: f0 :: f1 :: a0 :: a1 :: s0 :: s1 :: s2 :: s3 :: n0 :: n1 :: rest =>
    let n : Half := n1 ++ n0
    if h : n.toNat ≤ rest.length then
      some
        ({ op := op, byte := byte, version := v1 ++ v0, mtype := m1 ++ m0, flags := f1 ++ f0
           address := a1 ++ a0, sequence := ((s3 ++ s2 : Half) ++ (s1 ++ s0 : Half) : Word)
           bufLen := n, buf := rest.take n.toNat
           buf_length := List.length_take_of_le h },
         rest.drop n.toNat)
    else none
  | _ => none

/-- Whether `op` is one of the eight codes of R50. -/
def legalOp (op : Byte) : Bool :=
  [0x01#8, 0x02#8, 0x03#8, 0x04#8, 0x10#8, 0x11#8, 0x20#8, 0x21#8].contains op

/-- The decoder on bytes, total: a command and the bytes after it, or the reason there is none. An illegal `op` is
found before any operand is read (spec/60_exceptions.md R105). -/
def decodeBytes : List Byte → Except DecodeReject (Instr × List Byte)
  | [] => .error .truncated
  | op :: bs =>
    if legalOp op then
      match Request.ofBytes (op :: bs) with
      | none => .error .truncated
      | some (r, rest) =>
        match decodeRequest r with
        | .ok i => .ok (i, rest)
        | .error e => .error e
    else .error (.illegalOp op)

/-! ### The encoder -/

/-- A bundle whose buffer is `buf` (cut to what `buf_len` can say where `buf` does not fit) and whose other operands are 0. -/
def Request.withBuffer (op : Byte) (buf : List Byte) : Request :=
  { op := op, bufLen := BitVec.ofNat 16 buf.length, buf := buf.take (BitVec.ofNat 16 buf.length).toNat
    buf_length := by
      rw [List.length_take, BitVec.toNat_ofNat]
      exact Nat.min_eq_left (Nat.mod_le _ _) }

/-- The bundle of a command: its code of R50, the operands it reads, 0 in every other field. -/
def encodeRequest : Instr → Request
  | .crcInit => { op := 0x01#8 }
  | .crcUpdate b => { op := 0x02#8, byte := b }
  | .crcFinal => { op := 0x03#8 }
  | .crcCompute buf => Request.withBuffer 0x04#8 buf
  | .encode v t f a q buf =>
    { Request.withBuffer 0x10#8 buf with version := v, mtype := t, flags := f, address := a, sequence := q }
  | .decode buf => Request.withBuffer 0x11#8 buf
  | .syncRead => { op := 0x20#8 }
  | .syncAbort => { op := 0x21#8 }

/-- The flat image of a command. -/
def encodeBytes (i : Instr) : List Byte := (encodeRequest i).toBytes

/-! ### Words of the opcode table -/

/-- The flat image whose low `nbits` bits are `w` and whose other bits are 0: 16 bytes of fields and as many
buffer bytes as its `buf_len` field says. -/
def tableWordBytes (nbits w : Nat) : List Byte :=
  let v := w % 2 ^ nbits
  (List.range (16 + v / 2 ^ 112 % 65536)).map fun k => BitVec.ofNat 8 (v / 2 ^ (8 * k))

/-- The command the decoder reads from an opcode-table word. -/
def decodeTableWord (nbits w : Nat) : Option Instr :=
  match decodeBytes (tableWordBytes nbits w) with
  | .ok (i, _) => some i
  | .error _ => none

/-- The bundle an opcode-table word stands for (an empty bundle of code 0 where the image has none; it always has one). -/
def requestOfTableWord (nbits w : Nat) : Request :=
  match Request.ofBytes (tableWordBytes nbits w) with
  | some (r, _) => r
  | none => { op := 0x00#8 }

end Sys2Proof
end

