-- ==== Sys2Proof/Machine/State.lean ====
section
/-! DEFINITION. The machine's state (spec/10_state.md), the response bundle (spec/30_encoding.md R53, R54), the moves
of the three agents (spec/00_scope.md R13), and the state right after reset (spec/70_reset_and_hazards.md R114). -/

namespace Sys2Proof.Machine

/-- `sync_phase` (spec/10_state.md R17). -/
inductive SyncPhase where
  /-- No SYNC_READ is in progress. -/
  | idle
  /-- Scanning before a first marker byte has matched. -/
  | scan
  /-- Scanning after `MARKER0`, the next byte to be examined. -/
  | mark1
  /-- Framing: the 7 header bytes after the marker. -/
  | hdr
  /-- Framing: payload and checksum. -/
  | body
  deriving DecidableEq, Repr

/-- `pending`, the slot of a command still in progress (spec/10_state.md R21). -/
inductive Pending where
  | none
  | syncRead
  deriving DecidableEq, Repr

/-- The operand an ENCODE validation error names (spec/30_encoding.md R54). -/
inductive ValidationField where
  | version
  | msgType
  | flags
  | address
  | sequence
  | payload
  deriving DecidableEq, Repr

/-- The reason of a framing error (spec/30_encoding.md R54). -/
inductive FramingReason where
  | short
  | marker
  | length
  /-- Never produced (spec/41_codec.md R75). -/
  | oversize
  | type
  deriving DecidableEq, Repr

/-- Why `decode_frame` fails (spec/41_codec.md R71). -/
inductive FrameError where
  | framing (reason : FramingReason)
  | checksum (computed received : Word)
  deriving DecidableEq, Repr

/-- The outcome of a command, the names of spec/30_encoding.md R54. -/
inductive Status where
  | ok
  | validation
  | framing
  | checksum
  | streamClosed
  | aborted
  | illegalCommand
  deriving DecidableEq, Repr

/-- A *frame record* (spec/10_state.md R25). -/
structure FrameRecord where
  version     : Byte
  messageType : Byte
  flags       : Byte
  address     : Byte
  sequence    : Half
  payload     : List Byte
  checksum    : Word
  deriving DecidableEq, Repr

/-- The response bundle (spec/30_encoding.md R53). A field a response does not write is 0 or empty: the defaults. -/
structure Response where
  status : Status
  info   : Byte := 0
  value  : Word := 0
  value2 : Word := 0
  outLen : Half := 0
  out    : List Byte := []
  frame  : Option FrameRecord := none
  deriving DecidableEq, Repr

/-- One move of one agent (spec/00_scope.md R13); the schedule is a list of them (DESIGN CHOICE, notes/assumptions/4.md). -/
inductive Move where
  /-- The block moves. Where it could accept a SYNC_ABORT and could take a byte step, `abortFirst` says which it
  does: both orders are allowed (spec/70_reset_and_hazards.md R120). -/
  | block (abortFirst : Bool)
  /-- The host issues a command on the port. The bundle is fixed here: no move changes or withdraws it before it is
  accepted (DESIGN CHOICE, notes/assumptions/15.md; spec/20_memory.md R39 samples it at acceptance). -/
  | issue (r : Request)
  /-- The host takes the oldest response. -/
  | take
  /-- The environment appends bytes to the byte source (spec/10_state.md R23). -/
  | deliver (bs : List Byte)
  /-- The environment closes the byte source (R23). -/
  | close
  /-- The host asserts reset (spec/70_reset_and_hazards.md R113). -/
  | assertReset
  /-- The host releases reset. -/
  | releaseReset
  deriving DecidableEq, Repr

/-- The machine's state. INVENTORY.md lists each field with its rule and its reset value. -/
structure State where
  /-- The configuration, read-only (spec/10_state.md R24; notes/assumptions/1.md). -/
  cfg           : Config
  /-- `crc_acc` (R16). -/
  crcAcc        : Word
  /-- `sync_phase` (R17). -/
  syncPhase     : SyncPhase
  /-- `sync_buf` (R18). -/
  syncBuf       : List Byte
  /-- `sync_need` (R19). -/
  syncNeed      : Nat
  /-- `pending` (R21). -/
  pending       : Pending
  /-- The response channel, oldest first (R22). -/
  responses     : List Response
  /-- `src_queue` (R23). -/
  srcQueue      : List Byte
  /-- `src_closed` (R23). -/
  srcClosed     : Bool
  /-- The commands issued and not yet accepted, oldest first (spec/70_reset_and_hazards.md R119). -/
  port          : List Request
  /-- The reset input (R113). -/
  resetAsserted : Bool
  /-- The discard events emitted so far, oldest first; no rule reads them (spec/42_sync.md R88; notes/assumptions/8.md). -/
  discards      : List FrameError
  /-- The moves still to come, oldest first (the model's own field; notes/assumptions/4.md). -/
  schedule      : List Move
  deriving DecidableEq, Repr

/-- The reasons a step stops with a fault: none. Every error of this block is a response (spec/60_exceptions.md R106)
and a read that cannot go on holds with all its state (R112), so the type is empty: safe, since no behaviour is cut off. -/
inductive Fault where
  deriving DecidableEq, Repr

/-- The reasons a step is refused. -/
inductive Refusal where
  /-- An instruction without a meaning, raised by its arm of `exec` alone; no arm of this model raises it. Safe. -/
  | notModelled (mnemonic : String)
  deriving DecidableEq, Repr

/-- What a step of this machine answers. -/
abbrev Result := Host.Outcome State Fault Refusal

/-- The state right after reset is released (spec/70_reset_and_hazards.md R114). The byte source, the port, the
discard trace and the schedule are outside R114: empty, and the source open (notes/assumptions/3.md, 4.md, 5.md, 8.md). -/
def State.reset : State where
  cfg := Config.default
  crcAcc := 0xFFFFFFFF#32
  syncPhase := .idle
  syncBuf := []
  syncNeed := 0
  pending := .none
  responses := []
  srcQueue := []
  srcClosed := false
  port := []
  resetAsserted := false
  discards := []
  schedule := []

end Sys2Proof.Machine
end

