-- ==== Sys2Proof/Machine/Flags.lean ====
section
/-! DEFINITION. The block's one status flag, `busy` (spec/10_state.md R21; there are no condition codes, R26), and the
status and info codes a response carries (spec/30_encoding.md R54). -/

namespace Sys2Proof.Machine

/-- `busy`: `pending ≠ NONE` (spec/10_state.md R21). -/
def State.busy (s : State) : Bool := s.pending != .none

/-- The status codes of spec/30_encoding.md R54. -/
def Status.code : Status → Byte
  | .ok => 0x00#8
  | .validation => 0x01#8
  | .framing => 0x02#8
  | .checksum => 0x03#8
  | .streamClosed => 0x04#8
  | .aborted => 0x05#8
  | .illegalCommand => 0x06#8

/-- The info codes of VALIDATION (R54). -/
def ValidationField.code : ValidationField → Byte
  | .version => 0x00#8
  | .msgType => 0x01#8
  | .flags => 0x02#8
  | .address => 0x03#8
  | .sequence => 0x04#8
  | .payload => 0x05#8

/-- The info codes of FRAMING (R54). -/
def FramingReason.code : FramingReason → Byte
  | .short => 0x00#8
  | .marker => 0x01#8
  | .length => 0x02#8
  | .oversize => 0x03#8
  | .type => 0x04#8

end Sys2Proof.Machine
end

