-- ==== Sys2Proof/Machine/Operands.lean ====
section
/-! DEFINITION. Byte strings and operands: big-endian fields (spec/20_memory.md R28), slices (spec/00_scope.md section 5),
membership in `MSG_TYPES` (R7), the operand checks of ENCODE (spec/41_codec.md R67), the named flag bits (R8). -/

namespace Sys2Proof.Machine

/-- `be16(x)`, most significant byte first. -/
def be16 (x : Half) : List Byte := [x.extractLsb' 8 8, x.extractLsb' 0 8]

/-- `be32(x)`, most significant byte first. -/
def be32 (x : Word) : List Byte :=
  [x.extractLsb' 24 8, x.extractLsb' 16 8, x.extractLsb' 8 8, x.extractLsb' 0 8]

/-- `from_be16([h, l]) = h·256 + l`. -/
def fromBe16 (h l : Byte) : Half := BitVec.ofNat 16 (h.toNat * 256 + l.toNat)

/-- `from_be32([a, b, c, d])`. -/
def fromBe32 (a b c d : Byte) : Word :=
  BitVec.ofNat 32 (a.toNat * 2 ^ 24 + b.toNat * 2 ^ 16 + c.toNat * 2 ^ 8 + d.toNat)

/-- `bs[i]`. Every use the spec makes has `i` in range; outside it the model reads 0 (notes/assumptions/10.md). -/
def byteAt (bs : List Byte) (i : Nat) : Byte := bs.getD i 0

/-- `bs[i..j)`. -/
def slice (bs : List Byte) (i j : Nat) : List Byte := (bs.drop i).take (j - i)

/-- `t ∈ MSG_TYPES` for a byte (spec/00_scope.md R7). -/
def isMsgType (cfg : Config) (t : Byte) : Bool := cfg.types.toList.contains t

/-- `mtype ∈ MSG_TYPES` for the 16-bit operand; a value over 255 is never a member (spec/41_codec.md R67). -/
def isMsgTypeOperand (cfg : Config) (t : Half) : Bool :=
  decide (t.toNat ≤ 255) && isMsgType cfg (t.setWidth 8)

/-- The checks of ENCODE in their fixed order: the first field that fails (spec/41_codec.md R67). -/
def encodeInvalid (cfg : Config) (version mtype flags address : Half) (sequence : Word) (payload : List Byte) :
    Option ValidationField :=
  if version.toNat > 255 then some .version
  else if isMsgTypeOperand cfg mtype = false then some .msgType
  else if flags.toNat > 255 then some .flags
  else if address.toNat > 255 then some .address
  else if sequence.toNat > 65535 then some .sequence
  else if payload.length > 255 then some .payload
  else none

/-- The named bits of a frame's flags byte, at the positions of R8. No rule of the block reads them: they are data
for the host. -/
def FrameRecord.ackReq (cfg : Config) (f : FrameRecord) : Bool := f.flags.getLsbD cfg.flagAckReq.val
def FrameRecord.isResponse (cfg : Config) (f : FrameRecord) : Bool := f.flags.getLsbD cfg.flagResponse.val
def FrameRecord.isError (cfg : Config) (f : FrameRecord) : Bool := f.flags.getLsbD cfg.flagError.val

end Sys2Proof.Machine
end

