-- ==== Sys2Proof/Machine/Ops.lean ====
section
/-! DEFINITION. The shared operations: the CRC-32 function (spec/40_crc.md R56, R57), responding and raising an error
(spec/00_scope.md section 5; spec/60_exceptions.md R106), the read primitive `SrcNext()` (spec/20_memory.md R31), ending a
read, the discard event (spec/42_sync.md R88), and the reset input (spec/70_reset_and_hazards.md R113 to R116). -/

namespace Sys2Proof.Machine

/-! ### CRC-32 -/

/-- One turn of the loop of R56: shift right, and XOR `POLY` where the bit shifted out is 1. -/
def crcShift (c : Word) : Word :=
  if c.getLsbD 0 then (c >>> 1) ^^^ crcPoly else c >>> 1

/-- `crcShift`, `n` times. -/
def crcShifts : Nat → Word → Word
  | 0, c => c
  | n + 1, c => crcShifts n (crcShift c)

/-- `crc_step(c, b)` (R56): XOR the byte in, then 8 shifts. -/
def crcStep (c : Word) (b : Byte) : Word := crcShifts 8 (c ^^^ b.setWidth 32)

/-- `crc32(bs)` (R57). -/
def crc32 (bs : List Byte) : Word := bs.foldl crcStep crcInitValue ^^^ crcXorOut

/-! ### Responses and errors -/

/-- `respond(…)`: one response at the back of the channel (spec/10_state.md R22). -/
def State.respond (s : State) (r : Response) : State :=
  { s with responses := s.responses ++ [r] }

/-- An error a command reports (spec/60_exceptions.md R98). -/
inductive ErrorKind where
  | validation (field : ValidationField)
  | frame (e : FrameError)
  | streamClosed
  | aborted
  | illegalCommand
  deriving DecidableEq, Repr

/-- The response that reports an error: its status and info codes (spec/30_encoding.md R54), and the two CRCs on
CHECKSUM (spec/60_exceptions.md R101). -/
def ErrorKind.response : ErrorKind → Response
  | .validation f => { status := .validation, info := f.code }
  | .frame (.framing r) => { status := .framing, info := r.code }
  | .frame (.checksum computed received) => { status := .checksum, value := computed, value2 := received }
  | .streamClosed => { status := .streamClosed }
  | .aborted => { status := .aborted }
  | .illegalCommand => { status := .illegalCommand }

/-- `raise Kind(info)`: the whole of the block's error handling is one response (spec/60_exceptions.md R106). No state is
saved, no mode changes, and there is no return from it (R107). -/
def State.raiseError (s : State) (e : ErrorKind) : State := s.respond e.response

/-- `respond(OK, 0, —)`. -/
def State.respondOk (s : State) : State := s.respond { status := .ok }

/-- `respond(OK, 0, frame = frame)`. -/
def State.respondFrame (s : State) (f : FrameRecord) : State := s.respond { status := .ok, frame := some f }

/-! ### The byte source -/

/-- What `SrcNext()` answers (spec/20_memory.md R31). -/
inductive SrcResult where
  /-- A byte, and the state without it. -/
  | byte (b : Byte) (s : State)
  | eos
  | hold

/-- `SrcNext()` (spec/20_memory.md R31): queued bytes first, then EOS where the source is closed, else hold. -/
def State.srcNext (s : State) : SrcResult :=
  match s.srcQueue with
  | b :: rest => .byte b { s with srcQueue := rest }
  | [] => if s.srcClosed then .eos else .hold

/-! ### The synchronizer's shared writes -/

/-- The state with the synchronizer at `phase` and no candidate. -/
def State.syncTo (s : State) (phase : SyncPhase) : State :=
  { s with syncPhase := phase, syncBuf := [], syncNeed := 0 }

/-- The end of a read (spec/42_sync.md R84, R86, R90): no candidate, `IDLE`, `pending <- NONE`. -/
def State.endRead (s : State) : State := { s.syncTo .idle with pending := .none }

/-- `emit discard(kind, info)` (spec/42_sync.md R88): recorded in the trace alone. -/
def State.emitDiscard (s : State) (e : FrameError) : State := { s with discards := s.discards ++ [e] }

/-! ### The reset input -/

/-- Reset asserted: every element of R114 takes its reset value; the byte source, the commands held at the port and the
configuration stay (R115, R116, R117; notes/assumptions/5.md, 6.md). -/
def State.assertReset (s : State) : State :=
  { s with
    crcAcc := crcInitValue
    syncPhase := .idle
    syncBuf := []
    syncNeed := 0
    pending := .none
    responses := []
    resetAsserted := true }

/-- Reset released. -/
def State.releaseReset (s : State) : State := { s with resetAsserted := false }

end Sys2Proof.Machine
end

