-- ==== Sys2Proof/Machine/Codec.lean ====
section
/-! DEFINITION. The frame codec (spec/41_codec.md): `encode_frame`, `decode_frame`, and the commands ENCODE and DECODE.
The codec has no state (spec/00_scope.md R2) and never touches `crc_acc` (spec/40_crc.md R64). -/

namespace Sys2Proof.Machine

/-- The checked region of a frame: the 7 header bytes after the marker, then the payload (spec/41_codec.md R66, R68). -/
def frameBody (version mtype flags address : Half) (sequence : Word) (payload : List Byte) : List Byte :=
  [version.setWidth 8, mtype.setWidth 8, flags.setWidth 8, address.setWidth 8]
    ++ be16 (sequence.setWidth 16) ++ [BitVec.ofNat 8 payload.length] ++ payload

/-- The wire frame of checked operands (spec/41_codec.md R68; layout spec/30_encoding.md R40). -/
def wireFrame (cfg : Config) (version mtype flags address : Half) (sequence : Word) (payload : List Byte) :
    List Byte :=
  let body := frameBody version mtype flags address sequence payload
  [cfg.marker0, cfg.marker1] ++ body ++ be32 (crc32 body)

/-- `encode_frame`: the first failing check (R67) or the wire frame (R68). -/
def encodeFrame (cfg : Config) (version mtype flags address : Half) (sequence : Word) (payload : List Byte) :
    Except ValidationField (List Byte) :=
  match encodeInvalid cfg version mtype flags address sequence payload with
  | some field => .error field
  | none => .ok (wireFrame cfg version mtype flags address sequence payload)

/-- The received trailer of a frame whose length byte is `L`: `from_be32(r[9+L .. 13+L))`. -/
def receivedCrc (r : List Byte) (L : Nat) : Word :=
  fromBe32 (byteAt r (9 + L)) (byteAt r (10 + L)) (byteAt r (11 + L)) (byteAt r (12 + L))

/-- The frame record of a checked frame (spec/41_codec.md R72). -/
def frameRecord (r : List Byte) : FrameRecord :=
  let L := (byteAt r 8).toNat
  { version := byteAt r 2
    messageType := byteAt r 3
    flags := byteAt r 4
    address := byteAt r 5
    sequence := fromBe16 (byteAt r 6) (byteAt r 7)
    payload := slice r 9 (9 + L)
    checksum := receivedCrc r L }

/-- `decode_frame(r)`: the checks of R71 in their order, then the record of R72. The OVERSIZE check is kept although no
input reaches it (R75). -/
def decodeFrame (cfg : Config) (r : List Byte) : Except FrameError FrameRecord :=
  let L := (byteAt r 8).toNat
  if r.length < minFrame then .error (.framing .short)
  else if byteAt r 0 ≠ cfg.marker0 ∨ byteAt r 1 ≠ cfg.marker1 then .error (.framing .marker)
  else if minFrame + L ≠ r.length then .error (.framing .length)
  else if L > maxPayload then .error (.framing .oversize)
  else if isMsgType cfg (byteAt r 3) = false then .error (.framing .type)
  else if crc32 (slice r 2 (9 + L)) ≠ receivedCrc r L then
    .error (.checksum (crc32 (slice r 2 (9 + L))) (receivedCrc r L))
  else .ok (frameRecord r)

/-- The response of ENCODE (R67, R68). -/
def encodeResponse : Except ValidationField (List Byte) → Response
  | .ok out => { status := .ok, outLen := BitVec.ofNat 16 out.length, out := out }
  | .error field => (ErrorKind.validation field).response

/-- The response of DECODE (R71, R72). -/
def decodeResponse : Except FrameError FrameRecord → Response
  | .ok f => { status := .ok, frame := some f }
  | .error e => (ErrorKind.frame e).response

/-- ENCODE (R67, R68): no state is written, whatever the outcome. -/
def execEncode (version mtype flags address : Half) (sequence : Word) (payload : List Byte) (s : State) : Result :=
  .next (s.respond (encodeResponse (encodeFrame s.cfg version mtype flags address sequence payload)))

/-- DECODE (R71, R72): no state is written, whatever the outcome. -/
def execDecode (buf : List Byte) (s : State) : Result :=
  .next (s.respond (decodeResponse (decodeFrame s.cfg buf)))

end Sys2Proof.Machine
end

