-- ==== Sys2Proof/Machine/Crc.lean ====
section
/-! DEFINITION. The CRC unit's commands (spec/40_crc.md section 2). -/

namespace Sys2Proof.Machine

/-- CRC_INIT (R58). -/
def execCrcInit (s : State) : Result :=
  .next ({ s with crcAcc := crcInitValue }.respondOk)

/-- CRC_UPDATE (R59). -/
def execCrcUpdate (byte : Byte) (s : State) : Result :=
  .next ({ s with crcAcc := crcStep s.crcAcc byte }.respondOk)

/-- CRC_FINAL (R60): `crc_acc` is not changed. -/
def execCrcFinal (s : State) : Result :=
  .next (s.respond { status := .ok, value := s.crcAcc ^^^ crcXorOut })

/-- CRC_COMPUTE (R61), on a datapath of its own. -/
def execCrcCompute (buf : List Byte) (s : State) : Result :=
  .next (s.respond { status := .ok, value := crc32 buf })

end Sys2Proof.Machine
end

