-- ==== Sys2Proof/Machine/Sync.lean ====
section
/-! DEFINITION. The stream synchronizer (spec/42_sync.md): SYNC_READ, SYNC_ABORT, the byte steps and end of stream. -/

namespace Sys2Proof.Machine

/-- SYNC_READ at acceptance (R79): no response yet. -/
def execSyncRead (s : State) : Result :=
  .next ({ s.syncTo .scan with pending := .syncRead })

/-- SYNC_ABORT (R90): a pending read responds ABORTED and ends, then the abort itself responds OK. -/
def execSyncAbort (s : State) : Result :=
  match s.pending with
  | .syncRead => .next (((s.raiseError .aborted).endRead).respondOk)
  | .none => .next s.respondOk

/-- A byte step in `SCAN` (R80). -/
def scanByte (b : Byte) (s : State) : State :=
  if b = s.cfg.marker0 then { s with syncBuf := [b], syncPhase := .mark1 } else s

/-- A byte step in `MARK1` (R81). -/
def mark1Byte (b : Byte) (s : State) : State :=
  if b = s.cfg.marker1 then { s with syncBuf := s.syncBuf ++ [b], syncNeed := 7, syncPhase := .hdr }
  else if b = s.cfg.marker0 then { s with syncBuf := [b] }
  else { s with syncBuf := [], syncPhase := .scan }

/-- A byte step in `HDR` (R82). -/
def hdrByte (b : Byte) (s : State) : State :=
  let buf := s.syncBuf ++ [b]
  let need := s.syncNeed - 1
  if need = 0 then
    { s with syncBuf := buf, syncNeed := (byteAt buf 8).toNat + checksumSize, syncPhase := .body }
  else { s with syncBuf := buf, syncNeed := need }

/-- The end of a candidate: a frame ends the read (R84), a failure is discarded and scanning resumes (R85). -/
def finishCandidate (candidate : List Byte) (s : State) : State :=
  match decodeFrame s.cfg candidate with
  | .ok f => (s.respondFrame f).endRead
  | .error e => (s.emitDiscard e).syncTo .scan

/-- A byte step in `BODY` (R83). -/
def bodyByte (b : Byte) (s : State) : State :=
  let buf := s.syncBuf ++ [b]
  let need := s.syncNeed - 1
  if need = 0 then finishCandidate buf s
  else { s with syncBuf := buf, syncNeed := need }

/-- The byte step of the phase the synchronizer is in, on a byte already taken from the source (R80 to R83). -/
def syncByte (b : Byte) (s : State) : State :=
  match s.syncPhase with
  | .idle => s
  | .scan => scanByte b s
  | .mark1 => mark1Byte b s
  | .hdr => hdrByte b s
  | .body => bodyByte b s

/-- End of stream (R86). -/
def syncEos (s : State) : State := (s.raiseError .streamClosed).endRead

/-- The synchronizer's step, or `none` where it has none: no read in progress, or it holds (R87). -/
def State.syncMove (s : State) : Option State :=
  match s.syncPhase, s.srcNext with
  | .idle, _ => none
  | _, .byte b s' => some (syncByte b s')
  | _, .eos => some (syncEos s)
  | _, .hold => none

end Sys2Proof.Machine
end

