-- ==== Sys2Proof/Machine/Dispatch.lean ====
section
/-! DEFINITION. What each command does when the port accepts it: one meaning per row of spec/opcode_table.json. -/

namespace Sys2Proof.Machine

def exec (i : Instr) (s : State) : Host.Outcome State Fault Refusal :=
  match i with
  | .crcInit => Sys2Proof.Machine.execCrcInit s
  | .crcUpdate byte => Sys2Proof.Machine.execCrcUpdate byte s
  | .crcFinal => Sys2Proof.Machine.execCrcFinal s
  | .crcCompute buf => Sys2Proof.Machine.execCrcCompute buf s
  | .encode version mtype flags address sequence buf => Sys2Proof.Machine.execEncode version mtype flags address sequence buf s
  | .decode buf => Sys2Proof.Machine.execDecode buf s
  | .syncRead => Sys2Proof.Machine.execSyncRead s
  | .syncAbort => Sys2Proof.Machine.execSyncAbort s

end Sys2Proof.Machine
end

