-- ==== Sys2Proof/Machine/Port.lean ====
section
/-! DEFINITION. The command port (spec/70_reset_and_hazards.md R119), the moves of the block, the host and the byte source,
and the schedule that says whose move comes next (notes/assumptions/4.md). -/

namespace Sys2Proof.Machine

/-- The first SYNC_ABORT of a list of issued commands, and the others in their order. -/
def firstAbort : List Request → Option (Request × List Request)
  | [] => none
  | r :: rs =>
    if r.isAbort then some (r, rs)
    else
      match firstAbort rs with
      | some (a, rest) => some (a, r :: rest)
      | none => none

/-- The command the port can accept, and the commands left at it. Not busy: the oldest. Busy: the oldest SYNC_ABORT, all
others being held (R119; notes/assumptions/5.md). -/
def State.acceptable (s : State) : Option (Request × List Request) :=
  if s.busy then firstAbort s.port
  else
    match s.port with
    | [] => none
    | r :: rs => some (r, rs)

/-- A command accepted: its meaning, or ILLEGAL_COMMAND for an `op` outside the table, which changes nothing else
(spec/30_encoding.md R52). -/
def acceptCommand (r : Request) (s : State) : Result :=
  match decodeRequest r with
  | .ok i => exec i s
  | .error _ => .next (s.raiseError .illegalCommand)

/-- The block's move. Under reset it takes no step (R113). It accepts a command or takes a synchronizer step; where it
could do either, `abortFirst` says which (R120). Where it can do neither, it holds: nothing changes (R87, R112). -/
def blockMove (abortFirst : Bool) (s : State) : Result :=
  if s.resetAsserted then .next s
  else
    match s.acceptable, s.syncMove with
    | some (r, rest), none => acceptCommand r { s with port := rest }
    | some (r, rest), some s' => if abortFirst then acceptCommand r { s with port := rest } else .next s'
    | none, some s' => .next s'
    | none, none => .next s

/-- Bytes the environment delivers; a closed source takes none (spec/10_state.md R23; notes/assumptions/10.md). -/
def State.deliver (bs : List Byte) (s : State) : State :=
  if s.srcClosed then s else { s with srcQueue := s.srcQueue ++ bs }

/-- One move of one agent. What a bundle holds when it is issued is what the port samples when it accepts it
(DESIGN CHOICE, notes/assumptions/15.md). -/
def doMove (m : Move) (s : State) : Result :=
  match m with
  | .block abortFirst => blockMove abortFirst s
  | .issue r => .next { s with port := s.port ++ [r] }
  | .take => .next { s with responses := s.responses.tail }
  | .deliver bs => .next (s.deliver bs)
  | .close => .next { s with srcClosed := true }
  | .assertReset => .next s.assertReset
  | .releaseReset => .next s.releaseReset

/-- The next move of the schedule; when it is exhausted, the block moves, an abort first (notes/assumptions/4.md). -/
def nextMove (s : State) : Result :=
  match s.schedule with
  | [] => blockMove true s
  | m :: rest => doMove m { s with schedule := rest }

/-- The state in which the very next move of the block accepts `r`: `r` is the oldest command at the port, the move is
the block's, reset is released, and a read that would hold `r` is ended. -/
def State.withCommand (s : State) (r : Request) : State :=
  let s' : State :=
    { s with port := r :: s.port, schedule := .block true :: s.schedule, resetAsserted := false }
  if s.busy && !r.isAbort then s'.endRead else s'

end Sys2Proof.Machine
end

