-- ==== Sys2Proof/Machine/Step.lean ====
section
/-! DEFINITION. One step of the machine: the next move of its schedule. -/

namespace Sys2Proof.Machine

/-- One step (spec/70_reset_and_hazards.md R124): one move of one agent. -/
def step : State → Host.Outcome State Fault Refusal := fun s => nextMove s

/-- `s` with the command of an opcode-table word as the one the next step accepts (notes/assumptions/13.md). -/
def State.withFetchWord (s : State) (nbits w : Nat) : State := s.withCommand (requestOfTableWord nbits w)

end Sys2Proof.Machine
end

