-- ==== Sys2Proof/Machine/Runs.lean ====
section
/-! DEFINITION. Whose turn a step is, endless runs of the three agents, and the weak fairness of the block
(spec/70_reset_and_hazards.md R125). -/

namespace Sys2Proof.Machine

/-! ### Turns -/

/-- Whether the next move is the block's: its choice in an abort race, and the state with the move taken off the schedule. -/
def blockTurn (s : State) : Option (Bool × State) :=
  match s.schedule with
  | [] => some (true, s)
  | .block abortFirst :: rest => some (abortFirst, { s with schedule := rest })
  | _ => none

/-- The next step is the block's, reset is released, and it does not go to a command at the port: there is none it can
accept, or a synchronizer step is possible too and the race goes to it. `s₀` is the state that step starts from. -/
def ByteTurn (s s₀ : State) : Prop :=
  s.resetAsserted = false ∧
    ∃ c, blockTurn s = some (c, s₀) ∧ (s.acceptable = none ∨ (c = false ∧ s.syncMove ≠ none))

/-- The next step is the block's acceptance of `r`; `s₀` is the state the command runs in. -/
def Accepts (s : State) (r : Request) (s₀ : State) : Prop :=
  s.resetAsserted = false ∧
    ∃ c s₁ rest, blockTurn s = some (c, s₁) ∧ s.acceptable = some (r, rest)
      ∧ (s.syncMove = none ∨ c = true) ∧ s₀ = { s₁ with port := rest }

/-- The next step is the block's synchronizer step: a byte step or the end of stream (spec/42_sync.md R80 to R86). -/
def SyncTurn (s : State) : Prop :=
  s.resetAsserted = false ∧
    ∃ c s₁, blockTurn s = some (c, s₁) ∧ s.syncMove ≠ none ∧ (s.acceptable = none ∨ c = false)

/-! ### Endless runs -/

/-- The agents put further moves on the schedule, behind those already there. -/
def State.schedules (s : State) (more : List Move) : State := { s with schedule := s.schedule ++ more }

/-- An endless run: each state is the step of the one before, after which the agents may put any further moves on the
schedule. Nothing is assumed of the host or the environment (R125): they may move for ever, or never, and the block's moves may
come as late as they like. -/
def IsRun (σ : Nat → State) : Prop :=
  ∀ n, ∃ t more, step (σ n) = .next t ∧ σ (n + 1) = t.schedules more

/-! ### Weak fairness of the block (R125) -/

/-- The block can accept a command. -/
def AcceptEnabled (s : State) : Prop := s.resetAsserted = false ∧ s.acceptable ≠ none

/-- The next step accepts a command. -/
def AcceptTaken (s : State) : Prop := ∃ r s₀, Accepts s r s₀

/-- The synchronizer can take a step. -/
def SyncEnabled (s : State) : Prop := s.resetAsserted = false ∧ s.syncMove ≠ none

/-- An action that is enabled from some point of the run on is taken at that point or later. -/
def EventuallyTaken (enabled taken : State → Prop) (σ : Nat → State) : Prop :=
  ∀ n, (∀ m, n ≤ m → enabled (σ m)) → ∃ m, n ≤ m ∧ taken (σ m)

/-- Weak fairness of the block (R125): a block step that stays enabled is eventually taken, be it the acceptance of a command
or a step of the synchronizer (each for itself: DEDUCED, notes/assumptions/11.md). -/
def WeaklyFair (σ : Nat → State) : Prop :=
  EventuallyTaken AcceptEnabled AcceptTaken σ ∧ EventuallyTaken SyncEnabled SyncTurn σ

end Sys2Proof.Machine
end

