-- ==== Sys2Proof/Safety.lean ====
section
/-! DEFINITION. The terms claims use: the invariant of the state (spec/10_state.md R20, R21), what a response may be
(spec/30_encoding.md R53, R54), finite runs of steps and of commands, and the functional form of one read (spec/42_sync.md R93).
Whose turn a step is, endless runs and weak fairness are in Machine/Runs.lean. -/

namespace Sys2Proof.Machine

/-! ### The invariant -/

/-- R20, clause by clause; in `BODY` also that the candidate begins with the marker, which R91 rests on. -/
def SyncInv (s : State) : Prop :=
  match s.syncPhase with
  | .idle => s.syncBuf = [] ∧ s.syncNeed = 0
  | .scan => s.syncBuf = [] ∧ s.syncNeed = 0
  | .mark1 => s.syncBuf = [s.cfg.marker0] ∧ s.syncNeed = 0
  | .hdr =>
    ∃ h : List Byte,
      s.syncBuf = [s.cfg.marker0, s.cfg.marker1] ++ h ∧ h.length ≤ 6 ∧ s.syncNeed = 7 - h.length
  | .body =>
    ∃ k : Nat,
      s.syncBuf.length = 9 + k ∧ k < (byteAt s.syncBuf 8).toNat + 4
        ∧ s.syncNeed = (byteAt s.syncBuf 8).toNat + 4 - k
        ∧ s.syncBuf.take 2 = [s.cfg.marker0, s.cfg.marker1]

/-- R21: `pending = SYNC_READ` exactly when `sync_phase ≠ IDLE`. -/
def PendingInv (s : State) : Prop := s.pending = .syncRead ↔ s.syncPhase ≠ .idle

/-- R113: while reset is asserted every element of R114 holds its reset value, so it does when reset is released. -/
def ResetInv (s : State) : Prop :=
  s.resetAsserted = true →
    s.crcAcc = 0xFFFFFFFF#32 ∧ s.syncPhase = .idle ∧ s.syncBuf = [] ∧ s.syncNeed = 0
      ∧ s.pending = .none ∧ s.responses = []

/-- The invariant every step keeps. -/
def StateInv (s : State) : Prop := SyncInv s ∧ PendingInv s ∧ ResetInv s

/-! ### Responses -/

/-- A response the block may produce (R53, R54): the fields its status does not write are 0 or empty, `info` is in the
status's row, and OVERSIZE is never given (spec/41_codec.md R75). -/
def Response.Legal (cfg : Config) (r : Response) : Prop :=
  match r.status with
  | .ok =>
    (∃ v : Word, r = { status := .ok, value := v })
      ∨ (∃ out : List Byte, 13 ≤ out.length ∧ out.length ≤ 268
          ∧ r = { status := .ok, outLen := BitVec.ofNat 16 out.length, out := out })
      ∨ (∃ f : FrameRecord, f.payload.length ≤ 255 ∧ f.messageType ∈ cfg.types.toList
          ∧ r = { status := .ok, frame := some f })
  | .validation => ∃ field : ValidationField, r = { status := .validation, info := field.code }
  | .framing => ∃ reason : FramingReason, reason ≠ .oversize ∧ r = { status := .framing, info := reason.code }
  | .checksum =>
    ∃ computed received : Word, computed ≠ received
      ∧ r = { status := .checksum, value := computed, value2 := received }
  | .streamClosed => r = { status := .streamClosed }
  | .aborted => r = { status := .aborted }
  | .illegalCommand => r = { status := .illegalCommand }

/-! ### Finite runs -/

/-- `k` steps. -/
def runSteps : Nat → State → Result
  | 0, s => .next s
  | k + 1, s =>
    match step s with
    | .next t => runSteps k t
    | .fault f => .fault f
    | .refused r => .refused r

/-- A list of commands, each run by its meaning. -/
def execAll : List Instr → State → Result
  | [], s => .next s
  | i :: is, s =>
    match exec i s with
    | .next t => execAll is t
    | .fault f => .fault f
    | .refused r => .refused r

/-! ### Operands and frames that pass every check -/

/-- Every check of ENCODE passes (spec/41_codec.md R67, R76). -/
def EncodeOk (cfg : Config) (version mtype flags address : Half) (sequence : Word) (payload : List Byte) : Prop :=
  version.toNat ≤ 255 ∧ (∃ t ∈ cfg.types.toList, t.toNat = mtype.toNat) ∧ flags.toNat ≤ 255
    ∧ address.toNat ≤ 255 ∧ sequence.toNat ≤ 65535 ∧ payload.length ≤ 255

/-- The length byte of a raw frame, as a number (spec/30_encoding.md R47). -/
def lengthByte (r : List Byte) : Nat := (byteAt r 8).toNat

/-- The checked region of a raw frame: bytes `2 .. 9+L` (spec/41_codec.md R66). -/
def checkedRegion (r : List Byte) : List Byte := (r.drop 2).take (7 + lengthByte r)

/-- A raw frame of the right shape: marker, length and message type (the framing checks of spec/41_codec.md R71). -/
def FramingOk (cfg : Config) (r : List Byte) : Prop :=
  13 ≤ r.length ∧ r.take 2 = [cfg.marker0, cfg.marker1] ∧ 13 + lengthByte r = r.length
    ∧ byteAt r 3 ∈ cfg.types.toList

/-- A wire frame DECODE accepts: of the right shape, and its trailer is the big-endian CRC of its checked region
(spec/30_encoding.md R40). -/
def FrameOk (cfg : Config) (r : List Byte) : Prop :=
  FramingOk cfg r ∧ r.drop (9 + lengthByte r) = be32 (crc32 (checkedRegion r))

/-- The fields of a wire frame at their offsets (spec/10_state.md R25; spec/30_encoding.md R40). -/
def fieldsOf (r : List Byte) : FrameRecord where
  version := byteAt r 2
  messageType := byteAt r 3
  flags := byteAt r 4
  address := byteAt r 5
  sequence := byteAt r 6 ++ byteAt r 7
  payload := (r.drop 9).take (lengthByte r)
  checksum := crc32 (checkedRegion r)

/-! ### The functional form of one read (spec/42_sync.md R93) -/

/-- How `sync_run` ends. -/
inductive ReadOutcome where
  | frame (f : FrameRecord)
  | streamClosed
  | hold
  deriving DecidableEq, Repr

/-- `sync_run`'s answer: the outcome, the number of bytes consumed, and the discard events on the way (R88). -/
structure ReadResult where
  outcome  : ReadOutcome
  consumed : Nat
  discards : List FrameError
  deriving DecidableEq, Repr

/-- The loop of `sync_run`: `i` bytes consumed and `ds` discarded so far, the rest of the queue as the list. -/
def syncLoop (cfg : Config) (closed : Bool) :
    List Byte → SyncPhase → List Byte → Nat → Nat → List FrameError → ReadResult
  | [], _, _, _, i, ds => ⟨if closed then .streamClosed else .hold, i, ds⟩
  | b :: q, phase, buf, need, i, ds =>
    match phase with
    | .idle => ⟨.hold, i, ds⟩
    | .scan =>
      if b = cfg.marker0 then syncLoop cfg closed q .mark1 [b] need (i + 1) ds
      else syncLoop cfg closed q .scan buf need (i + 1) ds
    | .mark1 =>
      if b = cfg.marker1 then syncLoop cfg closed q .hdr (buf ++ [b]) 7 (i + 1) ds
      else if b = cfg.marker0 then syncLoop cfg closed q .mark1 [b] need (i + 1) ds
      else syncLoop cfg closed q .scan [] need (i + 1) ds
    | .hdr =>
      if need - 1 = 0 then
        syncLoop cfg closed q .body (buf ++ [b]) ((byteAt (buf ++ [b]) 8).toNat + 4) (i + 1) ds
      else syncLoop cfg closed q .hdr (buf ++ [b]) (need - 1) (i + 1) ds
    | .body =>
      if need - 1 = 0 then
        match decodeFrame cfg (buf ++ [b]) with
        | .ok f => ⟨.frame f, i + 1, ds⟩
        | .error e => syncLoop cfg closed q .scan [] 0 (i + 1) (ds ++ [e])
      else syncLoop cfg closed q .body (buf ++ [b]) (need - 1) (i + 1) ds

/-- `sync_run(q, closed)` (R93). -/
def syncRun (cfg : Config) (q : List Byte) (closed : Bool) : ReadResult :=
  syncLoop cfg closed q .scan [] 0 0 []

/-- The rest of the read that `s` is in, if nothing more is delivered: `sync_run`'s loop from the phase, the candidate and the
count the synchronizer has reached (R93). -/
def readFrom (s : State) : ReadResult :=
  syncLoop s.cfg s.srcClosed s.srcQueue s.syncPhase s.syncBuf s.syncNeed 0 []

end Sys2Proof.Machine
end

