-- ==== Sys2Proof/Certificates/Slice0/Obligations.lean ====
section
/-! DEFINITION. The statements for the provers, each a rule of spec/ or derived from its sections. -/

open Sys2Proof Sys2Proof.Machine

/-! ### Encoding of commands -/

/-- The command table of spec/30_encoding.md R50: each `op` selects its command with the operands it reads; the codes the
decoder rejects are exactly the illegal ones of R52. -/
def Obligations.DecoderFollowsCommandTable : Prop :=
  ∀ r : Request,
    (r.op = 0x01#8 → decodeRequest r = .ok .crcInit)
      ∧ (r.op = 0x02#8 → decodeRequest r = .ok (.crcUpdate r.byte))
      ∧ (r.op = 0x03#8 → decodeRequest r = .ok .crcFinal)
      ∧ (r.op = 0x04#8 → decodeRequest r = .ok (.crcCompute r.buf))
      ∧ (r.op = 0x10#8 →
          decodeRequest r = .ok (.encode r.version r.mtype r.flags r.address r.sequence r.buf))
      ∧ (r.op = 0x11#8 → decodeRequest r = .ok (.decode r.buf))
      ∧ (r.op = 0x20#8 → decodeRequest r = .ok .syncRead)
      ∧ (r.op = 0x21#8 → decodeRequest r = .ok .syncAbort)
      ∧ (decodeRequest r = .error (.illegalOp r.op) ↔
          (r.op.toNat = 0x00 ∨ (0x05 ≤ r.op.toNat ∧ r.op.toNat ≤ 0x0F)
            ∨ (0x12 ≤ r.op.toNat ∧ r.op.toNat ≤ 0x1F) ∨ 0x22 ≤ r.op.toNat))

/-- The opcode table's words, and two flat images written out by hand (the layout is the model's choice,
notes/assumptions/7.md). -/
def Obligations.SampleWordsDecode : Prop :=
  decodeTableWord 8 0x01 = some .crcInit ∧ decodeTableWord 8 0x02 = some (.crcUpdate 0x00#8)
    ∧ decodeTableWord 8 0x03 = some .crcFinal ∧ decodeTableWord 8 0x04 = some (.crcCompute [])
    ∧ decodeTableWord 8 0x10 = some (.encode 0 0 0 0 0 []) ∧ decodeTableWord 8 0x11 = some (.decode [])
    ∧ decodeTableWord 8 0x20 = some .syncRead ∧ decodeTableWord 8 0x21 = some .syncAbort
    ∧ decodeTableWord 8 0x12 = none
    ∧ decodeBytes [0x02, 0x31, 0, 0, 0, 0, 0, 0, 0, 0, 0, 0, 0, 0, 0, 0] = .ok (.crcUpdate 0x31#8, [])
    ∧ decodeBytes [0x10, 0, 0x01, 0, 0x10, 0, 0, 0, 0x12, 0, 0x34, 0x12, 0, 0, 0x02, 0, 0x7B, 0x7D]
        = .ok (.encode 0x0001#16 0x0010#16 0x0000#16 0x0012#16 0x00001234#32 [0x7B#8, 0x7D#8], [])

/-- Decode and encode agree: the flat image of every well-formed command, whatever bytes follow it, decodes to that command, with
every operand at every value, and leaves those bytes. The layout of the image is the model's (notes/assumptions/7.md). -/
def Obligations.DecodeOfEncodeIsIdentity : Prop :=
  ∀ (i : Instr) (rest : List Byte),
    i.wellFormed = true → decodeBytes (encodeBytes i ++ rest) = .ok (i, rest)

/-- Each bundle has one meaning: a command that a bundle decodes to is well formed, and its own bundle has the same
`op` and decodes to it again. -/
def Obligations.DecodedCommandReencodes : Prop :=
  ∀ (r : Request) (i : Instr),
    decodeRequest r = .ok i →
      i.wellFormed = true ∧ (encodeRequest i).op = r.op ∧ decodeRequest (encodeRequest i) = .ok i

/-- A command ignores the fields it does not read (spec/30_encoding.md R51, the table's last column). -/
def Obligations.UnreadFieldsAreIgnored : Prop :=
  ∀ r r' : Request,
    r.op = r'.op →
    (r.op = 0x02#8 → r.byte = r'.byte) →
    (r.op = 0x10#8 →
      r.version = r'.version ∧ r.mtype = r'.mtype ∧ r.flags = r'.flags ∧ r.address = r'.address
        ∧ r.sequence = r'.sequence) →
    (r.op = 0x04#8 ∨ r.op = 0x10#8 ∨ r.op = 0x11#8 → r.buf = r'.buf) →
      decodeRequest r = decodeRequest r'

/-! ### A step and the port -/

/-- A step in which the port accepts a bundle runs the command it decodes to, in the state without that bundle at the port
and without the move on the schedule, which is the model's (notes/assumptions/4.md). -/
def Obligations.StepRunsDecodedCommand : Prop :=
  ∀ (s s₀ : State) (r : Request) (i : Instr),
    Accepts s r s₀ → decodeRequest r = .ok i → step s = exec i s₀

/-- The step after `withFetchWord` runs the command of the table's word, in the state it was given (reset released, and a read
that would hold the command ended). The image of a table word and the state withFetchWord makes are the model's
(notes/assumptions/7.md, notes/assumptions/13.md). -/
def Obligations.FetchWordRunsDecodedCommand : Prop :=
  ∀ (s : State) (nbits w : Nat) (i : Instr),
    decodeTableWord nbits w = some i →
      (s.pending = .none ∨ i = .syncAbort →
        step (s.withFetchWord nbits w) = exec i { s with resetAsserted := false })
      ∧ (s.pending = .syncRead → i ≠ .syncAbort →
        step (s.withFetchWord nbits w) =
          exec i { s with
            resetAsserted := false, pending := .none, syncPhase := .idle, syncBuf := [], syncNeed := 0 })

/-- spec/60_exceptions.md R104: an illegal command responds ILLEGAL_COMMAND and changes no state. -/
def Obligations.IllegalCommandChangesNoState : Prop :=
  ∀ (s s₀ : State) (r : Request),
    Accepts s r s₀ →
    r.op ∉ [0x01#8, 0x02#8, 0x03#8, 0x04#8, 0x10#8, 0x11#8, 0x20#8, 0x21#8] →
      step s = .next { s₀ with responses := s₀.responses ++ [{ status := .illegalCommand }] }

/-- Derived from spec/70_reset_and_hazards.md R119 and spec/10_state.md R21. Not busy: the oldest issued command is accepted.
Busy: every command but a SYNC_ABORT stays at the port, in its order, unanswered, and the oldest SYNC_ABORT is accepted.
Reset leaves the held commands at the port. R119 says when the port accepts and holds; that it takes the oldest command, that
the oldest of several SYNC_ABORTs overtakes the held ones, and that reset keeps them, is the model's reading
(notes/assumptions/5.md). A bundle stays as it was issued while it is held (notes/assumptions/5.md, notes/assumptions/15.md). -/
def Obligations.PortAcceptsOneCommandAtATime : Prop :=
  (∀ (s s₁ : State) (c : Bool) (r : Request) (rest : List Request),
    StateInv s → s.resetAsserted = false → blockTurn s = some (c, s₁) → s.pending = .none → s.port = r :: rest →
      Accepts s r { s₁ with port := rest })
  ∧ (∀ (s s₁ t : State) (c : Bool),
    blockTurn s = some (c, s₁) → s.pending = .syncRead → step s = .next t →
      (t.pending = .syncRead → t.responses = s.responses)
      ∧ (t.port = s.port ∨
        ∃ before a after,
          s.port = before ++ a :: after ∧ (∀ r ∈ before, r.op ≠ 0x21#8) ∧ a.op = 0x21#8
            ∧ t.port = before ++ after ∧ t.pending = .none))
  ∧ (∀ (s s₁ : State) (before after : List Request) (a : Request),
    s.resetAsserted = false → blockTurn s = some (true, s₁) → s.pending = .syncRead →
    s.port = before ++ a :: after → (∀ r ∈ before, r.op ≠ 0x21#8) → a.op = 0x21#8 →
      Accepts s a { s₁ with port := before ++ after })
  ∧ (∀ (s t : State) (rest : List Move),
    s.schedule = .assertReset :: rest ∨ s.schedule = .releaseReset :: rest → step s = .next t → t.port = s.port)

/-- spec/70_reset_and_hazards.md R120: when a SYNC_ABORT is at the port and a byte step is possible, both orders are runs of the
model, and accepting the abort first leaves ABORTED and then OK in the channel. The move that decides the race, and that it
is the oldest SYNC_ABORT, are the model's (notes/assumptions/4.md, notes/assumptions/5.md). -/
def Obligations.AbortRaceAdmitsBothOrders : Prop :=
  ∀ (s s' : State) (a : Request) (rest : List Request),
    s.resetAsserted = false → s.pending = .syncRead → s.acceptable = some (a, rest) → s.syncMove = some s' →
      step { s with schedule := .block false :: s.schedule } = .next s'
      ∧ step { s with schedule := .block true :: s.schedule } =
          .next { s with
            port := rest
            responses := s.responses ++ [{ status := .aborted }, { status := .ok }]
            pending := .none, syncPhase := .idle, syncBuf := [], syncNeed := 0 }

/-- spec/10_state.md R22: every accepted command produces exactly one response. Counting the one a pending read still
owes, accepting a command adds one, and any other step of the block adds none; responses are added at the back only. -/
def Obligations.AcceptedCommandGetsOneResponse : Prop :=
  (∀ (s s₀ t : State) (r : Request),
    Accepts s r s₀ → step s = .next t →
      s.responses <+: t.responses
        ∧ t.responses.length + (if t.busy then 1 else 0)
            = s.responses.length + (if s.busy then 1 else 0) + 1)
  ∧ (∀ s s₀ t : State,
    StateInv s → ByteTurn s s₀ → step s = .next t →
      s.responses <+: t.responses
        ∧ t.responses.length + (if t.busy then 1 else 0) = s.responses.length + (if s.busy then 1 else 0))

/-- No command and no step ends in a fault or a refusal: an error is a response, and a read that cannot go on holds. That a hold
is a step that changes nothing is the model's choice (notes/assumptions/11.md). -/
def Obligations.NothingStopsTheBlock : Prop :=
  (∀ (i : Instr) (s : State), ∃ t, exec i s = .next t) ∧ (∀ s : State, ∃ t, step s = .next t)

/-- spec/60_exceptions.md R98 to R104: which command each error status comes from, and when. -/
def Obligations.EachErrorHasItsCommand : Prop :=
  ∀ (s t : State) (new : List Response) (x : Response),
    step s = .next t → t.responses = s.responses ++ new → x ∈ new →
      (x.status = .validation → ∃ r s₀, Accepts s r s₀ ∧ r.op = 0x10#8)
      ∧ (x.status = .framing ∨ x.status = .checksum → ∃ r s₀, Accepts s r s₀ ∧ r.op = 0x11#8)
      ∧ (x.status = .streamClosed → s.syncPhase ≠ .idle ∧ s.srcQueue = [] ∧ s.srcClosed = true)
      ∧ (x.status = .aborted → s.pending = .syncRead ∧ ∃ r s₀, Accepts s r s₀ ∧ r.op = 0x21#8)
      ∧ (x.status = .illegalCommand →
          ∃ r s₀, Accepts s r s₀ ∧ r.op ∉ [0x01#8, 0x02#8, 0x03#8, 0x04#8, 0x10#8, 0x11#8, 0x20#8, 0x21#8])

/-! ### CRC unit -/

/-- spec/40_crc.md R56, R57, R63: the bit-serial loop, whose polynomial is the bit reversal of the IEEE 802.3 one, the CRC-32
of a byte string, and its check value. -/
def Obligations.CrcIsBitSerialFold : Prop :=
  (∀ (c : Word) (b : Byte),
    crcStep c b =
      (fun x : Word => if x.getLsbD 0 = true then (x >>> 1) ^^^ 0xEDB88320#32 else x >>> 1)^[8]
        (c ^^^ b.setWidth 32))
  ∧ (0x04C11DB7#32).reverse = 0xEDB88320#32
  ∧ (∀ bs : List Byte, crc32 bs = bs.foldl crcStep 0xFFFFFFFF#32 ^^^ 0xFFFFFFFF#32)
  ∧ crc32 [] = 0x00000000#32
  ∧ crc32 [0x31#8, 0x32#8, 0x33#8, 0x34#8, 0x35#8, 0x36#8, 0x37#8, 0x38#8, 0x39#8] = 0xCBF43926#32

/-- spec/40_crc.md R58. -/
def Obligations.CrcInitResult : Prop :=
  ∀ s : State,
    exec .crcInit s =
      .next { s with crcAcc := 0xFFFFFFFF#32, responses := s.responses ++ [{ status := .ok }] }

/-- spec/40_crc.md R59, with the bijection it derives for a fixed byte. -/
def Obligations.CrcUpdateResult : Prop :=
  (∀ (b : Byte) (s : State),
    exec (.crcUpdate b) s =
      .next { s with crcAcc := crcStep s.crcAcc b, responses := s.responses ++ [{ status := .ok }] })
  ∧ ∀ b : Byte, Function.Bijective fun c : Word => crcStep c b

/-- spec/40_crc.md R60, R61. CRC_FINAL returns `crc_acc` complemented and does not change it; CRC_COMPUTE returns the CRC of
its buffer. Neither does anything but respond. -/
def Obligations.CrcFinalAndComputeResults : Prop :=
  (∀ s : State,
    exec .crcFinal s =
      .next { s with
        responses := s.responses ++ [{ status := .ok, value := s.crcAcc ^^^ 0xFFFFFFFF#32 }] })
  ∧ ∀ (buf : List Byte) (s : State),
    exec (.crcCompute buf) s =
      .next { s with responses := s.responses ++ [{ status := .ok, value := crc32 buf }] }

/-- spec/40_crc.md R62: CRC_INIT, CRC_UPDATEs and CRC_FINAL return the one-shot CRC of the updates' bytes, whatever other
commands stand between them; the only commands that write `crc_acc` are CRC_INIT and CRC_UPDATE, and reset. That reset has
written 0xFFFFFFFF already in the step that asserts it is the model's choice, R113 fixing it at release
(notes/assumptions/6.md). -/
def Obligations.IncrementalCrcAgreesWithOneShot : Prop :=
  (∀ (s : State) (is : List Instr),
    (∀ i ∈ is, i ≠ .crcInit) →
      ∃ t before,
        execAll ([.crcInit] ++ is ++ [.crcFinal]) s = .next t
          ∧ t.responses = before ++
              [{ status := .ok
                 value := crc32 (is.filterMap fun i => match i with | .crcUpdate b => some b | _ => none) }])
  ∧ (∀ (i : Instr) (s t : State),
    exec i s = .next t → i ≠ .crcInit → (∀ b, i ≠ .crcUpdate b) → t.crcAcc = s.crcAcc)
  ∧ (∀ s : State, ∃ t, step { s with schedule := .assertReset :: s.schedule } = .next t
      ∧ t.crcAcc = 0xFFFFFFFF#32)

/-- spec/70_reset_and_hazards.md R118, spec/10_state.md R16: updates straight after reset, without CRC_INIT, give the standard CRC. -/
def Obligations.CrcAfterResetNeedsNoInit : Prop :=
  ∀ bs : List Byte,
    ∃ t before,
      execAll (bs.map Instr.crcUpdate ++ [.crcFinal]) State.reset = .next t
        ∧ t.responses = before ++ [{ status := .ok, value := crc32 bs }]

/-- spec/40_crc.md R65: flipping any one bit of any byte string changes its CRC. -/
def Obligations.CrcDetectsSingleBitFlip : Prop :=
  ∀ (bs : List Byte) (i j : Nat),
    i < bs.length → j < 8 → crc32 (bs.set i (byteAt bs i ^^^ (1#8 <<< j))) ≠ crc32 bs

/-- spec/10_state.md R16: only CRC_INIT, CRC_UPDATE and reset write `crc_acc`, in any step. That reset's write comes in the step
that asserts it, and not by its release, is the model's choice (notes/assumptions/6.md). -/
def Obligations.AccumulatorWritersAreInitUpdateReset : Prop :=
  ∀ s t : State,
    step s = .next t →
      t.crcAcc = s.crcAcc
      ∨ (t.crcAcc = 0xFFFFFFFF#32 ∧ s.schedule.head? = some .assertReset)
      ∨ (t.crcAcc = 0xFFFFFFFF#32 ∧ ∃ r s₀, Accepts s r s₀ ∧ r.op = 0x01#8)
      ∨ (∃ r s₀, Accepts s r s₀ ∧ r.op = 0x02#8 ∧ t.crcAcc = crcStep s.crcAcc r.byte)

/-- spec/40_crc.md R64: the codec's and the synchronizer's commands and byte steps do the same for every value of `crc_acc`,
and leave it as it is. -/
def Obligations.CodecAndSynchronizerIgnoreAccumulator : Prop :=
  (∀ (i : Instr) (s : State) (c : Word),
    (i = .syncRead ∨ i = .syncAbort ∨ (∃ buf, i = .decode buf)
      ∨ ∃ v t f a q p, i = .encode v t f a q p) →
      ∃ t, exec i s = .next t ∧ t.crcAcc = s.crcAcc ∧ exec i { s with crcAcc := c } = .next { t with crcAcc := c })
  ∧ (∀ (s s₀ : State) (c : Word),
    ByteTurn s s₀ →
      ∃ t, step s = .next t ∧ t.crcAcc = s.crcAcc ∧ step { s with crcAcc := c } = .next { t with crcAcc := c })

/-! ### Codec -/

/-- spec/41_codec.md R67: the six checks in their order, only the first failure reported, and nothing else changed. -/
def Obligations.EncodeReportsFirstInvalidField : Prop :=
  ∀ (s : State) (v t f a : Half) (q : Word) (p : List Byte),
    let answers : Byte → Prop := fun info =>
      exec (.encode v t f a q p) s =
        .next { s with responses := s.responses ++ [{ status := .validation, info := info }] }
    let typeOk : Prop := ∃ x ∈ s.cfg.types.toList, x.toNat = t.toNat
    (v.toNat > 255 → answers 0x00#8)
    ∧ (v.toNat ≤ 255 → ¬ typeOk → answers 0x01#8)
    ∧ (v.toNat ≤ 255 → typeOk → f.toNat > 255 → answers 0x02#8)
    ∧ (v.toNat ≤ 255 → typeOk → f.toNat ≤ 255 → a.toNat > 255 → answers 0x03#8)
    ∧ (v.toNat ≤ 255 → typeOk → f.toNat ≤ 255 → a.toNat ≤ 255 → q.toNat > 65535 → answers 0x04#8)
    ∧ (v.toNat ≤ 255 → typeOk → f.toNat ≤ 255 → a.toNat ≤ 255 → q.toNat ≤ 65535 → p.length > 255 →
        answers 0x05#8)

/-- spec/41_codec.md R68: the wire frame of operands that pass every check, and nothing else changed. -/
def Obligations.EncodeProducesWireFrame : Prop :=
  ∀ (s : State) (v t f a : Half) (q : Word) (p : List Byte),
    EncodeOk s.cfg v t f a q p →
      let body : List Byte :=
        [v.setWidth 8, t.setWidth 8, f.setWidth 8, a.setWidth 8]
          ++ be16 (q.setWidth 16) ++ [BitVec.ofNat 8 p.length] ++ p
      exec (.encode v t f a q p) s =
        .next { s with
          responses := s.responses ++
            [{ status := .ok
               outLen := BitVec.ofNat 16 (13 + p.length)
               out := [s.cfg.marker0, s.cfg.marker1] ++ body ++ be32 (crc32 body) }] }

/-- spec/41_codec.md R69, R70, and the offsets of spec/30_encoding.md R40: a frame ENCODE answers OK with holds its operands'
low bytes at their places, the length byte is the payload's length, and the trailer is the CRC of the checked region. -/
def Obligations.EncodedFrameLayout : Prop :=
  ∀ (s u : State) (v t f a : Half) (q : Word) (p : List Byte) (r : Response),
    exec (.encode v t f a q p) s = .next u → u.responses = s.responses ++ [r] → r.status = .ok →
      r.out.length = 13 + p.length ∧ r.outLen.toNat = 13 + p.length ∧ p.length ≤ 255
        ∧ byteAt r.out 0 = s.cfg.marker0 ∧ byteAt r.out 1 = s.cfg.marker1
        ∧ (byteAt r.out 2).toNat = v.toNat ∧ (byteAt r.out 3).toNat = t.toNat
        ∧ (byteAt r.out 4).toNat = f.toNat ∧ (byteAt r.out 5).toNat = a.toNat
        ∧ (byteAt r.out 6).toNat * 256 + (byteAt r.out 7).toNat = q.toNat
        ∧ (byteAt r.out 8).toNat = p.length
        ∧ (r.out.drop 9).take p.length = p
        ∧ r.out.drop (9 + p.length) = be32 (crc32 ((r.out.drop 2).take (7 + p.length)))

/-- spec/41_codec.md R71: the checks of DECODE in their order, only the first failure reported, CHECKSUM last with the
computed and the received CRC, and nothing else changed. The OVERSIZE clause is kept; no input meets it (R75). -/
def Obligations.DecodeReportsFirstFailure : Prop :=
  ∀ (s : State) (r : List Byte),
    let answers : Response → Prop := fun x =>
      exec (.decode r) s = .next { s with responses := s.responses ++ [x] }
    let L := lengthByte r
    let typeOk : Prop := byteAt r 3 ∈ s.cfg.types.toList
    let received : Word :=
      (byteAt r (9 + L) ++ byteAt r (10 + L) : Half) ++ (byteAt r (11 + L) ++ byteAt r (12 + L) : Half)
    (r.length < 13 → answers { status := .framing, info := 0x00#8 })
    ∧ (13 ≤ r.length → r.take 2 ≠ [s.cfg.marker0, s.cfg.marker1] →
        answers { status := .framing, info := 0x01#8 })
    ∧ (13 ≤ r.length → r.take 2 = [s.cfg.marker0, s.cfg.marker1] → 13 + L ≠ r.length →
        answers { status := .framing, info := 0x02#8 })
    ∧ (13 ≤ r.length → r.take 2 = [s.cfg.marker0, s.cfg.marker1] → 13 + L = r.length → L > 255 →
        answers { status := .framing, info := 0x03#8 })
    ∧ (13 ≤ r.length → r.take 2 = [s.cfg.marker0, s.cfg.marker1] → 13 + L = r.length → L ≤ 255 → ¬ typeOk →
        answers { status := .framing, info := 0x04#8 })
    ∧ (FramingOk s.cfg r → crc32 (checkedRegion r) ≠ received →
        answers { status := .checksum, value := crc32 (checkedRegion r), value2 := received })

/-- spec/41_codec.md R72: a frame that passes every check is answered with its fields, the received checksum among them; the
version and flags bytes are returned unchecked and unchanged (R74). On any other input the response is an error without a
frame, which carries the computed and the received CRC on CHECKSUM. DECODE changes nothing else. -/
def Obligations.DecodeReturnsFrameRecord : Prop :=
  ∀ (s : State) (r : List Byte),
    (FrameOk s.cfg r →
      exec (.decode r) s =
        .next { s with responses := s.responses ++ [{ status := .ok, frame := some (fieldsOf r) }] })
    ∧ (¬ FrameOk s.cfg r →
      ∃ x : Response,
        exec (.decode r) s = .next { s with responses := s.responses ++ [x] }
          ∧ x.frame = none ∧ (x.status = .framing ∨ x.status = .checksum)
          ∧ (x.status = .checksum →
              x.value = crc32 (checkedRegion r) ∧ be32 x.value2 = r.drop (9 + lengthByte r)))

/-- spec/41_codec.md R75: OVERSIZE is never reported. -/
def Obligations.OversizeNeverReported : Prop :=
  ∀ (s t : State) (r : List Byte) (x : Response),
    exec (.decode r) s = .next t → t.responses = s.responses ++ [x] →
      ¬ (x.status = .framing ∧ x.info = 0x03#8)

/-- spec/41_codec.md R76: DECODE of what ENCODE produces returns the operands and the frame's CRC, and ENCODE succeeds
exactly when every operand is in range. -/
def Obligations.DecodeOfEncodedFrameReturnsOperands : Prop :=
  ∀ (s : State) (v t f a : Half) (q : Word) (p : List Byte),
    (EncodeOk s.cfg v t f a q p →
      ∃ out,
        exec (.encode v t f a q p) s =
          .next { s with
            responses := s.responses ++ [{ status := .ok, outLen := BitVec.ofNat 16 out.length, out := out }] }
        ∧ exec (.decode out) s =
          .next { s with
            responses := s.responses ++
              [{ status := .ok
                 frame := some
                   { version := v.setWidth 8, messageType := t.setWidth 8, flags := f.setWidth 8
                     address := a.setWidth 8, sequence := q.setWidth 16, payload := p
                     checksum := crc32
                       ([v.setWidth 8, t.setWidth 8, f.setWidth 8, a.setWidth 8]
                         ++ be16 (q.setWidth 16) ++ [BitVec.ofNat 8 p.length] ++ p) } }] })
    ∧ (¬ EncodeOk s.cfg v t f a q p →
      ∃ info,
        exec (.encode v t f a q p) s =
          .next { s with responses := s.responses ++ [{ status := .validation, info := info }] })

/-- The other direction of the round trip: a wire frame DECODE accepts is, byte for byte, what ENCODE produces of the
fields DECODE returns. -/
def Obligations.EncodeOfDecodedFrameIsIdentity : Prop :=
  ∀ (s : State) (r : List Byte) (f : FrameRecord),
    decodeFrame s.cfg r = .ok f →
      exec (.encode (f.version.setWidth 16) (f.messageType.setWidth 16) (f.flags.setWidth 16)
          (f.address.setWidth 16) (f.sequence.setWidth 32) f.payload) s =
        .next { s with
          responses := s.responses ++ [{ status := .ok, outLen := BitVec.ofNat 16 r.length, out := r }] }

/-- spec/41_codec.md R77: one flipped bit of an encoded frame, by the byte it stands in. -/
def Obligations.SingleBitCorruptionIsDetected : Prop :=
  ∀ (s : State) (v t f a : Half) (q : Word) (p out : List Byte) (i j : Nat),
    encodeFrame s.cfg v t f a q p = .ok out → i < out.length → j < 8 →
      let bad := out.set i (byteAt out i ^^^ (1#8 <<< j))
      let answers : Response → Prop := fun x =>
        exec (.decode bad) s = .next { s with responses := s.responses ++ [x] }
      (i = 0 ∨ i = 1 → answers { status := .framing, info := 0x01#8 })
      ∧ (i = 8 → answers { status := .framing, info := 0x02#8 })
      ∧ (i = 3 → byteAt bad 3 ∉ s.cfg.types.toList → answers { status := .framing, info := 0x04#8 })
      ∧ ((i = 3 ∧ byteAt bad 3 ∈ s.cfg.types.toList) ∨ i = 2 ∨ (4 ≤ i ∧ i ≤ 7) ∨ 9 ≤ i →
          ∃ computed received, computed ≠ received
            ∧ answers { status := .checksum, value := computed, value2 := received })

/-- spec/41_codec.md R78, with R71's order: 0 to 12 bytes give SHORT; more than 268 bytes give a framing error, LENGTH
where the marker is right and MARKER where it is not (the model's reading, notes/assumptions/9.md). -/
def Obligations.DecodeOfImpossibleLengthIsFramingError : Prop :=
  ∀ (s : State) (r : List Byte),
    let answers : Byte → Prop := fun info =>
      exec (.decode r) s = .next { s with responses := s.responses ++ [{ status := .framing, info := info }] }
    (r.length ≤ 12 → answers 0x00#8)
    ∧ (268 < r.length → r.take 2 = [s.cfg.marker0, s.cfg.marker1] → answers 0x02#8)
    ∧ (268 < r.length → r.take 2 ≠ [s.cfg.marker0, s.cfg.marker1] → answers 0x01#8)

/-! ### Synchronizer -/

/-- spec/42_sync.md R79: SYNC_READ is accepted only when no read is pending, and starts scanning with no response yet. -/
def Obligations.SyncReadStartsScanning : Prop :=
  (∀ (s s₀ : State) (r : Request), Accepts s r s₀ → r.op = 0x20#8 → s.pending = .none)
  ∧ ∀ s : State,
    exec .syncRead s =
      .next { s with pending := .syncRead, syncPhase := .scan, syncBuf := [], syncNeed := 0 }

/-- spec/42_sync.md R90: with a read pending, ABORTED and then OK, and the read is over; with none, OK and nothing else. A
busy port accepts it. -/
def Obligations.SyncAbortEndsPendingRead : Prop :=
  (∀ s : State,
    (s.pending = .syncRead →
      exec .syncAbort s =
        .next { s with
          responses := s.responses ++ [{ status := .aborted }, { status := .ok }]
          syncBuf := [], syncNeed := 0, syncPhase := .idle, pending := .none })
    ∧ (s.pending = .none →
      exec .syncAbort s = .next { s with responses := s.responses ++ [{ status := .ok }] }))
  ∧ (∀ (s s₁ : State) (a : Request),
    s.resetAsserted = false → blockTurn s = some (true, s₁) → s.pending = .syncRead → s.port = [a] →
    a.op = 0x21#8 → Accepts s a { s₁ with port := [] })

/-- spec/42_sync.md R80, R81: the byte steps while scanning. In `SCAN` a `MARKER0` begins a candidate and any other byte is
dropped. In `MARK1` the byte after a `MARKER0` is consumed and, where it is not `MARKER1`, examined again as a scanning byte. -/
def Obligations.ScanningByteSteps : Prop :=
  ∀ (s s₀ : State) (b : Byte) (q : List Byte),
    ByteTurn s s₀ → s.srcQueue = b :: q →
      (s.syncPhase = .scan →
        (b = s.cfg.marker0 →
          step s = .next { s₀ with srcQueue := q, syncBuf := [b], syncPhase := .mark1 })
        ∧ (b ≠ s.cfg.marker0 → step s = .next { s₀ with srcQueue := q }))
      ∧ (s.syncPhase = .mark1 →
        (b = s.cfg.marker1 →
          step s = .next { s₀ with srcQueue := q, syncBuf := s.syncBuf ++ [b], syncNeed := 7, syncPhase := .hdr })
        ∧ (b = s.cfg.marker0 → step s = .next { s₀ with srcQueue := q, syncBuf := [b] })
        ∧ (b ≠ s.cfg.marker1 → b ≠ s.cfg.marker0 →
          step s = .next { s₀ with srcQueue := q, syncBuf := [], syncPhase := .scan }))

/-- spec/42_sync.md R82, R83, R84, R85: the byte steps while framing. In `HDR` the last header byte gives the count `L + 4`. In
`BODY` a complete candidate that decodes ends the read with its frame, and one that does not is discarded and scanning
resumes, with no response. A discard event stands in the trace that R88 allows a model to keep (notes/assumptions/8.md). -/
def Obligations.FramingByteSteps : Prop :=
  ∀ (s s₀ : State) (b : Byte) (q : List Byte),
    ByteTurn s s₀ → s.srcQueue = b :: q →
      (s.syncPhase = .hdr →
        (s.syncNeed = 1 →
          step s = .next { s₀ with
            srcQueue := q, syncBuf := s.syncBuf ++ [b]
            syncNeed := lengthByte (s.syncBuf ++ [b]) + 4, syncPhase := .body })
        ∧ (1 < s.syncNeed →
          step s = .next { s₀ with srcQueue := q, syncBuf := s.syncBuf ++ [b], syncNeed := s.syncNeed - 1 }))
      ∧ (s.syncPhase = .body →
        (1 < s.syncNeed →
          step s = .next { s₀ with srcQueue := q, syncBuf := s.syncBuf ++ [b], syncNeed := s.syncNeed - 1 })
        ∧ (s.syncNeed = 1 → ∀ f, decodeFrame s.cfg (s.syncBuf ++ [b]) = .ok f →
          step s = .next { s₀ with
            srcQueue := q, responses := s₀.responses ++ [{ status := .ok, frame := some f }]
            syncBuf := [], syncNeed := 0, syncPhase := .idle, pending := .none })
        ∧ (s.syncNeed = 1 → ∀ e, decodeFrame s.cfg (s.syncBuf ++ [b]) = .error e →
          step s = .next { s₀ with
            srcQueue := q, discards := s₀.discards ++ [e]
            syncBuf := [], syncNeed := 0, syncPhase := .scan }))

/-- spec/42_sync.md R86: end of stream in any phase but `IDLE`; a source that is closed and empty stays so, so that a later
read meets end of stream too. -/
def Obligations.EndOfStreamEndsRead : Prop :=
  (∀ s s₀ : State,
    ByteTurn s s₀ → s.syncPhase ≠ .idle → s.srcQueue = [] → s.srcClosed = true →
      step s = .next { s₀ with
        responses := s₀.responses ++ [{ status := .streamClosed }]
        syncBuf := [], syncNeed := 0, syncPhase := .idle, pending := .none })
  ∧ (∀ s t : State,
    s.srcQueue = [] → s.srcClosed = true → step s = .next t → t.srcQueue = [] ∧ t.srcClosed = true)

/-- spec/42_sync.md R87: while the source is open and empty the read holds, and the block's step changes nothing; a read that
does not go on is one with an open and empty source and no SYNC_ABORT at the port. Reset, too, ends the hold. That the read
is over already in the step that asserts reset (R113 fixes the values at release), and that a hold is a step that changes
nothing, are the model's choices (notes/assumptions/6.md, notes/assumptions/11.md). That a SYNC_ABORT ends the hold also from
behind held commands, which it overtakes, is the model's reading (notes/assumptions/5.md). -/
def Obligations.OpenEmptySourceHolds : Prop :=
  (∀ (s s₁ : State) (c : Bool),
    StateInv s → s.resetAsserted = false → blockTurn s = some (c, s₁) → s.syncPhase ≠ .idle →
      (step s = .next s₁ ↔
        s.srcQueue = [] ∧ s.srcClosed = false ∧ ∀ r ∈ s.port, r.op ≠ 0x21#8))
  ∧ (∀ (s : State) (rest : List Move),
    s.schedule = .assertReset :: rest → ∃ t, step s = .next t ∧ t.syncPhase = .idle ∧ t.pending = .none)

/-- spec/42_sync.md R89: a pending read ends with exactly one of OK with a frame, STREAM_CLOSED or ABORTED (the last with
SYNC_ABORT's own OK behind it), or with none by reset; while it stays pending the block's steps add no response. The
exception for reset is spec/70_reset_and_hazards.md R115's, and that the read is over and the channel empty already in the
step that asserts reset is the model's choice (notes/assumptions/6.md). -/
def Obligations.ReadGetsOneResponse : Prop :=
  ∀ s t : State,
    s.pending = .syncRead → step s = .next t →
      (t.pending = .none →
        (s.schedule.head? = some .assertReset ∧ t.responses = [])
        ∨ (∃ f, t.responses = s.responses ++ [{ status := .ok, frame := some f }])
        ∨ t.responses = s.responses ++ [{ status := .streamClosed }]
        ∨ t.responses = s.responses ++ [{ status := .aborted }, { status := .ok }])
      ∧ (t.pending = .syncRead → (∃ c s₁, blockTurn s = some (c, s₁)) → t.responses = s.responses)

/-- spec/42_sync.md R91: inside the synchronizer a candidate can fail only with FRAMING(TYPE) or CHECKSUM. The discards are
observed in the trace that R88 allows a model to keep (notes/assumptions/8.md). -/
def Obligations.DiscardsAreTypeOrChecksum : Prop :=
  ∀ (s t : State) (e : FrameError),
    StateInv s → step s = .next t → t.discards = s.discards ++ [e] →
      e = .framing .type ∨ ∃ computed received, computed ≠ received ∧ e = .checksum computed received

/-- spec/42_sync.md R93: a read left to the block alone, from its start, is `sync_run` of the queued bytes: the same outcome
after the same number of byte steps, with the same discards and nothing else changed. The model's choices in it: with its
schedule exhausted the block moves, a busy port passes over held commands, and a hold is a step that changes nothing
(notes/assumptions/4.md, notes/assumptions/5.md, notes/assumptions/11.md). -/
def Obligations.ReadRefinesSyncRun : Prop :=
  ∀ s : State,
    StateInv s → s.resetAsserted = false → s.schedule = [] → s.pending = .syncRead → s.syncPhase = .scan →
    (∀ r ∈ s.port, r.op ≠ 0x21#8) →
      let R := syncRun s.cfg s.srcQueue s.srcClosed
      (∀ f, R.outcome = .frame f →
        runSteps R.consumed s = .next { s with
          srcQueue := s.srcQueue.drop R.consumed
          responses := s.responses ++ [{ status := .ok, frame := some f }]
          discards := s.discards ++ R.discards
          syncBuf := [], syncNeed := 0, syncPhase := .idle, pending := .none })
      ∧ (R.outcome = .streamClosed →
        R.consumed = s.srcQueue.length ∧ s.srcClosed = true
        ∧ runSteps (R.consumed + 1) s = .next { s with
          srcQueue := []
          responses := s.responses ++ [{ status := .streamClosed }]
          discards := s.discards ++ R.discards
          syncBuf := [], syncNeed := 0, syncPhase := .idle, pending := .none })
      ∧ (R.outcome = .hold →
        R.consumed = s.srcQueue.length ∧ s.srcClosed = false
        ∧ ∃ t, runSteps R.consumed s = .next t ∧ step t = .next t ∧ t.pending = .syncRead ∧ t.srcQueue = []
            ∧ t.responses = s.responses ∧ t.discards = s.discards ++ R.discards)

/-- spec/42_sync.md R94: a SYNC_READ on a frame behind garbage without the marker pair returns that frame, after one step for its
acceptance and one for each byte of the garbage and the frame, and exactly those bytes are consumed. The count of steps is of
the run with the schedule exhausted, in which the block moves at each step and takes the oldest command first: the model's
(notes/assumptions/4.md, notes/assumptions/5.md). -/
def Obligations.FrameBehindGarbageIsFound : Prop :=
  ∀ (s : State) (r : Request) (held : List Request) (g F rest : List Byte) (f : FrameRecord),
    StateInv s → s.resetAsserted = false → s.schedule = [] → s.pending = .none →
    s.port = r :: held → r.op = 0x20#8 → (∀ x ∈ held, x.op ≠ 0x21#8) →
    s.srcQueue = g ++ F ++ rest → (∀ x y : List Byte, g ≠ x ++ [s.cfg.marker0, s.cfg.marker1] ++ y) →
    decodeFrame s.cfg F = .ok f →
      runSteps (1 + g.length + F.length) s =
        .next { s with
          port := held, srcQueue := rest, responses := s.responses ++ [{ status := .ok, frame := some f }] }

/-- spec/42_sync.md R92, R85: a candidate that fails to decode costs exactly its `13 + L` bytes, and the read goes on as a
read of the bytes behind it. -/
def Obligations.DiscardResumesBehindCandidate : Prop :=
  ∀ (cfg : Config) (C rest : List Byte) (e : FrameError) (closed : Bool),
    C.take 2 = [cfg.marker0, cfg.marker1] → C.length = 13 + lengthByte C → decodeFrame cfg C = .error e →
      let R := syncRun cfg rest closed
      syncRun cfg (C ++ rest) closed = ⟨R.outcome, C.length + R.consumed, e :: R.discards⟩

/-- spec/42_sync.md R95: two SYNC_READs on a good frame, a corrupted one whose length byte is right, and a good one return the
two good ones; the corrupted one is discarded in the second read, and nothing behind the second frame is consumed. The count
of steps is of the run with the schedule exhausted, in which the block moves at each step and takes the oldest command first:
the model's (notes/assumptions/4.md, notes/assumptions/5.md). -/
def Obligations.CorruptedFrameBetweenTwoIsSkipped : Prop :=
  ∀ (s : State) (r₁ r₂ : Request) (held : List Request) (A B C rest : List Byte) (fA fB : FrameRecord) (e : FrameError),
    StateInv s → s.resetAsserted = false → s.schedule = [] → s.pending = .none →
    s.port = r₁ :: r₂ :: held → r₁.op = 0x20#8 → r₂.op = 0x20#8 → (∀ x ∈ held, x.op ≠ 0x21#8) →
    s.srcQueue = A ++ C ++ B ++ rest → decodeFrame s.cfg A = .ok fA → decodeFrame s.cfg B = .ok fB →
    C.take 2 = [s.cfg.marker0, s.cfg.marker1] → C.length = 13 + lengthByte C → decodeFrame s.cfg C = .error e →
      runSteps (2 + A.length + C.length + B.length) s =
        .next { s with
          port := held, srcQueue := rest
          responses := s.responses ++ [{ status := .ok, frame := some fA }, { status := .ok, frame := some fB }]
          discards := s.discards ++ [e] }

/-- Soundness of a read (spec/42_sync.md R84, R92): a frame a read returns is DECODE's output for the last bytes it
consumed. -/
def Obligations.ReturnedFrameIsDecodedFromSource : Prop :=
  ∀ (cfg : Config) (q : List Byte) (closed : Bool) (f : FrameRecord),
    (syncRun cfg q closed).outcome = .frame f →
      (syncRun cfg q closed).consumed ≤ q.length
      ∧ ∃ k, k + 13 + f.payload.length = (syncRun cfg q closed).consumed
          ∧ decodeFrame cfg ((q.take (syncRun cfg q closed).consumed).drop k) = .ok f

/-- spec/42_sync.md R97: with a closed source and `n` queued bytes, a read the block is left alone with ends after at most
`n + 1` steps, with a frame or STREAM_CLOSED. That with its schedule exhausted the block moves, and passes over held commands, is
the model's (notes/assumptions/4.md, notes/assumptions/5.md). -/
def Obligations.ReadOfClosedSourceEnds : Prop :=
  ∀ s : State,
    StateInv s → s.resetAsserted = false → s.schedule = [] → s.pending = .syncRead → s.srcClosed = true →
    (∀ r ∈ s.port, r.op ≠ 0x21#8) →
      ∃ k t x, k ≤ s.srcQueue.length + 1 ∧ runSteps k s = .next t ∧ t.pending = .none
        ∧ t.responses = s.responses ++ [x] ∧ (x.status = .ok ∨ x.status = .streamClosed)

/-- spec/20_memory.md R32: how the bytes of the source are split into deliveries, and when they and the commands come between the
block's steps, is invisible. Once the block has had steps enough for every byte and command, the state is the one a single
early delivery gives, both for a source that stays open and for one closed after its last byte. No SYNC_ABORT races the bytes
here (R120). The schedule, that the oldest command goes first, and that a bundle stays as it was issued are the model's
(notes/assumptions/4.md, notes/assumptions/5.md, notes/assumptions/15.md). -/
def Obligations.DeliverySplitIsInvisible : Prop :=
  ∀ (s : State) (moves : List Move) (n : Nat),
    StateInv s → s.resetAsserted = false → s.srcClosed = false → (∀ r ∈ s.port, r.op ≠ 0x21#8) →
    (∀ m ∈ moves, (∃ bs, m = .deliver bs) ∨ (∃ r, m = .issue r ∧ r.op ≠ 0x21#8) ∨ ∃ c, m = .block c) →
    let bytes := s.srcQueue ++ (moves.map fun m => match m with | .deliver bs => bs | _ => []).flatten
    let commands := s.port ++ moves.filterMap fun m => match m with | .issue r => some r | _ => none
    bytes.length + 2 * commands.length + 1 ≤ n →
      runSteps (moves.length + n) { s with schedule := moves }
        = runSteps n { s with srcQueue := bytes, port := commands, schedule := [] }
      ∧ runSteps (moves.length + 1 + n) { s with schedule := moves ++ [.close] }
        = runSteps n { s with srcQueue := bytes, srcClosed := true, port := commands, schedule := [] }

/-! ### Endless runs and weak fairness -/

/-- spec/70_reset_and_hazards.md R125: in a weakly fair run without further reset the oldest command at a port that is not busy
is accepted at last, and so is the oldest SYNC_ABORT at any port; a command accepted other than SYNC_READ responds in that
step. The model's choices in it: the oldest command and the oldest abort go first, fairness is asked of each kind of block
step, the channel is unbounded, and a bundle at the port is not changed or withdrawn before it is accepted
(notes/assumptions/5.md, notes/assumptions/11.md, notes/assumptions/15.md). -/
def Obligations.FairRunsServeCommands : Prop :=
  ∀ (σ : Nat → State) (n : Nat),
    IsRun σ → WeaklyFair σ → StateInv (σ 0) → (∀ m, n ≤ m → (σ m).resetAsserted = false) →
      (∀ r rest, (σ n).pending = .none → (σ n).port = r :: rest →
        ∃ m s₀, n ≤ m ∧ Accepts (σ m) r s₀)
      ∧ (∀ before a after, (σ n).port = before ++ a :: after → (∀ r ∈ before, r.op ≠ 0x21#8) → a.op = 0x21#8 →
        ∃ m s₀, n ≤ m ∧ Accepts (σ m) a s₀)
      ∧ (∀ m r s₀, Accepts (σ m) r s₀ → r.op ≠ 0x20#8 →
        ∃ new, new ≠ [] ∧ (σ (m + 1)).responses = (σ m).responses ++ new)

/-- spec/70_reset_and_hazards.md R125, spec/42_sync.md R97: in a weakly fair run without further reset a pending read ends, with
OK, STREAM_CLOSED or ABORTED, if the source closes, if a SYNC_ABORT is at the port, or if the source holds a decodable
candidate at a point the read's scan comes to; in the last case, unless a SYNC_ABORT is accepted, with that candidate's
frame. The model's choices in it: an abort is taken before the commands held in front of it, fairness is asked of each kind
of block step, and an abort at the port is not withdrawn before it is accepted (notes/assumptions/5.md,
notes/assumptions/11.md, notes/assumptions/15.md). -/
def Obligations.FairReadsEnd : Prop :=
  ∀ (σ : Nat → State) (n : Nat),
    IsRun σ → WeaklyFair σ → StateInv (σ 0) → (∀ m, n ≤ m → (σ m).resetAsserted = false) →
    (σ n).pending = .syncRead →
      let endsWith : Nat → List Response → Prop := fun k new =>
        n ≤ k ∧ (σ k).pending = .syncRead ∧ (σ (k + 1)).pending = .none
          ∧ (σ (k + 1)).responses = (σ k).responses ++ new
      ((∃ m, n ≤ m ∧ ((σ m).srcClosed = true ∨ (∃ a ∈ (σ m).port, a.op = 0x21#8)
          ∨ ∃ f, (readFrom (σ m)).outcome = .frame f)) →
        ∃ k x new, endsWith k (x :: new) ∧ (x.status = .ok ∨ x.status = .streamClosed ∨ x.status = .aborted))
      ∧ (∀ f, (readFrom (σ n)).outcome = .frame f → (∀ m r s₀, n ≤ m → Accepts (σ m) r s₀ → r.op ≠ 0x21#8) →
        ∃ k, endsWith k [{ status := .ok, frame := some f }])

/-- spec/70_reset_and_hazards.md R125: nothing is assumed of the host and the environment. Every endless sequence of moves is a
run; from every state there is a weakly fair run; and in a weakly fair run a read can wait for ever (R122), with no byte ever
coming, or with bytes coming and being discarded for ever. The schedule the moves stand on, that a hold is a step that
changes nothing, and fairness for each kind of block step are the model's (notes/assumptions/4.md, notes/assumptions/11.md). -/
def Obligations.FairRunsCanWaitForEver : Prop :=
  (∀ (s : State) (μ : Nat → Move), s.schedule = [μ 0] →
    ∃ σ, IsRun σ ∧ σ 0 = s ∧ ∀ n, (σ n).schedule = [μ n])
  ∧ (∀ s : State, ∃ σ, IsRun σ ∧ WeaklyFair σ ∧ σ 0 = s)
  ∧ (∀ s : State,
    StateInv s → s.pending = .syncRead → s.srcQueue = [] → s.srcClosed = false → (∀ r ∈ s.port, r.op ≠ 0x21#8) →
    s.schedule = [] →
      ∃ σ, IsRun σ ∧ WeaklyFair σ ∧ σ 0 = s
        ∧ ∀ n, (σ n).pending = .syncRead ∧ (σ n).responses = s.responses ∧ (σ n).srcQueue = [])
  ∧ ∀ (s : State) (b : Byte),
    StateInv s → s.resetAsserted = false → s.syncPhase = .scan → s.srcQueue = [] → s.srcClosed = false →
    (∀ r ∈ s.port, r.op ≠ 0x21#8) → b ≠ s.cfg.marker0 → s.schedule = [.deliver [b], .block true] →
      ∃ σ, IsRun σ ∧ WeaklyFair σ ∧ σ 0 = s
        ∧ ∀ n, (σ n).pending = .syncRead ∧ (σ n).responses = s.responses ∧ ∃ m, n ≤ m ∧ SyncTurn (σ m)

/-! ### Reset, configuration, the other agents -/

/-- spec/70_reset_and_hazards.md R114: the reset value of every element of the block. -/
def Obligations.ResetStateValues : Prop :=
  State.reset.crcAcc = 0xFFFFFFFF#32 ∧ State.reset.syncPhase = .idle ∧ State.reset.syncBuf = []
    ∧ State.reset.syncNeed = 0 ∧ State.reset.pending = .none ∧ State.reset.busy = false
    ∧ State.reset.responses = []

/-- spec/70_reset_and_hazards.md R115, R116, R117: reset ends a pending read with no response, empties the response channel, and
leaves the byte source and the configuration. The model's own in it: that the elements hold their reset values from assertion
on (notes/assumptions/6.md), that the commands held at the port stay there (notes/assumptions/5.md) as they were issued
(notes/assumptions/15.md), and that the discard trace stays (notes/assumptions/8.md). -/
def Obligations.AssertedResetClearsBlock : Prop :=
  ∀ (s : State) (rest : List Move),
    s.schedule = .assertReset :: rest →
      step s = .next { s with
        crcAcc := 0xFFFFFFFF#32, syncPhase := .idle, syncBuf := [], syncNeed := 0
        pending := .none, responses := [], resetAsserted := true, schedule := rest }

/-- spec/70_reset_and_hazards.md R113, R114: the host may assert reset in any state; while it is asserted the block takes no step
and accepts no command; when it is released every element of the block holds its reset value, and the byte source and the
configuration are as they were. The premise StateInv of the last clause holds the reset values from assertion on, which is
how the model gives them at release (notes/assumptions/6.md). -/
def Obligations.ResetHoldsTheBlock : Prop :=
  (∀ s : State, ∃ t, step { s with schedule := .assertReset :: s.schedule } = .next t ∧ t.resetAsserted = true
    ∧ t.srcQueue = s.srcQueue ∧ t.srcClosed = s.srcClosed ∧ t.cfg = s.cfg)
  ∧ (∀ (s s₁ : State) (c : Bool),
    s.resetAsserted = true → blockTurn s = some (c, s₁) → step s = .next s₁)
  ∧ (∀ (s : State) (rest : List Move),
    StateInv s → s.resetAsserted = true → s.schedule = .releaseReset :: rest →
      ∃ t, step s = .next t ∧ t.resetAsserted = false ∧ t.crcAcc = 0xFFFFFFFF#32 ∧ t.syncPhase = .idle
        ∧ t.syncBuf = [] ∧ t.syncNeed = 0 ∧ t.pending = .none ∧ t.busy = false ∧ t.responses = []
        ∧ t.srcQueue = s.srcQueue ∧ t.srcClosed = s.srcClosed ∧ t.cfg = s.cfg)

/-- spec/70_reset_and_hazards.md R117, spec/10_state.md R24: no step changes the configuration, which is a legal one. The model
carries the configuration as a field (notes/assumptions/1.md). -/
def Obligations.ConfigurationNeverChanges : Prop :=
  (∀ s t : State, step s = .next t → t.cfg = s.cfg)
  ∧ ∀ cfg : Config,
      cfg.marker0 ≠ cfg.marker1 ∧ cfg.types.toList.length = 9 ∧ cfg.types.toList.Nodup
        ∧ 0x10#8 ∈ cfg.types.toList ∧ [cfg.flagAckReq, cfg.flagResponse, cfg.flagError].Nodup

/-- spec/10_state.md R23, spec/20_memory.md R30, R35: the source never reopens; a step leaves its bytes, or consumes exactly the
oldest one in a byte step of a read, or appends bytes the environment delivers to an open source. The schedule, and that a
closed source takes no bytes from a delivery, are the model's (notes/assumptions/4.md, notes/assumptions/10.md). -/
def Obligations.SourceIsConsumedInOrder : Prop :=
  ∀ s t : State,
    step s = .next t →
      (s.srcClosed = true → t.srcClosed = true)
      ∧ (t.srcQueue = s.srcQueue
        ∨ (s.syncPhase ≠ .idle ∧ (∃ s₀, ByteTurn s s₀) ∧ ∃ b, s.srcQueue = b :: t.srcQueue)
        ∨ (s.srcClosed = false ∧ ∃ bs, s.schedule.head? = some (.deliver bs) ∧ t.srcQueue = s.srcQueue ++ bs))

/-- The moves of the host and the environment (spec/10_state.md R22, R23; the schedule is the model's, notes/assumptions/4.md).
That commands queue at the port as they are issued, and that a delivery to a closed source and a take from an empty channel
do nothing, are the model's (notes/assumptions/4.md, notes/assumptions/5.md, notes/assumptions/10.md,
notes/assumptions/15.md). -/
def Obligations.EnvironmentMovesAct : Prop :=
  ∀ (s : State) (rest : List Move),
    (∀ bs, s.schedule = .deliver bs :: rest → s.srcClosed = false →
      step s = .next { s with srcQueue := s.srcQueue ++ bs, schedule := rest })
    ∧ (∀ bs, s.schedule = .deliver bs :: rest → s.srcClosed = true → step s = .next { s with schedule := rest })
    ∧ (s.schedule = .close :: rest → step s = .next { s with srcClosed := true, schedule := rest })
    ∧ (∀ r, s.schedule = .issue r :: rest → step s = .next { s with port := s.port ++ [r], schedule := rest })
    ∧ (∀ x xs, s.schedule = .take :: rest → s.responses = x :: xs →
      step s = .next { s with responses := xs, schedule := rest })
    ∧ (s.schedule = .take :: rest → s.responses = [] → step s = .next { s with schedule := rest })

/-- spec/42_sync.md R88: no rule reads the discard events; a run with another trace is the same run but for the trace,
which the model keeps and reset leaves (notes/assumptions/8.md). -/
def Obligations.DiscardTraceIsNeverRead : Prop :=
  ∀ (s t : State) (d : List FrameError),
    step s = .next t → ∃ new, t.discards = s.discards ++ new ∧ step { s with discards := d } = .next { t with discards := d ++ new }

/-! ### Invariants -/

/-- The reset state meets the invariant. -/
def Obligations.ResetStateMeetsInvariant : Prop := StateInv State.reset

/-- Derived from spec/10_state.md R20 (the synchronizer's invariant), R21 (`pending` agrees with the phase) and
spec/70_reset_and_hazards.md R113: every step keeps them, and the reset values while reset is asserted. R113 fixes those values
only at release; that they hold from assertion on is the model's choice (notes/assumptions/6.md). -/
def Obligations.StepKeepsInvariant : Prop :=
  ∀ s t : State, StateInv s → step s = .next t → StateInv t

/-- spec/30_encoding.md R53, R54: every step keeps every response in the channel one the block may produce: its codes in
their rows, OVERSIZE never, the fields it does not write 0 or empty, its frame's type a member and payload in range. -/
def Obligations.StepKeepsResponsesLegal : Prop :=
  ∀ s t : State,
    (∀ r ∈ s.responses, r.Legal s.cfg) → step s = .next t → ∀ r ∈ t.responses, r.Legal t.cfg
end

