-- ==== Sys2Proof/Laws/State.lean ====
section
/-! SUPPORT. One lemma per field per update of the state, each true by rfl, so that no later proof unfolds a record update. -/

namespace Sys2Proof.Machine

variable (s : State)

@[simp] theorem State.respondOk_eq : s.respondOk = s.respond { status := .ok } := rfl

@[simp] theorem State.respondFrame_eq (f : FrameRecord) :
    s.respondFrame f = s.respond { status := .ok, frame := some f } := rfl

@[simp] theorem State.raiseError_eq (e : ErrorKind) : s.raiseError e = s.respond e.response := rfl

/-! ### `respond` -/

@[simp] theorem State.respond_cfg (r : Response) : (s.respond r).cfg = s.cfg := rfl
@[simp] theorem State.respond_crcAcc (r : Response) : (s.respond r).crcAcc = s.crcAcc := rfl
@[simp] theorem State.respond_syncPhase (r : Response) : (s.respond r).syncPhase = s.syncPhase := rfl
@[simp] theorem State.respond_syncBuf (r : Response) : (s.respond r).syncBuf = s.syncBuf := rfl
@[simp] theorem State.respond_syncNeed (r : Response) : (s.respond r).syncNeed = s.syncNeed := rfl
@[simp] theorem State.respond_pending (r : Response) : (s.respond r).pending = s.pending := rfl
@[simp] theorem State.respond_responses (r : Response) : (s.respond r).responses = s.responses ++ [r] := rfl
@[simp] theorem State.respond_srcQueue (r : Response) : (s.respond r).srcQueue = s.srcQueue := rfl
@[simp] theorem State.respond_srcClosed (r : Response) : (s.respond r).srcClosed = s.srcClosed := rfl
@[simp] theorem State.respond_port (r : Response) : (s.respond r).port = s.port := rfl
@[simp] theorem State.respond_resetAsserted (r : Response) : (s.respond r).resetAsserted = s.resetAsserted := rfl
@[simp] theorem State.respond_discards (r : Response) : (s.respond r).discards = s.discards := rfl
@[simp] theorem State.respond_schedule (r : Response) : (s.respond r).schedule = s.schedule := rfl

/-! ### `syncTo` -/

@[simp] theorem State.syncTo_cfg (p : SyncPhase) : (s.syncTo p).cfg = s.cfg := rfl
@[simp] theorem State.syncTo_crcAcc (p : SyncPhase) : (s.syncTo p).crcAcc = s.crcAcc := rfl
@[simp] theorem State.syncTo_syncPhase (p : SyncPhase) : (s.syncTo p).syncPhase = p := rfl
@[simp] theorem State.syncTo_syncBuf (p : SyncPhase) : (s.syncTo p).syncBuf = [] := rfl
@[simp] theorem State.syncTo_syncNeed (p : SyncPhase) : (s.syncTo p).syncNeed = 0 := rfl
@[simp] theorem State.syncTo_pending (p : SyncPhase) : (s.syncTo p).pending = s.pending := rfl
@[simp] theorem State.syncTo_responses (p : SyncPhase) : (s.syncTo p).responses = s.responses := rfl
@[simp] theorem State.syncTo_srcQueue (p : SyncPhase) : (s.syncTo p).srcQueue = s.srcQueue := rfl
@[simp] theorem State.syncTo_srcClosed (p : SyncPhase) : (s.syncTo p).srcClosed = s.srcClosed := rfl
@[simp] theorem State.syncTo_port (p : SyncPhase) : (s.syncTo p).port = s.port := rfl
@[simp] theorem State.syncTo_resetAsserted (p : SyncPhase) : (s.syncTo p).resetAsserted = s.resetAsserted := rfl
@[simp] theorem State.syncTo_discards (p : SyncPhase) : (s.syncTo p).discards = s.discards := rfl
@[simp] theorem State.syncTo_schedule (p : SyncPhase) : (s.syncTo p).schedule = s.schedule := rfl

/-! ### `endRead` -/

@[simp] theorem State.endRead_cfg : (s.endRead).cfg = s.cfg := rfl
@[simp] theorem State.endRead_crcAcc : (s.endRead).crcAcc = s.crcAcc := rfl
@[simp] theorem State.endRead_syncPhase : (s.endRead).syncPhase = .idle := rfl
@[simp] theorem State.endRead_syncBuf : (s.endRead).syncBuf = [] := rfl
@[simp] theorem State.endRead_syncNeed : (s.endRead).syncNeed = 0 := rfl
@[simp] theorem State.endRead_pending : (s.endRead).pending = .none := rfl
@[simp] theorem State.endRead_responses : (s.endRead).responses = s.responses := rfl
@[simp] theorem State.endRead_srcQueue : (s.endRead).srcQueue = s.srcQueue := rfl
@[simp] theorem State.endRead_srcClosed : (s.endRead).srcClosed = s.srcClosed := rfl
@[simp] theorem State.endRead_port : (s.endRead).port = s.port := rfl
@[simp] theorem State.endRead_resetAsserted : (s.endRead).resetAsserted = s.resetAsserted := rfl
@[simp] theorem State.endRead_discards : (s.endRead).discards = s.discards := rfl
@[simp] theorem State.endRead_schedule : (s.endRead).schedule = s.schedule := rfl

/-! ### `emitDiscard` -/

@[simp] theorem State.emitDiscard_cfg (e : FrameError) : (s.emitDiscard e).cfg = s.cfg := rfl
@[simp] theorem State.emitDiscard_crcAcc (e : FrameError) : (s.emitDiscard e).crcAcc = s.crcAcc := rfl
@[simp] theorem State.emitDiscard_syncPhase (e : FrameError) : (s.emitDiscard e).syncPhase = s.syncPhase := rfl
@[simp] theorem State.emitDiscard_syncBuf (e : FrameError) : (s.emitDiscard e).syncBuf = s.syncBuf := rfl
@[simp] theorem State.emitDiscard_syncNeed (e : FrameError) : (s.emitDiscard e).syncNeed = s.syncNeed := rfl
@[simp] theorem State.emitDiscard_pending (e : FrameError) : (s.emitDiscard e).pending = s.pending := rfl
@[simp] theorem State.emitDiscard_responses (e : FrameError) : (s.emitDiscard e).responses = s.responses := rfl
@[simp] theorem State.emitDiscard_srcQueue (e : FrameError) : (s.emitDiscard e).srcQueue = s.srcQueue := rfl
@[simp] theorem State.emitDiscard_srcClosed (e : FrameError) : (s.emitDiscard e).srcClosed = s.srcClosed := rfl
@[simp] theorem State.emitDiscard_port (e : FrameError) : (s.emitDiscard e).port = s.port := rfl
@[simp] theorem State.emitDiscard_resetAsserted (e : FrameError) : (s.emitDiscard e).resetAsserted = s.resetAsserted := rfl
@[simp] theorem State.emitDiscard_discards (e : FrameError) : (s.emitDiscard e).discards = s.discards ++ [e] := rfl
@[simp] theorem State.emitDiscard_schedule (e : FrameError) : (s.emitDiscard e).schedule = s.schedule := rfl

/-! ### `assertReset` -/

@[simp] theorem State.assertReset_cfg : (s.assertReset).cfg = s.cfg := rfl
@[simp] theorem State.assertReset_crcAcc : (s.assertReset).crcAcc = crcInitValue := rfl
@[simp] theorem State.assertReset_syncPhase : (s.assertReset).syncPhase = .idle := rfl
@[simp] theorem State.assertReset_syncBuf : (s.assertReset).syncBuf = [] := rfl
@[simp] theorem State.assertReset_syncNeed : (s.assertReset).syncNeed = 0 := rfl
@[simp] theorem State.assertReset_pending : (s.assertReset).pending = .none := rfl
@[simp] theorem State.assertReset_responses : (s.assertReset).responses = [] := rfl
@[simp] theorem State.assertReset_srcQueue : (s.assertReset).srcQueue = s.srcQueue := rfl
@[simp] theorem State.assertReset_srcClosed : (s.assertReset).srcClosed = s.srcClosed := rfl
@[simp] theorem State.assertReset_port : (s.assertReset).port = s.port := rfl
@[simp] theorem State.assertReset_resetAsserted : (s.assertReset).resetAsserted = true := rfl
@[simp] theorem State.assertReset_discards : (s.assertReset).discards = s.discards := rfl
@[simp] theorem State.assertReset_schedule : (s.assertReset).schedule = s.schedule := rfl

/-! ### `releaseReset` -/

@[simp] theorem State.releaseReset_cfg : (s.releaseReset).cfg = s.cfg := rfl
@[simp] theorem State.releaseReset_crcAcc : (s.releaseReset).crcAcc = s.crcAcc := rfl
@[simp] theorem State.releaseReset_syncPhase : (s.releaseReset).syncPhase = s.syncPhase := rfl
@[simp] theorem State.releaseReset_syncBuf : (s.releaseReset).syncBuf = s.syncBuf := rfl
@[simp] theorem State.releaseReset_syncNeed : (s.releaseReset).syncNeed = s.syncNeed := rfl
@[simp] theorem State.releaseReset_pending : (s.releaseReset).pending = s.pending := rfl
@[simp] theorem State.releaseReset_responses : (s.releaseReset).responses = s.responses := rfl
@[simp] theorem State.releaseReset_srcQueue : (s.releaseReset).srcQueue = s.srcQueue := rfl
@[simp] theorem State.releaseReset_srcClosed : (s.releaseReset).srcClosed = s.srcClosed := rfl
@[simp] theorem State.releaseReset_port : (s.releaseReset).port = s.port := rfl
@[simp] theorem State.releaseReset_resetAsserted : (s.releaseReset).resetAsserted = false := rfl
@[simp] theorem State.releaseReset_discards : (s.releaseReset).discards = s.discards := rfl
@[simp] theorem State.releaseReset_schedule : (s.releaseReset).schedule = s.schedule := rfl

/-! ### `deliver` -/

@[simp] theorem State.deliver_closed (bs : List Byte) (h : s.srcClosed = true) : s.deliver bs = s := by
  simp [State.deliver, h]

@[simp] theorem State.deliver_open (bs : List Byte) (h : s.srcClosed = false) :
    s.deliver bs = { s with srcQueue := s.srcQueue ++ bs } := by
  simp [State.deliver, h]

/-- The `busy` flag says exactly that a read is pending (spec/10_state.md R21). -/
theorem State.busy_iff : s.busy = true ↔ s.pending = .syncRead := by
  cases h : s.pending <;> simp [State.busy, h]

theorem State.not_busy_iff : s.busy = false ↔ s.pending = .none := by
  cases h : s.pending <;> simp [State.busy, h]

end Sys2Proof.Machine
end

