-- ==== Sys2Proof/Laws/Ops.lean ====
section
/-! SUPPORT. One spec lemma per shared operation: everything it can do, said once, for proofs to cite. -/

namespace Sys2Proof.Machine

/-! ### Decoding a bundle -/

/-- The decoder's nine outcomes, each with the `op` that gives it. -/
theorem decodeRequest_cases (r : Request) :
    (r.op = 0x01#8 ∧ decodeRequest r = .ok .crcInit)
    ∨ (r.op = 0x02#8 ∧ decodeRequest r = .ok (.crcUpdate r.byte))
    ∨ (r.op = 0x03#8 ∧ decodeRequest r = .ok .crcFinal)
    ∨ (r.op = 0x04#8 ∧ decodeRequest r = .ok (.crcCompute r.buf))
    ∨ (r.op = 0x10#8 ∧
        decodeRequest r = .ok (.encode r.version r.mtype r.flags r.address r.sequence r.buf))
    ∨ (r.op = 0x11#8 ∧ decodeRequest r = .ok (.decode r.buf))
    ∨ (r.op = 0x20#8 ∧ decodeRequest r = .ok .syncRead)
    ∨ (r.op = 0x21#8 ∧ decodeRequest r = .ok .syncAbort)
    ∨ (legalOp r.op = false ∧ decodeRequest r = .error (.illegalOp r.op)) := by
  unfold decodeRequest
  repeat' split
  all_goals simp_all [legalOp]

/-- A bundle is an abort exactly when it decodes to SYNC_ABORT. -/
theorem isAbort_iff_decodes (r : Request) : r.isAbort = true ↔ decodeRequest r = .ok .syncAbort := by
  have h := decodeRequest_cases r
  rcases h with ⟨h, e⟩ | ⟨h, e⟩ | ⟨h, e⟩ | ⟨h, e⟩ | ⟨h, e⟩ | ⟨h, e⟩ | ⟨h, e⟩ | ⟨h, e⟩ | ⟨h, e⟩
  all_goals simp_all [Request.isAbort]
  intro h'
  simp [h', legalOp] at h

/-! ### The codec -/

/-- ENCODE's checks all pass exactly when each operand is in range (spec/41_codec.md R67). -/
theorem encodeInvalid_eq_none (cfg : Config) (v t f a : Half) (q : Word) (p : List Byte) :
    encodeInvalid cfg v t f a q p = none ↔
      v.toNat ≤ 255 ∧ isMsgTypeOperand cfg t = true ∧ f.toNat ≤ 255 ∧ a.toNat ≤ 255 ∧ q.toNat ≤ 65535
        ∧ p.length ≤ 255 := by
  unfold encodeInvalid
  repeat' split
  all_goals simp_all

/-- The 16-bit operand is a member exactly when it is the value of one of the nine bytes. -/
theorem isMsgTypeOperand_iff (cfg : Config) (t : Half) :
    isMsgTypeOperand cfg t = true ↔ ∃ x ∈ cfg.types.toList, x.toNat = t.toNat := by
  simp only [isMsgTypeOperand, isMsgType, Bool.and_eq_true, decide_eq_true_eq, List.contains_iff_mem]
  constructor
  · rintro ⟨h, hm⟩
    exact ⟨_, hm, by simp [BitVec.toNat_setWidth]; omega⟩
  · rintro ⟨x, hm, hx⟩
    have hlt := x.isLt
    have hx' : t.setWidth 8 = x := by
      apply BitVec.eq_of_toNat_eq
      rw [BitVec.toNat_setWidth, ← hx]
      exact Nat.mod_eq_of_lt hlt
    exact ⟨by omega, hx' ▸ hm⟩

/-- Every outcome of `decode_frame`, each with the checks before it passed (spec/41_codec.md R71, R72). OVERSIZE is not among
them (R75). -/
theorem decodeFrame_cases (cfg : Config) (r : List Byte) :
    (r.length < 13 ∧ decodeFrame cfg r = .error (.framing .short))
    ∨ (13 ≤ r.length ∧ (byteAt r 0 ≠ cfg.marker0 ∨ byteAt r 1 ≠ cfg.marker1)
        ∧ decodeFrame cfg r = .error (.framing .marker))
    ∨ (13 ≤ r.length ∧ byteAt r 0 = cfg.marker0 ∧ byteAt r 1 = cfg.marker1
        ∧ 13 + (byteAt r 8).toNat ≠ r.length ∧ decodeFrame cfg r = .error (.framing .length))
    ∨ (13 + (byteAt r 8).toNat = r.length ∧ byteAt r 0 = cfg.marker0 ∧ byteAt r 1 = cfg.marker1
        ∧ isMsgType cfg (byteAt r 3) = false ∧ decodeFrame cfg r = .error (.framing .type))
    ∨ (13 + (byteAt r 8).toNat = r.length ∧ byteAt r 0 = cfg.marker0 ∧ byteAt r 1 = cfg.marker1
        ∧ isMsgType cfg (byteAt r 3) = true
        ∧ crc32 (slice r 2 (9 + (byteAt r 8).toNat)) ≠ receivedCrc r (byteAt r 8).toNat
        ∧ decodeFrame cfg r =
            .error (.checksum (crc32 (slice r 2 (9 + (byteAt r 8).toNat))) (receivedCrc r (byteAt r 8).toNat)))
    ∨ (13 + (byteAt r 8).toNat = r.length ∧ byteAt r 0 = cfg.marker0 ∧ byteAt r 1 = cfg.marker1
        ∧ isMsgType cfg (byteAt r 3) = true
        ∧ crc32 (slice r 2 (9 + (byteAt r 8).toNat)) = receivedCrc r (byteAt r 8).toNat
        ∧ decodeFrame cfg r = .ok (frameRecord r)) := by
  have hL : (byteAt r 8).toNat < 256 := (byteAt r 8).isLt
  simp only [decodeFrame, minFrame, maxPayload]
  by_cases h1 : r.length < 13
  · simp [h1]
  by_cases h2 : byteAt r 0 ≠ cfg.marker0 ∨ byteAt r 1 ≠ cfg.marker1
  · simp only [if_neg h1, if_pos h2]
    exact .inr (.inl ⟨by omega, h2, trivial⟩)
  obtain ⟨hm0, hm1⟩ : byteAt r 0 = cfg.marker0 ∧ byteAt r 1 = cfg.marker1 := by simpa using h2
  by_cases h3 : 13 + (byteAt r 8).toNat ≠ r.length
  · simp only [if_neg h1, if_neg h2]
    exact .inr (.inr (.inl ⟨by omega, hm0, hm1, h3, if_pos h3⟩))
  have h3' : 13 + (byteAt r 8).toNat = r.length := by simpa using h3
  have h4 : ¬ (byteAt r 8).toNat > 255 := by omega
  by_cases h5 : isMsgType cfg (byteAt r 3) = false
  · simp only [if_neg h1, if_neg h2, if_neg h3, if_neg h4, if_pos h5]
    exact .inr (.inr (.inr (.inl ⟨h3', hm0, hm1, h5, trivial⟩)))
  have h5' : isMsgType cfg (byteAt r 3) = true := by simpa using h5
  by_cases h6 : crc32 (slice r 2 (9 + (byteAt r 8).toNat)) ≠ receivedCrc r (byteAt r 8).toNat
  · simp only [if_neg h1, if_neg h2, if_neg h3, if_neg h4, if_neg h5, if_pos h6]
    exact .inr (.inr (.inr (.inr (.inl ⟨h3', hm0, hm1, h5', h6, trivial⟩))))
  · simp only [if_neg h1, if_neg h2, if_neg h3, if_neg h4, if_neg h5, if_neg h6]
    exact .inr (.inr (.inr (.inr (.inr ⟨h3', hm0, hm1, h5', by simpa using h6, trivial⟩))))

/-- What a frame that decodes has passed, and the record it gives. -/
theorem decodeFrame_ok {cfg : Config} {r : List Byte} {f : FrameRecord} (h : decodeFrame cfg r = .ok f) :
    13 + (byteAt r 8).toNat = r.length ∧ byteAt r 0 = cfg.marker0 ∧ byteAt r 1 = cfg.marker1
      ∧ isMsgType cfg (byteAt r 3) = true
      ∧ crc32 (slice r 2 (9 + (byteAt r 8).toNat)) = receivedCrc r (byteAt r 8).toNat
      ∧ f = frameRecord r := by
  rcases decodeFrame_cases cfg r with ⟨_, e⟩ | ⟨_, _, e⟩ | ⟨_, _, _, _, e⟩ | ⟨_, _, _, _, e⟩
    | ⟨_, _, _, _, _, e⟩ | ⟨hl, h0, h1, ht, hc, e⟩
  all_goals rw [h] at e
  case inr.inr.inr.inr.inr => exact ⟨hl, h0, h1, ht, hc, by simpa using e⟩
  all_goals exact absurd e (by simp)

/-! ### The byte source and the synchronizer -/

/-- `SrcNext()`'s three outcomes (spec/20_memory.md R31). -/
theorem srcNext_cases (s : State) :
    (∃ b q, s.srcQueue = b :: q ∧ s.srcNext = .byte b { s with srcQueue := q })
    ∨ (s.srcQueue = [] ∧ s.srcClosed = true ∧ s.srcNext = .eos)
    ∨ (s.srcQueue = [] ∧ s.srcClosed = false ∧ s.srcNext = .hold) := by
  unfold State.srcNext
  cases hq : s.srcQueue with
  | cons b q => exact .inl ⟨b, q, rfl, rfl⟩
  | nil => cases hc : s.srcClosed <;> simp

/-- The synchronizer's move is a byte step, the end of stream, or none (spec/42_sync.md R80 to R87). -/
theorem syncMove_cases (s : State) :
    (s.syncPhase ≠ .idle ∧ ∃ b q, s.srcQueue = b :: q ∧ s.syncMove = some (syncByte b { s with srcQueue := q }))
    ∨ (s.syncPhase ≠ .idle ∧ s.srcQueue = [] ∧ s.srcClosed = true ∧ s.syncMove = some (syncEos s))
    ∨ (s.syncPhase ≠ .idle ∧ s.srcQueue = [] ∧ s.srcClosed = false ∧ s.syncMove = none)
    ∨ (s.syncPhase = .idle ∧ s.syncMove = none) := by
  rcases srcNext_cases s with ⟨b, q, hq, hn⟩ | ⟨hq, hc, hn⟩ | ⟨hq, hc, hn⟩
  all_goals cases hp : s.syncPhase <;> simp_all [State.syncMove]

/-! The byte step of each phase, as its own equation. -/

theorem syncByte_scan {s : State} (b : Byte) (h : s.syncPhase = .scan) : syncByte b s = scanByte b s := by
  simp [syncByte, h]

theorem syncByte_mark1 {s : State} (b : Byte) (h : s.syncPhase = .mark1) : syncByte b s = mark1Byte b s := by
  simp [syncByte, h]

theorem syncByte_hdr {s : State} (b : Byte) (h : s.syncPhase = .hdr) : syncByte b s = hdrByte b s := by
  simp [syncByte, h]

theorem syncByte_body {s : State} (b : Byte) (h : s.syncPhase = .body) : syncByte b s = bodyByte b s := by
  simp [syncByte, h]

/-- The end of a candidate: R84 or R85. -/
theorem finishCandidate_cases (c : List Byte) (s : State) :
    (∃ f, decodeFrame s.cfg c = .ok f
        ∧ finishCandidate c s = (s.respond { status := .ok, frame := some f }).endRead)
    ∨ (∃ e, decodeFrame s.cfg c = .error e ∧ finishCandidate c s = (s.emitDiscard e).syncTo .scan) := by
  unfold finishCandidate
  cases decodeFrame s.cfg c <;> simp

/-- What no byte step changes. -/
theorem syncByte_frame (b : Byte) (s : State) :
    (syncByte b s).cfg = s.cfg ∧ (syncByte b s).crcAcc = s.crcAcc ∧ (syncByte b s).srcQueue = s.srcQueue
      ∧ (syncByte b s).srcClosed = s.srcClosed ∧ (syncByte b s).port = s.port
      ∧ (syncByte b s).resetAsserted = s.resetAsserted ∧ (syncByte b s).schedule = s.schedule := by
  unfold syncByte scanByte mark1Byte hdrByte bodyByte
  cases s.syncPhase
  case body =>
    rcases finishCandidate_cases (s.syncBuf ++ [b]) s with ⟨f, -, h⟩ | ⟨e, -, h⟩ <;>
      simp only [h] <;> split <;> simp
  all_goals dsimp only
  all_goals (repeat' split) <;> simp

/-! ### The port -/

/-- The oldest abort of a list of issued commands, with what stands before and behind it. -/
theorem firstAbort_eq_some {l : List Request} {a : Request} {rest : List Request} :
    firstAbort l = some (a, rest) ↔
      ∃ before after, l = before ++ a :: after ∧ rest = before ++ after ∧ a.isAbort = true
        ∧ ∀ r ∈ before, r.isAbort = false := by
  induction l generalizing rest with
  | nil => simp [firstAbort]
  | cons r rs ih =>
    unfold firstAbort
    by_cases hr : r.isAbort = true
    · simp only [hr, if_true, Option.some.injEq, Prod.mk.injEq]
      constructor
      · rintro ⟨rfl, rfl⟩
        exact ⟨[], rs, by simp [hr]⟩
      · rintro ⟨before, after, hl, rfl, ha, hb⟩
        cases before with
        | nil => simpa using hl
        | cons x xs =>
          have : r = x := by simpa using (List.cons.inj hl).1
          have hx := hb x (by simp)
          simp_all
    · have hr' : r.isAbort = false := by simpa using hr
      simp only [hr', Bool.false_eq_true, if_false]
      constructor
      · intro h
        cases hf : firstAbort rs with
        | none => simp [hf] at h
        | some p =>
          obtain ⟨a', rest'⟩ := p
          simp only [hf, Option.some.injEq, Prod.mk.injEq] at h
          obtain ⟨rfl, rfl⟩ := h
          obtain ⟨before, after, rfl, rfl, ha, hb⟩ := ih.mp hf
          exact ⟨r :: before, after, by simp, by simp, ha, by simpa [hr'] using hb⟩
      · rintro ⟨before, after, hl, rfl, ha, hb⟩
        cases before with
        | nil =>
          have : r = a := by simpa using (List.cons.inj hl).1
          simp_all
        | cons x xs =>
          obtain ⟨rfl, hrs⟩ := List.cons.inj hl
          have := (ih (rest := xs ++ after)).mpr ⟨xs, after, hrs, rfl, ha, fun y hy => hb y (by simp [hy])⟩
          simp [this]

/-- No abort among the issued commands. -/
theorem firstAbort_eq_none {l : List Request} : firstAbort l = none ↔ ∀ r ∈ l, r.isAbort = false := by
  induction l with
  | nil => simp [firstAbort]
  | cons r rs ih =>
    unfold firstAbort
    by_cases hr : r.isAbort = true
    · simp [hr]
    · have hr' : r.isAbort = false := by simpa using hr
      cases hf : firstAbort rs <;> simp_all

/-- The block's move: reset holds it, it accepts a command, it takes a synchronizer step, or it holds. -/
theorem blockMove_cases (c : Bool) (s : State) :
    (s.resetAsserted = true ∧ blockMove c s = .next s)
    ∨ (s.resetAsserted = false ∧ ∃ r rest, s.acceptable = some (r, rest) ∧ (s.syncMove = none ∨ c = true)
        ∧ blockMove c s = acceptCommand r { s with port := rest })
    ∨ (s.resetAsserted = false ∧ ∃ s', s.syncMove = some s' ∧ (s.acceptable = none ∨ c = false)
        ∧ blockMove c s = .next s')
    ∨ (s.resetAsserted = false ∧ s.acceptable = none ∧ s.syncMove = none ∧ blockMove c s = .next s) := by
  unfold blockMove
  cases hr : s.resetAsserted with
  | true => simp
  | false =>
    cases ha : s.acceptable with
    | none => cases hm : s.syncMove <;> simp
    | some p =>
      obtain ⟨r, rest⟩ := p
      cases hm : s.syncMove <;> cases c <;> simp

/-! ### The step -/

/-- The block's turn, and the step it takes. -/
theorem step_of_blockTurn {s s₁ : State} {c : Bool} (h : blockTurn s = some (c, s₁)) : step s = blockMove c s₁ := by
  unfold blockTurn at h
  simp only [step, nextMove]
  split at h
  · simp_all
  · next hs =>
      rw [hs]
      simp_all [doMove]
  · simp at h

/-- Every field but the schedule is as it was when the block's turn comes. -/
theorem blockTurn_eq {s s₁ : State} {c : Bool} (h : blockTurn s = some (c, s₁)) :
    ∃ rest, s₁ = { s with schedule := rest } := by
  unfold blockTurn at h
  split at h
  · simp only [Option.some.injEq, Prod.mk.injEq] at h
    exact ⟨s.schedule, by rw [← h.2]⟩
  · simp only [Option.some.injEq, Prod.mk.injEq] at h
    exact ⟨_, h.2.symm⟩
  · simp at h

/-- Every step: the block's, or one of the other agents' moves with exactly this effect. -/
theorem step_cases (s : State) :
    (∃ c s₁, blockTurn s = some (c, s₁) ∧ step s = blockMove c s₁)
    ∨ (∃ r rest, s.schedule = .issue r :: rest ∧ step s = .next { s with port := s.port ++ [r], schedule := rest })
    ∨ (∃ rest, s.schedule = .take :: rest
        ∧ step s = .next { s with responses := s.responses.tail, schedule := rest })
    ∨ (∃ bs rest, s.schedule = .deliver bs :: rest
        ∧ step s = .next ({ s with schedule := rest }.deliver bs))
    ∨ (∃ rest, s.schedule = .close :: rest ∧ step s = .next { s with srcClosed := true, schedule := rest })
    ∨ (∃ rest, s.schedule = .assertReset :: rest
        ∧ step s = .next ({ s with schedule := rest }.assertReset))
    ∨ (∃ rest, s.schedule = .releaseReset :: rest
        ∧ step s = .next ({ s with schedule := rest }.releaseReset)) := by
  cases hs : s.schedule with
  | nil => exact .inl ⟨true, s, by simp [blockTurn, hs], by simp [step, nextMove, hs]⟩
  | cons m rest =>
    cases m with
    | block c =>
      exact .inl ⟨c, { s with schedule := rest }, by simp [blockTurn, hs], by simp [step, nextMove, hs, doMove]⟩
    | _ => simp [step, nextMove, hs, doMove]

/-- `runSteps` in two parts. -/
theorem runSteps_add (m n : Nat) (s : State) :
    runSteps (m + n) s =
      match runSteps m s with
      | .next t => runSteps n t
      | .fault f => .fault f
      | .refused r => .refused r := by
  induction m generalizing s with
  | zero => simp [runSteps]
  | succ m ih =>
    rw [Nat.succ_add]
    simp only [runSteps]
    cases step s with
    | next t => exact ih t
    | fault f => rfl
    | refused r => rfl

end Sys2Proof.Machine
end

