-- ==== Sys2Proof/Laws/PerInstr.lean ====
section
/-! SUPPORT. Statements made once per command: family EncodedOpcode, the `op` a command's bundle carries. -/

namespace Sys2Proof.Laws.EncodedOpcode

/-- The bundle of a command carries one of the eight codes of spec/30_encoding.md R50, and it is the code a busy port accepts
exactly for SYNC_ABORT. -/
def Statement (i : Instr) : Prop :=
  legalOp (encodeRequest i).op = true ∧ ((encodeRequest i).isAbort = true ↔ i = .syncAbort)

theorem crcInit : Statement .crcInit := by
  simp [Statement, encodeRequest, Request.isAbort, legalOp]
theorem crcUpdate (byte : Byte) : Statement (.crcUpdate byte) := by
  simp [Statement, encodeRequest, Request.isAbort, legalOp]
theorem crcFinal : Statement .crcFinal := by
  simp [Statement, encodeRequest, Request.isAbort, legalOp]
theorem crcCompute (buf : List Byte) : Statement (.crcCompute buf) := by
  simp [Statement, encodeRequest, Request.withBuffer, Request.isAbort, legalOp]
theorem encode (v t f a : Half) (q : Word) (buf : List Byte) : Statement (.encode v t f a q buf) := by
  simp [Statement, encodeRequest, Request.withBuffer, Request.isAbort, legalOp]
theorem decode (buf : List Byte) : Statement (.decode buf) := by
  simp [Statement, encodeRequest, Request.withBuffer, Request.isAbort, legalOp]
theorem syncRead : Statement .syncRead := by
  simp [Statement, encodeRequest, Request.isAbort, legalOp]
theorem syncAbort : Statement .syncAbort := by
  simp [Statement, encodeRequest, Request.isAbort, legalOp]

end Sys2Proof.Laws.EncodedOpcode
end

