-- ==== Sys2Proof/Laws/Runs.lean ====
section
/-! SUPPORT. What the block's turns do, and how endless runs and weakly fair ones are made (spec/70_reset_and_hazards.md R125). -/

namespace Sys2Proof.Machine

/-! ### Further moves on the schedule -/

section
variable (s : State) (more : List Move)

@[simp] theorem State.schedules_cfg : (s.schedules more).cfg = s.cfg := rfl
@[simp] theorem State.schedules_crcAcc : (s.schedules more).crcAcc = s.crcAcc := rfl
@[simp] theorem State.schedules_syncPhase : (s.schedules more).syncPhase = s.syncPhase := rfl
@[simp] theorem State.schedules_syncBuf : (s.schedules more).syncBuf = s.syncBuf := rfl
@[simp] theorem State.schedules_syncNeed : (s.schedules more).syncNeed = s.syncNeed := rfl
@[simp] theorem State.schedules_pending : (s.schedules more).pending = s.pending := rfl
@[simp] theorem State.schedules_responses : (s.schedules more).responses = s.responses := rfl
@[simp] theorem State.schedules_srcQueue : (s.schedules more).srcQueue = s.srcQueue := rfl
@[simp] theorem State.schedules_srcClosed : (s.schedules more).srcClosed = s.srcClosed := rfl
@[simp] theorem State.schedules_port : (s.schedules more).port = s.port := rfl
@[simp] theorem State.schedules_resetAsserted : (s.schedules more).resetAsserted = s.resetAsserted := rfl
@[simp] theorem State.schedules_discards : (s.schedules more).discards = s.discards := rfl
@[simp] theorem State.schedules_schedule : (s.schedules more).schedule = s.schedule ++ more := rfl
@[simp] theorem State.schedules_nil : s.schedules [] = s := by simp [State.schedules]

@[simp] theorem State.schedules_stateInv : StateInv (s.schedules more) ↔ StateInv s := Iff.rfl

end

/-! ### What the block can do does not depend on the schedule -/

theorem acceptable_schedule (s : State) (l : List Move) :
    ({ s with schedule := l } : State).acceptable = s.acceptable := rfl

theorem syncMove_schedule (s : State) (l : List Move) :
    ({ s with schedule := l } : State).syncMove = none ↔ s.syncMove = none := by
  cases hp : s.syncPhase <;> cases hq : s.srcQueue <;> cases hc : s.srcClosed <;>
    simp [State.syncMove, State.srcNext, hp, hq, hc]

/-! ### The two kinds of block step -/

theorem blockMove_of_acceptable {c : Bool} {s : State} {r : Request} {rest : List Request}
    (hr : s.resetAsserted = false) (ha : s.acceptable = some (r, rest)) (hs : s.syncMove = none ∨ c = true) :
    blockMove c s = acceptCommand r { s with port := rest } := by
  rcases hs with hs | rfl
  · simp [blockMove, hr, ha, hs]
  · cases hs : s.syncMove <;> simp [blockMove, hr, ha, hs]

theorem blockMove_of_syncMove {c : Bool} {s s' : State}
    (hr : s.resetAsserted = false) (hs : s.syncMove = some s') (ha : s.acceptable = none ∨ c = false) :
    blockMove c s = .next s' := by
  rcases ha with ha | rfl
  · simp [blockMove, hr, ha, hs]
  · cases ha : s.acceptable <;> simp [blockMove, hr, ha, hs]

/-- A step that accepts a command runs it. -/
theorem step_of_accepts {s s₀ : State} {r : Request} (h : Accepts s r s₀) : step s = acceptCommand r s₀ := by
  obtain ⟨hr, c, s₁, rest, ht, ha, hm, rfl⟩ := h
  obtain ⟨l, rfl⟩ := blockTurn_eq ht
  rw [step_of_blockTurn ht]
  exact blockMove_of_acceptable hr ha (hm.imp_left (syncMove_schedule s l).mpr)

/-- A synchronizer step takes the synchronizer's move. -/
theorem step_of_syncTurn {s : State} (h : SyncTurn s) :
    ∃ c s₁ s', blockTurn s = some (c, s₁) ∧ s₁.syncMove = some s' ∧ step s = .next s' := by
  obtain ⟨hr, c, s₁, ht, hs, ha⟩ := h
  obtain ⟨l, rfl⟩ := blockTurn_eq ht
  obtain ⟨s', e⟩ := Option.ne_none_iff_exists'.mp fun e => hs ((syncMove_schedule s l).mp e)
  exact ⟨c, _, s', ht, e, (step_of_blockTurn ht).trans (blockMove_of_syncMove hr e ha)⟩

/-! ### Making runs -/

/-- A sequence of steps is a run in which no agent adds a move. -/
theorem isRun_of_steps {σ : Nat → State} (h : ∀ n, step (σ n) = .next (σ (n + 1))) : IsRun σ :=
  fun n => ⟨σ (n + 1), [], h n, by simp⟩

/-- The state a run goes to, in one step and the moves added to it. -/
theorem IsRun.step_next {σ : Nat → State} (h : IsRun σ) {n : Nat} {t : State} (ht : step (σ n) = .next t) :
    ∃ more, σ (n + 1) = t.schedules more := by
  obtain ⟨t', more, e, hn⟩ := h n
  obtain rfl : t' = t := by simpa [e] using ht
  exact ⟨more, hn⟩

/-- An action that is never enabled from some point on is treated fairly. -/
theorem eventuallyTaken_of_disabled {enabled taken : State → Prop} {σ : Nat → State} (N : Nat)
    (h : ∀ n, N ≤ n → ¬ enabled (σ n)) : EventuallyTaken enabled taken σ :=
  fun n he => absurd (he (max n N) (le_max_left _ _)) (h _ (le_max_right _ _))

/-- An action taken again and again is treated fairly. -/
theorem eventuallyTaken_of_taken {enabled taken : State → Prop} {σ : Nat → State}
    (h : ∀ n, ∃ m, n ≤ m ∧ taken (σ m)) : EventuallyTaken enabled taken σ :=
  fun n _ => h n

/-- A state sequence in which the block has nothing to do from some point on is weakly fair. -/
theorem weaklyFair_of_quiet {σ : Nat → State} (N : Nat)
    (h : ∀ n, N ≤ n → (σ n).acceptable = none ∧ (σ n).syncMove = none) : WeaklyFair σ :=
  ⟨eventuallyTaken_of_disabled N fun n hn he => he.2 (h n hn).1,
    eventuallyTaken_of_disabled N fun n hn he => he.2 (h n hn).2⟩

end Sys2Proof.Machine
end

