-- ==== Sys2Proof/Tests/Slice0.lean ====
section
/-! SUPPORT. The model's own tests. Expected values are the vectors of spec/95_test_vectors.md (K, E, V, DC, S, AB, P) or read
off the rule named beside them; no value here is the model's own answer. Last come the witnesses: for each statement with hypotheses, a
state and operands that meet all of them together. -/

namespace Sys2Proof.Tests

open Sys2Proof.Machine

/-! ### Small states and frames -/

/-- A legal configuration with the spec's default markers; the eight OPEN types are 1 to 8 here, the flag bits 0 to 2. -/
def cfg : Config where
  marker0 := 0xA5#8
  marker1 := 0x5A#8
  types := ⟨1, 2, 0x10, 3, 4, 5, 6, 7, 8⟩
  flagAckReq := 0
  flagResponse := 1
  flagError := 2
  markers_distinct := by decide
  types_distinct := by decide
  command_code := rfl
  flags_distinct := by decide

/-- No read pending, with `acc` in the accumulator. -/
def idle (acc : Word) : State := { State.reset with cfg := cfg, crcAcc := acc }

/-- A read pending at `phase`, with this candidate, count and source. -/
def reading (phase : SyncPhase) (buf : List Byte) (need : Nat) (queue : List Byte) (closed : Bool) : State :=
  { idle 7 with
    pending := .syncRead, syncPhase := phase, syncBuf := buf, syncNeed := need
    srcQueue := queue, srcClosed := closed }

/-- The next state of a step, where there is one. -/
def next? : Result → Option State
  | .next t => some t
  | _ => none

/-- A run on which the next step is the given move. -/
def due (m : Move) (s : State) : State := { s with schedule := [m] }

/-- Vector E1. -/
def E1 : List Byte := [0xA5, 0x5A, 0x01, 0x10, 0x00, 0x07, 0x00, 0x01, 0x00, 0xBC, 0x01, 0xDF, 0xA9]
/-- Vector E2. -/
def E2 : List Byte :=
  [0xA5, 0x5A, 0x01, 0x10, 0xFF, 0xFF, 0xFF, 0xFF, 0x03, 0x01, 0x02, 0x03, 0x82, 0x1D, 0x97, 0x4E]
/-- E2 with byte 15 = B1: the frame C of vector S2. -/
def C2 : List Byte :=
  [0xA5, 0x5A, 0x01, 0x10, 0xFF, 0xFF, 0xFF, 0xFF, 0x03, 0x01, 0x02, 0x03, 0x82, 0x1D, 0x97, 0xB1]
/-- Vector E6. -/
def E6 : List Byte := [0xA5, 0x5A, 0x01, 0x10, 0x00, 0x08, 0x00, 0x02, 0x01, 0x42, 0x7C, 0x6B, 0xCD, 0x6B]
/-- The record of vector DC1. -/
def DC1 : FrameRecord := ⟨1, 0x10, 0, 7, 1, [], 0xBC01DFA9#32⟩
/-- The record of vector DC9. -/
def DC9 : FrameRecord := ⟨1, 0x10, 0xFF, 255, 65535, [1, 2, 3], 0x821D974E#32⟩
/-- The record of E6 (program P3). -/
def R6 : FrameRecord := ⟨1, 0x10, 0, 8, 2, [0x42], 0x7C6BCD6B#32⟩

/-! ### WellFormed smoke: an ill-formed term for each check -/

/-- A buffer one byte longer than `buf_len` can say, and the longest one that fits. -/
theorem test_buffer_fits_edges (buf : List Byte) :
    (buf.length = 65536 → bufferFits buf = false) ∧ (buf.length = 65535 → bufferFits buf = true) :=
  ⟨fun h => decide_eq_false (by omega), fun h => decide_eq_true (by omega)⟩

theorem test_crcCompute_too_long : (Instr.crcCompute (List.replicate 65536 0)).wellFormed = false :=
  (test_buffer_fits_edges _).1 List.length_replicate
theorem test_encode_too_long : (Instr.encode 1 16 0 7 1 (List.replicate 65536 0)).wellFormed = false :=
  (test_buffer_fits_edges _).1 List.length_replicate
theorem test_decode_too_long : (Instr.decode (List.replicate 65536 0)).wellFormed = false :=
  (test_buffer_fits_edges _).1 List.length_replicate
theorem test_longest_buffer_fits : (Instr.decode (List.replicate 65535 0)).wellFormed = true :=
  (test_buffer_fits_edges _).2 List.length_replicate

/-! ### Decoding: each constructor's code, bit by bit from the table of R50 -/

theorem test_word_crcInit : decodeTableWord 8 0b00000001 = some .crcInit := by rfl
theorem test_word_crcUpdate : decodeTableWord 8 0b00000010 = some (.crcUpdate 0) := by rfl
theorem test_word_crcFinal : decodeTableWord 8 0b00000011 = some .crcFinal := by rfl
theorem test_word_crcCompute : decodeTableWord 8 0b00000100 = some (.crcCompute []) := by rfl
theorem test_word_encode : decodeTableWord 8 0b00010000 = some (.encode 0 0 0 0 0 []) := by rfl
theorem test_word_decode : decodeTableWord 8 0b00010001 = some (.decode []) := by rfl
theorem test_word_syncRead : decodeTableWord 8 0b00100000 = some .syncRead := by rfl
theorem test_word_syncAbort : decodeTableWord 8 0b00100001 = some .syncAbort := by rfl

/-- Vectors AB5, AB6: the illegal codes at the edges of R52's ranges. -/
theorem test_illegal_words :
    (List.map (decodeTableWord 8) [0x00, 0x05, 0x0F, 0x12, 0x1F, 0x22, 0xFF]).all Option.isNone = true := by rfl

/-- Program P2 line 1: `op=10, version=1, mtype=10, flags=0, address=12, sequence=1234, buf_len=2, buf=7B 7D`. -/
theorem test_bundle_encode :
    decodeRequest
      { op := 0b00010000#8, version := 0x0001#16, mtype := 0x0010#16, flags := 0x0000#16, address := 0x0012#16
        sequence := 0x00001234#32, bufLen := 2, buf := [0x7B#8, 0x7D#8] }
      = .ok (.encode 1 0x10 0 0x12 0x1234 [0x7B, 0x7D]) := by rfl

/-- Program P1 line 2: `op=02, byte=31`, as a flat image (notes/assumptions/7.md), a byte of a next bundle behind it. -/
theorem test_image_crcUpdate :
    decodeBytes [0x02, 0x31, 0, 0, 0, 0, 0, 0, 0, 0, 0, 0, 0, 0, 0, 0, 0xEE] = .ok (.crcUpdate 0x31, [0xEE]) := by rfl

/-- A flat image without its last buffer byte is no command. -/
theorem test_image_truncated :
    decodeBytes [0x11, 0, 0, 0, 0, 0, 0, 0, 0, 0, 0, 0, 0, 0, 0x02, 0, 0xA5] = .error .truncated := by rfl

/-- The first step after reset runs the table's word, for every row. -/
theorem test_first_step_runs_every_row :
    (List.map (fun w => (next? (step (State.reset.withFetchWord 8 w))).isSome)
      [0x01, 0x02, 0x03, 0x04, 0x10, 0x11, 0x20, 0x21]).all id = true := by rfl

/-! ### CRC unit -/

/-- K10. -/
theorem test_crcInit :
    next? (exec .crcInit (idle 0x12345678)) = some { idle 0xFFFFFFFF with responses := [{ status := .ok }] } := by
  decide +kernel
/-- Section 2.2, byte 1. -/
theorem test_crcUpdate :
    next? (exec (.crcUpdate 0x31) (idle 0xFFFFFFFF)) =
      some { idle 0x7C231048 with responses := [{ status := .ok }] } := by decide +kernel
/-- K15: a zero byte is absorbed, not skipped. -/
theorem test_crcUpdate_zero :
    next? (exec (.crcUpdate 0x00) (idle 0xFFFFFFFF)) =
      some { idle 0x2DFD1072 with responses := [{ status := .ok }] } := by decide +kernel
/-- K12. -/
theorem test_crcFinal :
    next? (exec .crcFinal (idle 0x7C231048)) =
      some { idle 0x7C231048 with responses := [{ status := .ok, value := 0x83DCEFB7 }] } := by decide +kernel
/-- K13. -/
theorem test_crcCompute :
    next? (exec (.crcCompute [0xFF]) (idle 0x7C231048)) =
      some { idle 0x7C231048 with responses := [{ status := .ok, value := 0xFF000000 }] } := by decide +kernel
/-- K2, K5, K8. -/
theorem test_crc32 :
    crc32 [0x31, 0x32, 0x33, 0x34, 0x35, 0x36, 0x37, 0x38, 0x39] = 0xCBF43926#32
      ∧ crc32 [0, 0, 0, 0] = 0x2144DF1C#32 ∧ crc32 [0x01, 0x10, 0x00, 0x07, 0x00, 0x01, 0x00] = 0xBC01DFA9#32 := by
  decide +kernel

/-! ### Codec -/

/-- E2. -/
theorem test_encode :
    next? (exec (.encode 1 0x10 0xFF 255 65535 [1, 2, 3]) (idle 5)) =
      some { idle 5 with responses := [{ status := .ok, outLen := 16, out := E2 }] } := by decide +kernel
/-- V7: the first failing check is reported. -/
theorem test_encode_first_invalid :
    next? (exec (.encode 1 0x10 0 256 65536 (List.replicate 256 0)) (idle 5)) =
      some { idle 5 with responses := [{ status := .validation, info := 0x03 }] } := by decide +kernel
/-- DC9. -/
theorem test_decode :
    next? (exec (.decode E2) (idle 5)) =
      some { idle 5 with responses := [{ status := .ok, frame := some DC9 }] } := by decide +kernel
/-- DC7: one flipped payload bit. -/
theorem test_decode_checksum :
    next? (exec
      (.decode [0xA5, 0x5A, 0x01, 0x10, 0x00, 0x12, 0x12, 0x34, 0x02, 0x7A, 0x7D, 0x47, 0x45, 0x40, 0x90])
      (idle 5)) =
      some { idle 5 with
        responses := [{ status := .checksum, value := 0x5E5E71D1, value2 := 0x47454090 }] } := by decide +kernel

/-! ### Synchronizer -/

/-- R79. -/
theorem test_syncRead :
    next? (exec .syncRead { idle 7 with srcQueue := E1 }) = some (reading .scan [] 0 E1 false) := by decide +kernel
/-- AB2: abort after six bytes. -/
theorem test_syncAbort :
    next? (exec .syncAbort (reading .hdr (E1.take 6) 3 [] false)) =
      some { idle 7 with responses := [{ status := .aborted }, { status := .ok }] } := by decide +kernel
/-- S3: a second `MARKER0` in `MARK1` begins a new candidate. -/
theorem test_mark1_marker0_again :
    next? (step (reading .mark1 [0xA5] 0 (0xA5 :: E1.drop 1) true)) =
      some (reading .mark1 [0xA5] 0 (E1.drop 1) true) := by decide +kernel
/-- S10: the fifth byte, `sync_need` 5 to 4. -/
theorem test_hdr_byte :
    next? (step (reading .hdr (E1.take 4) 5 [0x00] false)) = some (reading .hdr (E1.take 5) 4 [] false) := by
  decide +kernel
/-- S0: the last byte of E1 ends the read with frame DC1. -/
theorem test_body_frame :
    next? (step (reading .body (E1.take 12) 1 [0xA9] true)) =
      some { idle 7 with srcClosed := true, responses := [{ status := .ok, frame := some DC1 }] } := by decide +kernel
/-- S2: the last byte of C is discarded with CHECKSUM, and scanning resumes. -/
theorem test_body_discard :
    next? (step (reading .body (E2.take 15) 1 (0xB1 :: E6) true)) =
      some { reading .scan [] 0 E6 true with discards := [.checksum 0x821D974E#32 0x821D97B1#32] } := by
  decide +kernel
/-- S7: end of stream in `MARK1`. -/
theorem test_eos :
    next? (step (reading .mark1 [0xA5] 0 [] true)) =
      some { idle 7 with srcClosed := true, responses := [{ status := .streamClosed }] } := by decide +kernel
/-- AB7: a busy port holds CRC_INIT and op 05. -/
theorem test_busy_port_holds :
    next? (step { reading .scan [] 0 [] false with port := [{ op := 0x01#8 }, { op := 0x05#8 }] }) =
      some { reading .scan [] 0 [] false with port := [{ op := 0x01#8 }, { op := 0x05#8 }] } := by decide +kernel
/-- S2 by `sync_run` (P3 line 2 without the garbage). -/
theorem test_sync_run :
    syncRun cfg (C2 ++ E6) true = ⟨.frame R6, 30, [.checksum 0x821D974E#32 0x821D97B1#32]⟩ := by decide +kernel

/-! ### Witnesses -/

/-! SYNC_READ, CRC_INIT, an illegal bundle and SYNC_ABORT as bundles. -/
def rRead : Request := { op := 0x20#8 }
def rInit : Request := { op := 0x01#8 }
def rBad : Request := { op := 0x12#8 }
def rAbort : Request := { op := 0x21#8 }
/-- V4 in part (version 256), and DC3. -/
def rBadVersion : Request := { op := 0x10#8, version := 256 }
def rEmptyFrame : Request := { op := 0x11#8 }

/-- An idle block whose port holds `port`. -/
def asked (port : List Request) : State := { idle 7 with port := port }

theorem reading_inv_scan (q : List Byte) (closed : Bool) : StateInv (reading .scan [] 0 q closed) := by
  simp [StateInv, SyncInv, PendingInv, ResetInv, reading, idle, State.reset]

/-- The invariant in `BODY`, at the last byte of a frame whose length byte is 0. -/
theorem reading_inv_body (buf q : List Byte) (closed : Bool) (h : buf.length = 12) (h8 : byteAt buf 8 = 0#8)
    (hm : buf.take 2 = [0xA5#8, 0x5A#8]) : StateInv (reading .body buf 1 q closed) := by
  refine ⟨⟨3, ?_⟩, ?_⟩
  · simp [reading, idle, cfg, h, h8, hm]
  · simp [PendingInv, ResetInv, reading, idle, State.reset]

/-- DecoderFollowsCommandTable: the last clause at both edges of each range of R52, and at the legal codes beside them. -/
theorem test_witness_DecoderFollowsCommandTable :
    (∀ op ∈ [0x00#8, 0x05#8, 0x0F#8, 0x12#8, 0x1F#8, 0x22#8, 0xFF#8],
      decodeRequest { op := op } = .error (.illegalOp op))
    ∧ ∀ op ∈ [0x01#8, 0x02#8, 0x03#8, 0x04#8, 0x10#8, 0x11#8, 0x20#8, 0x21#8],
      decodeRequest { op := op } ≠ .error (.illegalOp op) := by decide +kernel

theorem test_witness_DecodeOfEncodeIsIdentity :
    (Instr.crcCompute (List.replicate 65535 0)).wellFormed = true
      ∧ (Instr.encode 0xFFFF 0xFFFF 0xFFFF 0xFFFF 0xFFFFFFFF []).wellFormed = true :=
  ⟨(test_buffer_fits_edges _).2 List.length_replicate, rfl⟩

theorem test_witness_DecodedCommandReencodes :
    decodeRequest { op := 0x04#8, byte := 9, sequence := 1, bufLen := 1, buf := [0xFF] }
      = .ok (.crcCompute [0xFF]) := rfl

/-- UnreadFieldsAreIgnored: bundles that differ in fields CRC_UPDATE, DECODE and ENCODE do not read. -/
theorem test_witness_UnreadFieldsAreIgnored :
    let r : Request := { op := 0x02#8, byte := 5, version := 1, bufLen := 1, buf := [1] }
    let r' : Request := { op := 0x02#8, byte := 5 }
    let d : Request := { op := 0x11#8, byte := 1, bufLen := 1, buf := [1] }
    let d' : Request := { op := 0x11#8, bufLen := 1, buf := [1] }
    let e : Request := { op := 0x10#8, byte := 1, address := 3 }
    let e' : Request := { op := 0x10#8, address := 3 }
    (r ≠ r' ∧ r.op = r'.op ∧ r.byte = r'.byte) ∧ (d ≠ d' ∧ d.op = d'.op ∧ d.buf = d'.buf)
      ∧ e ≠ e' ∧ e.op = e'.op ∧ e.version = e'.version ∧ e.mtype = e'.mtype ∧ e.flags = e'.flags
      ∧ e.address = e'.address ∧ e.sequence = e'.sequence ∧ e.buf = e'.buf := by decide

theorem test_witness_StepRunsDecodedCommand :
    Accepts (due (.block false) (asked [rRead, rInit])) rRead (asked [rInit])
      ∧ decodeRequest rRead = .ok .syncRead :=
  ⟨⟨rfl, false, asked [rRead, rInit], [rInit], rfl, rfl, .inl rfl, rfl⟩, rfl⟩

/-- FetchWordRunsDecodedCommand: a word, a state without a read, and the two cases of a state with one. -/
theorem test_witness_FetchWordRunsDecodedCommand :
    decodeTableWord 8 0x10 = some (.encode 0 0 0 0 0 []) ∧ decodeTableWord 8 0x21 = some .syncAbort
      ∧ State.reset.pending = .none ∧ (reading .scan [] 0 [] false).pending = .syncRead :=
  ⟨rfl, rfl, rfl, rfl⟩

theorem test_witness_IllegalCommandChangesNoState :
    Accepts (asked [rBad]) rBad (asked [])
      ∧ rBad.op ∉ [0x01#8, 0x02#8, 0x03#8, 0x04#8, 0x10#8, 0x11#8, 0x20#8, 0x21#8] :=
  ⟨⟨rfl, true, asked [rBad], [], rfl, rfl, .inl rfl, rfl⟩, by decide⟩

/-- A pending read with a held CRC_INIT and an abort behind it, a byte at the source. -/
def raced : State := { reading .scan [] 0 [0xA5] false with port := [rInit, rAbort, rRead] }

/-- PortAcceptsOneCommandAtATime, clause by clause. -/
theorem test_witness_PortAcceptsOneCommandAtATime :
    (StateInv (asked [rInit]) ∧ (asked [rInit]).resetAsserted = false
      ∧ blockTurn (asked [rInit]) = some (true, asked [rInit]) ∧ (asked [rInit]).pending = .none)
    ∧ (raced.resetAsserted = false ∧ blockTurn raced = some (true, raced) ∧ raced.pending = .syncRead
      ∧ (∃ t, step raced = .next t ∧ t.pending = .none)
      ∧ raced.port = [rInit] ++ rAbort :: [rRead] ∧ (∀ r ∈ [rInit], r.op ≠ 0x21#8) ∧ rAbort.op = 0x21#8)
    ∧ (∃ t, step (due (.block false) raced) = .next t ∧ t.pending = .syncRead)
    ∧ (due .assertReset raced).schedule = .assertReset :: []
    ∧ ∃ t, step (due .assertReset raced) = .next t :=
  ⟨⟨by simp [StateInv, SyncInv, PendingInv, ResetInv, asked, idle, State.reset], rfl, rfl, rfl⟩,
    ⟨rfl, rfl, rfl, ⟨_, rfl, rfl⟩, rfl, by decide, rfl⟩, ⟨_, rfl, rfl⟩, rfl, _, rfl⟩

theorem test_witness_AbortRaceAdmitsBothOrders :
    raced.resetAsserted = false ∧ raced.pending = .syncRead ∧ raced.acceptable = some (rAbort, [rInit, rRead])
      ∧ ∃ s', raced.syncMove = some s' :=
  ⟨rfl, rfl, rfl, _, rfl⟩

/-- AcceptedCommandGetsOneResponse: a command that leaves the block busy, and a byte step that ends a read. -/
theorem test_witness_AcceptedCommandGetsOneResponse :
    (Accepts (asked [rRead]) rRead (asked []) ∧ ∃ t, step (asked [rRead]) = .next t ∧ t.busy = true)
    ∧ StateInv (reading .body (E1.take 12) 1 [0xA9] true)
    ∧ ByteTurn (reading .body (E1.take 12) 1 [0xA9] true) (reading .body (E1.take 12) 1 [0xA9] true)
    ∧ ∃ t, step (reading .body (E1.take 12) 1 [0xA9] true) = .next t :=
  ⟨⟨⟨rfl, true, asked [rRead], [], rfl, rfl, .inl rfl, rfl⟩, _, rfl, rfl⟩,
    reading_inv_body _ _ _ rfl rfl rfl, ⟨rfl, true, rfl, .inl rfl⟩, _, rfl⟩

/-- EachErrorHasItsCommand: a step that adds a response of each error status. -/
theorem test_witness_EachErrorHasItsCommand :
    (∃ (t : State) (x : Response), step (asked [rBadVersion]) = .next t ∧ t.responses = [] ++ [x] ∧ x ∈ [x]
      ∧ x.status = .validation)
    ∧ (∃ (t : State) (x : Response), step (asked [rEmptyFrame]) = .next t ∧ t.responses = [] ++ [x] ∧ x ∈ [x] ∧ x.status = .framing)
    ∧ (∃ (t : State) (x : Response), step (reading .scan [] 0 [] true) = .next t ∧ t.responses = [] ++ [x] ∧ x ∈ [x]
      ∧ x.status = .streamClosed)
    ∧ (∃ (t : State) (x y : Response), step raced = .next t ∧ t.responses = [] ++ [x, y] ∧ x ∈ [x, y] ∧ x.status = .aborted)
    ∧ (∃ (t : State) (x : Response), step (asked [rBad]) = .next t ∧ t.responses = [] ++ [x] ∧ x ∈ [x] ∧ x.status = .illegalCommand) :=
  ⟨⟨_, _, rfl, rfl, by simp, by decide +kernel⟩, ⟨_, _, rfl, rfl, by simp, by decide +kernel⟩,
    ⟨_, _, rfl, rfl, by simp, rfl⟩, ⟨_, _, _, rfl, rfl, by simp, rfl⟩, _, _, rfl, rfl, by simp, rfl⟩

/-- IncrementalCrcAgreesWithOneShot: commands of every other unit between the updates, and a non-writing command. -/
theorem test_witness_IncrementalCrcAgreesWithOneShot :
    (∀ i ∈ [Instr.crcUpdate 0x31, .syncRead, .crcFinal, .decode [], .crcUpdate 0x32], i ≠ .crcInit)
      ∧ (∃ t, exec .crcFinal (idle 7) = .next t) ∧ Instr.crcFinal ≠ .crcInit
      ∧ ∀ b, Instr.crcFinal ≠ .crcUpdate b :=
  ⟨by decide, ⟨_, rfl⟩, by decide, fun _ h => by simp at h⟩

theorem test_witness_CrcDetectsSingleBitFlip : (0 < [0x00#8].length ∧ 0 < 8) ∧ (12 < E1.length ∧ 7 < 8) := by decide

/-- AccumulatorWritersAreInitUpdateReset: a step of each kind. -/
theorem test_witness_AccumulatorWritersAreInitUpdateReset :
    (∃ t, step (due .assertReset (idle 7)) = .next t) ∧ (∃ t, step (asked [rInit]) = .next t)
      ∧ (∃ t, step (asked [{ op := 0x02#8, byte := 5 }]) = .next t)
      ∧ ∃ t, step (reading .scan [] 0 [0xA5] false) = .next t :=
  ⟨⟨_, rfl⟩, ⟨_, rfl⟩, ⟨_, rfl⟩, _, rfl⟩

/-- The second clause also with a race that goes to the byte. -/
theorem test_witness_CodecAndSynchronizerIgnoreAccumulator :
    (Instr.syncRead = .syncRead ∨ Instr.syncRead = .syncAbort ∨ (∃ buf, Instr.syncRead = .decode buf)
      ∨ ∃ v t f a q p, Instr.syncRead = .encode v t f a q p)
    ∧ ByteTurn (due (.block false) raced) raced :=
  ⟨.inl rfl, rfl, false, rfl, .inr ⟨rfl, by simp [due, raced, reading, idle, State.syncMove, State.srcNext]⟩⟩

/-- EncodeReportsFirstInvalidField: the least failing value of each operand, the operands before it at their greatest. -/
theorem test_witness_EncodeReportsFirstInvalidField :
    let typeOk (t : Half) : Prop := ∃ x ∈ (idle 7).cfg.types.toList, x.toNat = t.toNat
    let v : Half := 255
    let t : Half := 0x10
    let f : Half := 255
    let a : Half := 255
    let q : Word := 65535
    (256#16).toNat > 255
    ∧ (v.toNat ≤ 255 ∧ ¬ typeOk 9 ∧ ¬ typeOk 0x110)
    ∧ (v.toNat ≤ 255 ∧ typeOk t ∧ (256#16).toNat > 255)
    ∧ (v.toNat ≤ 255 ∧ typeOk t ∧ f.toNat ≤ 255 ∧ (256#16).toNat > 255)
    ∧ (v.toNat ≤ 255 ∧ typeOk t ∧ f.toNat ≤ 255 ∧ a.toNat ≤ 255 ∧ (65536#32).toNat > 65535)
    ∧ (v.toNat ≤ 255 ∧ typeOk t ∧ f.toNat ≤ 255 ∧ a.toNat ≤ 255 ∧ q.toNat ≤ 65535
      ∧ (List.replicate 256 (0 : Byte)).length > 255) := by decide +kernel

theorem test_witness_EncodeProducesWireFrame :
    EncodeOk (idle 7).cfg 255 0x10 255 255 65535 (List.replicate 255 0)
      ∧ EncodeOk (idle 7).cfg 0 1 0 0 0 [] := by
  unfold EncodeOk
  decide +kernel

theorem test_witness_EncodedFrameLayout :
    ∃ u r, exec (.encode 1 0x10 0xFF 255 65535 [1, 2, 3]) (idle 7) = .next u
      ∧ u.responses = (idle 7).responses ++ [r] ∧ r.status = .ok :=
  ⟨_, { status := .ok, outLen := 16, out := E2 }, rfl, by decide +kernel, rfl⟩

/-- E1 with byte 3 not a member (`09`), the frame of vector DC14. -/
def E1t : List Byte := [0xA5, 0x5A, 0x01, 0x09, 0x00, 0x07, 0x00, 0x01, 0x00, 0xBC, 0x01, 0xDF, 0xA9]

theorem e1_framing : FramingOk cfg E1 := by
  unfold FramingOk
  decide

/-- DecodeReportsFirstFailure: vectors DC2, DC5, DC6, DC14, DC8; the OVERSIZE clause has none (R75), as the last conjunct says. -/
theorem test_witness_DecodeReportsFirstFailure :
    (E1.take 12).length < 13
    ∧ (13 ≤ (E1.set 1 0x5B).length ∧ (E1.set 1 0x5B).take 2 ≠ [cfg.marker0, cfg.marker1])
    ∧ (13 ≤ (E1 ++ [0]).length ∧ (E1 ++ [0]).take 2 = [cfg.marker0, cfg.marker1]
      ∧ 13 + lengthByte (E1 ++ [0]) ≠ (E1 ++ [0]).length)
    ∧ (13 ≤ E1t.length ∧ E1t.take 2 = [cfg.marker0, cfg.marker1] ∧ 13 + lengthByte E1t = E1t.length
      ∧ lengthByte E1t ≤ 255 ∧ byteAt E1t 3 ∉ cfg.types.toList)
    ∧ (FramingOk cfg (E1.set 12 0x29) ∧ crc32 (checkedRegion (E1.set 12 0x29)) ≠ 0xBC01DF29#32)
    ∧ ∀ r : List Byte, ¬ lengthByte r > 255 := by
  refine ⟨by decide, by decide, by decide, by decide, ⟨?_, by decide +kernel⟩, fun r h => ?_⟩
  · unfold FramingOk
    decide
  · have := (byteAt r 8).isLt
    unfold lengthByte at h
    omega

theorem e1_ok : FrameOk cfg E1 := ⟨e1_framing, by decide +kernel⟩

theorem e1_decodes : decodeFrame cfg E1 = .ok DC1 := by decide +kernel

/-- DecodeReturnsFrameRecord: E1, and the frame C of S2, which every framing check passes. -/
theorem test_witness_DecodeReturnsFrameRecord :
    FrameOk (idle 7).cfg E1 ∧ FramingOk (idle 7).cfg C2 ∧ ¬ FrameOk (idle 7).cfg C2 := by
  refine ⟨e1_ok, ?_, fun h => absurd h.2 (by decide +kernel)⟩
  unfold FramingOk
  decide

theorem test_witness_OversizeNeverReported :
    ∃ t x, exec (.decode []) (idle 7) = .next t ∧ t.responses = (idle 7).responses ++ [x] ∧ x.status = .framing :=
  ⟨_, _, rfl, rfl, rfl⟩

theorem test_witness_DecodeOfEncodedFrameReturnsOperands :
    EncodeOk (idle 7).cfg 255 0x10 255 255 65535 [] ∧ ¬ EncodeOk (idle 7).cfg 255 0x10 255 255 65536 [] := by
  unfold EncodeOk
  decide

theorem test_witness_EncodeOfDecodedFrameIsIdentity : decodeFrame (idle 7).cfg E1 = .ok DC1 := e1_decodes

/-- SingleBitCorruptionIsDetected: E1, with a flip in byte 3 that leaves the set and one that stays in it. -/
theorem test_witness_SingleBitCorruptionIsDetected :
    encodeFrame (idle 7).cfg 1 1 0 7 1 [] = .ok (wireFrame cfg 1 1 0 7 1 [])
      ∧ (wireFrame cfg 1 1 0 7 1 []).length = 13
      ∧ byteAt ((wireFrame cfg 1 1 0 7 1 []).set 3 (0x01 ^^^ (1#8 <<< 7))) 3 ∉ cfg.types.toList
      ∧ byteAt ((wireFrame cfg 1 1 0 7 1 []).set 3 (0x01 ^^^ (1#8 <<< 1))) 3 ∈ cfg.types.toList := by
  decide +kernel

theorem test_witness_DecodeOfImpossibleLengthIsFramingError :
    (E1.take 12).length ≤ 12
    ∧ (268 < (E1 ++ List.replicate 256 0).length ∧ (E1 ++ List.replicate 256 0).take 2 = [cfg.marker0, cfg.marker1])
    ∧ (268 < (List.replicate 269 (0 : Byte)).length
      ∧ (List.replicate 269 (0 : Byte)).take 2 ≠ [cfg.marker0, cfg.marker1]) := by decide +kernel

theorem test_witness_SyncReadStartsScanning : Accepts (asked [rRead]) rRead (asked []) ∧ rRead.op = 0x20#8 :=
  ⟨⟨rfl, true, asked [rRead], [], rfl, rfl, .inl rfl, rfl⟩, rfl⟩

theorem test_witness_SyncAbortEndsPendingRead :
    let s : State := { reading .hdr (E1.take 6) 3 [] false with port := [rAbort] }
    s.pending = .syncRead ∧ (idle 7).pending = .none ∧ s.resetAsserted = false ∧ blockTurn s = some (true, s)
      ∧ s.port = [rAbort] ∧ rAbort.op = 0x21#8 :=
  ⟨rfl, rfl, rfl, rfl, rfl, rfl⟩

/-- A state in which the block's next step is a byte step in the given phase. -/
theorem byte_turn (p : SyncPhase) (buf : List Byte) (n : Nat) (b : Byte) (q : List Byte) (closed : Bool) :
    let s := reading p buf n (b :: q) closed
    ByteTurn s s ∧ s.syncPhase = p ∧ s.srcQueue = b :: q :=
  ⟨⟨rfl, true, rfl, .inl rfl⟩, rfl, rfl⟩

/-- ScanningByteSteps, `SCAN`: `MARKER0`, and `MARKER1`, which is another byte in `SCAN`. -/
theorem test_witness_ScanningByteSteps_scan :
    (∀ b,
      let s := reading .scan [] 0 [b] false
      ByteTurn s s ∧ s.syncPhase = .scan ∧ s.srcQueue = [b] ∧ s.cfg = cfg)
      ∧ 0xA5#8 = cfg.marker0 ∧ 0x5A#8 ≠ cfg.marker0 :=
  ⟨fun b => ⟨(byte_turn .scan [] 0 b [] false).1, rfl, rfl, rfl⟩, rfl, by decide⟩

/-- ScanningByteSteps, `MARK1`: `MARKER1`, `MARKER0` again, and another byte. -/
theorem test_witness_ScanningByteSteps_mark1 :
    (∀ b,
      let s := reading .mark1 [0xA5] 0 [b] false
      ByteTurn s s ∧ s.syncPhase = .mark1 ∧ s.srcQueue = [b] ∧ s.cfg = cfg)
      ∧ 0x5A#8 = cfg.marker1 ∧ 0xA5#8 = cfg.marker0 ∧ (0x00#8 ≠ cfg.marker1 ∧ 0x00#8 ≠ cfg.marker0) :=
  ⟨fun b => ⟨(byte_turn .mark1 [0xA5] 0 b [] false).1, rfl, rfl, rfl⟩, rfl, rfl, by decide, by decide⟩

/-- FramingByteSteps, `HDR`: `sync_need` 1, and 2, the least over it. -/
theorem test_witness_FramingByteSteps_hdr :
    (
      let s := reading .hdr (E1.take 8) 1 [0x00] false
      ByteTurn s s ∧ s.syncPhase = .hdr ∧ s.srcQueue = [0x00] ∧ s.syncNeed = 1)
    ∧ (
      let s := reading .hdr (E1.take 7) 2 [0x01] false
      ByteTurn s s ∧ s.syncPhase = .hdr ∧ s.srcQueue = [0x01] ∧ 1 < s.syncNeed) :=
  ⟨⟨(byte_turn .hdr (E1.take 8) 1 _ [] false).1, rfl, rfl, rfl⟩,
    (byte_turn .hdr (E1.take 7) 2 _ [] false).1, rfl, rfl, by decide⟩

/-- FramingByteSteps, `BODY`: a byte before the last, a candidate that decodes, and one that does not. -/
theorem test_witness_FramingByteSteps_body :
    (
      let s := reading .body (E1.take 11) 2 [0xDF] false
      ByteTurn s s ∧ s.syncPhase = .body ∧ s.srcQueue = [0xDF] ∧ 1 < s.syncNeed)
    ∧ (
      let s := reading .body (E1.take 12) 1 [0xA9] false
      ByteTurn s s ∧ s.syncPhase = .body ∧ s.srcQueue = [0xA9] ∧ s.syncNeed = 1
        ∧ decodeFrame s.cfg (s.syncBuf ++ [0xA9]) = .ok DC1)
    ∧ (
      let s := reading .body (E2.take 15) 1 [0xB1] false
      ByteTurn s s ∧ s.syncPhase = .body ∧ s.srcQueue = [0xB1] ∧ s.syncNeed = 1
        ∧ decodeFrame s.cfg (s.syncBuf ++ [0xB1]) = .error (.checksum 0x821D974E#32 0x821D97B1#32)) :=
  ⟨⟨(byte_turn .body (E1.take 11) 2 _ [] false).1, rfl, rfl, by decide⟩,
    ⟨(byte_turn .body (E1.take 12) 1 _ [] false).1, rfl, rfl, rfl, by decide +kernel⟩,
    (byte_turn .body (E2.take 15) 1 _ [] false).1, rfl, rfl, rfl, by decide +kernel⟩

/-- EndOfStreamEndsRead: end of stream in each phase, and a closed empty source that stays so. -/
theorem test_witness_EndOfStreamEndsRead :
    (∀ p : SyncPhase,
      let s := reading p [] 0 [] true
      ByteTurn s s ∧ s.syncPhase = p ∧ s.srcQueue = [] ∧ s.srcClosed = true)
      ∧ ∃ t, step (reading .mark1 [0xA5] 0 [] true) = .next t :=
  ⟨fun _ => ⟨⟨rfl, true, rfl, .inl rfl⟩, rfl, rfl, rfl⟩, _, rfl⟩

/-- OpenEmptySourceHolds: a read that holds before a held CRC_INIT, one that goes on, and reset. -/
theorem test_witness_OpenEmptySourceHolds :
    (
      let s : State := { reading .scan [] 0 [] false with port := [rInit] }
      StateInv s ∧ s.resetAsserted = false ∧ blockTurn s = some (true, s) ∧ s.syncPhase ≠ .idle ∧ s.srcQueue = []
        ∧ s.srcClosed = false ∧ ∀ r ∈ s.port, r.op ≠ 0x21#8)
    ∧ (
      let s := reading .scan [] 0 [0xA5] false
      StateInv s ∧ s.resetAsserted = false ∧ blockTurn s = some (true, s) ∧ s.syncPhase ≠ .idle ∧ s.srcQueue ≠ [])
    ∧ (due .assertReset raced).schedule = .assertReset :: [] :=
  ⟨⟨reading_inv_scan [] false, rfl, rfl, by decide, rfl, rfl, by decide⟩,
    ⟨reading_inv_scan _ false, rfl, rfl, by decide, by decide⟩, rfl⟩

/-- ReadGetsOneResponse: a read that ends, each way, and one that goes on. -/
theorem test_witness_ReadGetsOneResponse :
    (∃ t, step (reading .body (E1.take 12) 1 [0xA9] true) = .next t ∧ t.pending = .none)
    ∧ (∃ t, step (reading .scan [] 0 [] true) = .next t ∧ t.pending = .none)
    ∧ (∃ t, step raced = .next t ∧ t.pending = .none)
    ∧ (∃ t, step (due .assertReset raced) = .next t ∧ t.pending = .none)
    ∧ ∃ t, step (due (.block false) raced) = .next t ∧ t.pending = .syncRead
      ∧ ∃ c s₁, blockTurn (due (.block false) raced) = some (c, s₁) :=
  ⟨⟨_, rfl, by decide +kernel⟩, ⟨_, rfl, rfl⟩, ⟨_, rfl, rfl⟩, ⟨_, rfl, rfl⟩, _, rfl, rfl, _, _, rfl⟩

/-- DiscardsAreTypeOrChecksum: one discard of each kind (DC14, DC8). -/
theorem test_witness_DiscardsAreTypeOrChecksum :
    StateInv (reading .body (E1t.take 12) 1 [0xA9] true)
    ∧ (∃ t, step (reading .body (E1t.take 12) 1 [0xA9] true) = .next t ∧ t.discards = [] ++ [.framing .type])
    ∧ StateInv (reading .body (E1.take 12) 1 [0x29] true)
    ∧ ∃ t, step (reading .body (E1.take 12) 1 [0x29] true) = .next t
      ∧ t.discards = [] ++ [.checksum 0xBC01DFA9#32 0xBC01DF29#32] :=
  ⟨reading_inv_body _ _ _ rfl rfl rfl, ⟨_, rfl, by decide +kernel⟩, reading_inv_body _ _ _ rfl rfl rfl,
    _, rfl, by decide +kernel⟩

/-- ReadRefinesSyncRun: the three outcomes, from states that meet its hypotheses (S0, S7, S10). -/
theorem test_witness_ReadRefinesSyncRun :
    (∀ q closed, StateInv (reading .scan [] 0 q closed) ∧ (reading .scan [] 0 q closed).schedule = []
      ∧ (reading .scan [] 0 q closed).resetAsserted = false ∧ (reading .scan [] 0 q closed).port = [])
    ∧ (syncRun cfg E1 true).outcome = .frame DC1 ∧ (syncRun cfg [0xA5] true).outcome = .streamClosed
    ∧ (syncRun cfg (E1.take 5) false).outcome = .hold :=
  ⟨fun q c => ⟨reading_inv_scan q c, rfl, rfl, rfl⟩, by decide +kernel, by decide +kernel, by decide +kernel⟩

theorem idle_inv (port : List Request) (q : List Byte) : StateInv { asked port with srcQueue := q } := by
  simp [StateInv, SyncInv, PendingInv, ResetInv, asked, idle, State.reset]

/-- FrameBehindGarbageIsFound: the garbage of S3, which ends in `MARKER0`; a held CRC_INIT, a byte behind the frame. -/
theorem test_witness_FrameBehindGarbageIsFound :
    let s : State := { asked [rRead, rInit] with srcQueue := [0xA5] ++ E1 ++ [0x5A] }
    StateInv s ∧ s.resetAsserted = false ∧ s.schedule = [] ∧ s.pending = .none ∧ s.port = rRead :: [rInit]
      ∧ rRead.op = 0x20#8 ∧ (∀ x ∈ [rInit], x.op ≠ 0x21#8)
      ∧ (∀ x y : List Byte, [0xA5#8] ≠ x ++ [s.cfg.marker0, s.cfg.marker1] ++ y)
      ∧ decodeFrame s.cfg E1 = .ok DC1 := by
  refine ⟨idle_inv _ _, rfl, rfl, rfl, rfl, rfl, by decide, fun x y h => ?_, e1_decodes⟩
  have := congrArg List.length h
  simp at this
  omega

/-- DiscardResumesBehindCandidate: the frame C of S2. -/
theorem test_witness_DiscardResumesBehindCandidate :
    C2.take 2 = [cfg.marker0, cfg.marker1] ∧ C2.length = 13 + lengthByte C2
      ∧ decodeFrame cfg C2 = .error (.checksum 0x821D974E#32 0x821D97B1#32) :=
  ⟨by decide, by decide, by decide +kernel⟩

/-- CorruptedFrameBetweenTwoIsSkipped: S2 itself. -/
theorem test_witness_CorruptedFrameBetweenTwoIsSkipped :
    let s : State := { asked [rRead, rRead, rInit] with srcQueue := E1 ++ C2 ++ E6 ++ [] }
    StateInv s ∧ s.resetAsserted = false ∧ s.schedule = [] ∧ s.pending = .none
      ∧ s.port = rRead :: rRead :: [rInit] ∧ rRead.op = 0x20#8 ∧ (∀ x ∈ [rInit], x.op ≠ 0x21#8)
      ∧ decodeFrame s.cfg E1 = .ok DC1 ∧ decodeFrame s.cfg E6 = .ok R6
      ∧ C2.take 2 = [s.cfg.marker0, s.cfg.marker1] ∧ C2.length = 13 + lengthByte C2
      ∧ decodeFrame s.cfg C2 = .error (.checksum 0x821D974E#32 0x821D97B1#32) :=
  ⟨idle_inv _ _, rfl, rfl, rfl, rfl, rfl, by decide, e1_decodes, by decide +kernel, by decide, by decide,
    by decide +kernel⟩

theorem test_witness_ReturnedFrameIsDecodedFromSource :
    (syncRun cfg (0x00 :: 0xA5 :: E1) true).outcome = .frame DC1 := by decide +kernel

theorem test_witness_ReadOfClosedSourceEnds :
    let s : State := { reading .body (E1.take 12) 1 [0xA9] true with port := [rInit] }
    StateInv s ∧ s.resetAsserted = false ∧ s.schedule = [] ∧ s.pending = .syncRead ∧ s.srcClosed = true
      ∧ ∀ r ∈ s.port, r.op ≠ 0x21#8 :=
  ⟨reading_inv_body (E1.take 12) [0xA9] true rfl rfl rfl, rfl, rfl, rfl, rfl,
    fun r h => by simp [List.mem_singleton.mp h, rInit]⟩

/-- DeliverySplitIsInvisible: E1 in two deliveries, steps and a second SYNC_READ between them. -/
theorem test_witness_DeliverySplitIsInvisible :
    let s : State := { reading .scan [] 0 [0x00] false with port := [rInit] }
    let moves : List Move :=
      [.deliver (E1.take 5), .block true, .issue rRead, .block false, .deliver (E1.drop 5)]
    StateInv s ∧ s.resetAsserted = false ∧ s.srcClosed = false ∧ (∀ r ∈ s.port, r.op ≠ 0x21#8)
      ∧ (∀ m ∈ moves, (∃ bs, m = .deliver bs) ∨ (∃ r, m = .issue r ∧ r.op ≠ 0x21#8) ∨ ∃ c, m = .block c) := by
  refine ⟨reading_inv_scan [0x00] false, rfl, rfl, by decide, ?_⟩
  simp [rRead]

/-- One step from `s`, to `t`, and `t` for ever. -/
def settles (s t : State) : Nat → State
  | 0 => s
  | _ + 1 => t

theorem settles_run (s t : State) (hs : step s = .next t) (ht : step t = .next t) : IsRun (settles s t) :=
  isRun_of_steps fun n => by cases n <;> assumption

theorem settles_fair (s t : State) (h : t.acceptable = none ∧ t.syncMove = none) : WeaklyFair (settles s t) :=
  weaklyFair_of_quiet 1 fun n hn => by
    cases n with
    | zero => simp at hn
    | succ n => exact h

theorem settles_no_reset (s t : State) (hs : s.resetAsserted = false) (ht : t.resetAsserted = false) (m : Nat) :
    (settles s t m).resetAsserted = false := by cases m <;> assumption

/-- FairRunsServeCommands: CRC_INIT at an idle port, and an abort behind it at a busy one. -/
theorem test_witness_FairRunsServeCommands :
    (∃ t, let σ := settles (asked [rInit]) t
      IsRun σ ∧ WeaklyFair σ ∧ StateInv (σ 0) ∧ (∀ m, (σ m).resetAsserted = false) ∧ (σ 0).pending = .none
        ∧ (σ 0).port = rInit :: [] ∧ (∃ s₀, Accepts (σ 0) rInit s₀) ∧ rInit.op ≠ 0x20#8)
    ∧ (let s : State := { reading .scan [] 0 [] false with port := [rAbort] }
      ∃ t, let σ := settles s t
      IsRun σ ∧ WeaklyFair σ ∧ StateInv (σ 0) ∧ (∀ m, (σ m).resetAsserted = false)
        ∧ (σ 0).port = [] ++ rAbort :: [] ∧ rAbort.op = 0x21#8) :=
  ⟨⟨_, settles_run _ _ rfl rfl, settles_fair _ _ ⟨rfl, rfl⟩, idle_inv [rInit] [], settles_no_reset _ _ rfl rfl, rfl, rfl,
      ⟨_, rfl, true, asked [rInit], [], rfl, rfl, .inl rfl, rfl⟩, by decide⟩,
    _, settles_run _ _ rfl rfl, settles_fair _ _ ⟨rfl, rfl⟩, reading_inv_scan [] false, settles_no_reset _ _ rfl rfl,
      rfl, rfl⟩

/-- FairReadsEnd: a closed source, an abort at the port, and a candidate whose last byte is at the source. -/
theorem test_witness_FairReadsEnd :
    (∃ t, let σ := settles (reading .scan [] 0 [] true) t
      IsRun σ ∧ WeaklyFair σ ∧ StateInv (σ 0) ∧ (∀ m, (σ m).resetAsserted = false) ∧ (σ 0).pending = .syncRead
        ∧ (σ 0).srcClosed = true)
    ∧ (∃ t, let σ := settles { reading .scan [] 0 [] false with port := [rAbort] } t
      IsRun σ ∧ WeaklyFair σ ∧ (σ 0).pending = .syncRead ∧ ∃ a ∈ (σ 0).port, a.op = 0x21#8)
    ∧ (let t : State := { idle 7 with responses := [{ status := .ok, frame := some DC1 }] }
      let σ := settles (reading .body (E1.take 12) 1 [0xA9] false) t
      IsRun σ ∧ WeaklyFair σ ∧ StateInv (σ 0) ∧ (∀ m, (σ m).resetAsserted = false) ∧ (σ 0).pending = .syncRead
        ∧ (readFrom (σ 0)).outcome = .frame DC1 ∧ ∀ m r s₀, Accepts (σ m) r s₀ → r.op ≠ 0x21#8) := by
  refine ⟨⟨_, settles_run _ _ rfl rfl, settles_fair _ _ ⟨rfl, rfl⟩, reading_inv_scan [] true,
      settles_no_reset _ _ rfl rfl, rfl, rfl⟩,
    ⟨_, settles_run _ _ rfl rfl, settles_fair _ _ ⟨rfl, rfl⟩, rfl, rAbort, List.mem_singleton.mpr rfl, rfl⟩,
    settles_run _ _ ?_ rfl, settles_fair _ _ ⟨rfl, rfl⟩, reading_inv_body _ _ _ rfl rfl rfl,
    settles_no_reset _ _ rfl rfl, rfl, by decide +kernel, ?_⟩
  · have h : next? (step (reading .body (E1.take 12) 1 [0xA9] false)) =
        some { idle 7 with responses := [{ status := .ok, frame := some DC1 }] } := by decide +kernel
    unfold next? at h
    split at h
    · next e => rw [e, Option.some.inj h]
    · simp at h
  · rintro m r s₀ ⟨_, _, _, _, _, h, _⟩
    cases m <;> exact absurd h (by simp [settles, State.acceptable, State.busy, reading, idle, State.reset, firstAbort])

/-- FairRunsCanWaitForEver: the schedules and the waiting reads of its clauses. -/
theorem test_witness_FairRunsCanWaitForEver :
    (due .take (idle 7)).schedule = [(fun _ => Move.take) 0]
    ∧ (let s : State := { reading .scan [] 0 [] false with port := [rInit] }
      StateInv s ∧ s.pending = .syncRead ∧ s.srcQueue = [] ∧ s.srcClosed = false ∧ (∀ r ∈ s.port, r.op ≠ 0x21#8)
        ∧ s.schedule = [])
    ∧ (let s : State := { reading .scan [] 0 [] false with schedule := [.deliver [0x00], .block true] }
      StateInv s ∧ s.resetAsserted = false ∧ s.syncPhase = .scan ∧ s.srcQueue = [] ∧ s.srcClosed = false
        ∧ s.port = [] ∧ 0x00#8 ≠ s.cfg.marker0 ∧ s.schedule = [.deliver [0x00], .block true]) :=
  ⟨rfl, ⟨reading_inv_scan [] false, rfl, rfl, rfl, by decide, rfl⟩,
    reading_inv_scan [] false, rfl, rfl, rfl, rfl, rfl, by decide, rfl⟩

/-- Weak fairness shuts runs out: the host takes responses for ever, and a command at the port is never accepted. -/
theorem test_starving_run_is_unfair :
    IsRun (fun _ => due .take (asked [rInit])) ∧ ¬ WeaklyFair (fun _ => due .take (asked [rInit])) := by
  refine ⟨fun _ => ⟨asked [rInit], [.take], rfl, rfl⟩, fun h => ?_⟩
  obtain ⟨m, _, r, s₀, _, c, s₁, rest, ht, _⟩ := h.1 0 fun _ _ => ⟨rfl, Option.some_ne_none (rInit, [])⟩
  simp [blockTurn, due] at ht

theorem test_witness_AssertedResetClearsBlock : (due .assertReset raced).schedule = .assertReset :: [] := rfl

/-- A state in which reset is asserted. -/
def held : State := { idle 0xFFFFFFFF with resetAsserted := true, port := [rInit], srcQueue := [0xA5] }

theorem test_witness_ResetHoldsTheBlock :
    (held.resetAsserted = true ∧ blockTurn held = some (true, held))
      ∧ StateInv (due .releaseReset held) ∧ (due .releaseReset held).schedule = .releaseReset :: [] :=
  ⟨⟨rfl, rfl⟩, by simp [StateInv, SyncInv, PendingInv, ResetInv, due, held, idle, State.reset], rfl⟩

/-- ConfigurationNeverChanges, DiscardTraceIsNeverRead: a step that discards. -/
theorem test_witness_any_step : ∃ t, step (reading .body (E1.take 12) 1 [0x29] true) = .next t := ⟨_, rfl⟩

/-- SourceIsConsumedInOrder: a step that consumes, one that delivers, and one on a closed source. -/
theorem test_witness_SourceIsConsumedInOrder :
    (∃ t, step (reading .scan [] 0 [1, 2] true) = .next t ∧ t.srcQueue = [2])
      ∧ ∃ t, step (due (.deliver [3, 4]) (reading .scan [] 0 [1] false)) = .next t ∧ t.srcQueue = [1, 3, 4] :=
  ⟨⟨_, rfl, rfl⟩, _, rfl, rfl⟩

/-- EnvironmentMovesAct: every clause's schedule and premise. -/
theorem test_witness_EnvironmentMovesAct :
    (due (.deliver [1]) (reading .scan [] 0 [] false)).srcClosed = false
      ∧ (due (.deliver [1]) (reading .scan [] 0 [] true)).srcClosed = true
      ∧ (due .close (idle 7)).schedule = .close :: [] ∧ (due (.issue rInit) (idle 7)).schedule = .issue rInit :: []
      ∧ (due .take { idle 7 with responses := [{ status := .ok }] }).responses = { status := .ok } :: []
      ∧ (due .take (idle 7)).responses = [] :=
  ⟨rfl, rfl, rfl, rfl, rfl, rfl⟩

theorem test_witness_StepKeepsInvariant :
    StateInv (reading .body (E1.take 12) 1 [0xA9] true)
      ∧ ∃ t, step (reading .body (E1.take 12) 1 [0xA9] true) = .next t :=
  ⟨reading_inv_body _ _ _ rfl rfl rfl, _, rfl⟩

/-- StepKeepsResponsesLegal: a channel that holds a response of each status (V1, DC2, DC8). -/
theorem test_witness_StepKeepsResponsesLegal :
    let rs : List Response :=
      [{ status := .ok, frame := some DC1 }, { status := .ok, outLen := 13, out := E1 },
        { status := .validation, info := 0x03 }, { status := .framing, info := 0x00 },
        { status := .checksum, value := 0xBC01DFA9, value2 := 0xBC01DF29 }, { status := .streamClosed },
        { status := .aborted }, { status := .illegalCommand }]
    (∀ r ∈ rs, r.Legal cfg) ∧ ∃ t, step { idle 7 with responses := rs } = .next t := by
  refine ⟨?_, _, rfl⟩
  simp only [List.mem_cons, List.not_mem_nil, or_false, forall_eq_or_imp, forall_eq, Response.Legal, and_true]
  exact ⟨.inr (.inr ⟨DC1, by decide, by decide, rfl⟩), .inr (.inl ⟨E1, by decide, by decide, rfl⟩), ⟨.address, rfl⟩,
    ⟨.short, by decide, rfl⟩, _, _, by decide, rfl⟩

end Sys2Proof.Tests
end

section
/-! PROOFS. The statements of spec/10_state.md: what a step can do, said once for a command, a synchronizer step and a turn of
the block, and from it the invariant, the responses, the writers of `crc_acc`, and the byte source. -/

namespace Sys2Proof.Machine

/-! ### Accepting a command -/

/-- Every outcome of an accepted bundle, by what it writes: `crc_acc`, the start of a read, the end of one, or one response and
nothing else. -/
theorem acceptCommand_cases (r : Request) (s : State) :
    (r.op = 0x01#8
      ∧ acceptCommand r s = .next ({ s with crcAcc := crcInitValue }.respond { status := .ok }))
    ∨ (r.op = 0x02#8
      ∧ acceptCommand r s = .next ({ s with crcAcc := crcStep s.crcAcc r.byte }.respond { status := .ok }))
    ∨ (r.op = 0x20#8 ∧ acceptCommand r s = .next { s.syncTo .scan with pending := .syncRead })
    ∨ (r.op = 0x21#8 ∧ s.pending = .syncRead
      ∧ acceptCommand r s = .next (((s.respond { status := .aborted }).endRead).respond { status := .ok }))
    ∨ (r.op ∉ [0x01#8, 0x02#8, 0x20#8] ∧ (r.op = 0x21#8 → s.pending = .none)
      ∧ ∃ x, acceptCommand r s = .next (s.respond x)) := by
  unfold acceptCommand
  rcases decodeRequest_cases r with ⟨h, e⟩ | ⟨h, e⟩ | ⟨h, e⟩ | ⟨h, e⟩ | ⟨h, e⟩ | ⟨h, e⟩ | ⟨h, e⟩ | ⟨h, e⟩ | ⟨h, e⟩
  all_goals simp only [e, exec]
  · exact .inl ⟨h, rfl⟩
  · exact .inr (.inl ⟨h, rfl⟩)
  · exact .inr (.inr (.inr (.inr ⟨by simp [h], by simp [h], _, rfl⟩)))
  · exact .inr (.inr (.inr (.inr ⟨by simp [h], by simp [h], _, rfl⟩)))
  · exact .inr (.inr (.inr (.inr ⟨by simp [h], by simp [h], _, rfl⟩)))
  · exact .inr (.inr (.inr (.inr ⟨by simp [h], by simp [h], _, rfl⟩)))
  · exact .inr (.inr (.inl ⟨h, rfl⟩))
  · cases hp : s.pending with
    | syncRead => exact .inr (.inr (.inr (.inl ⟨h, rfl, by simp [execSyncAbort, hp, ErrorKind.response]⟩)))
    | none => exact .inr (.inr (.inr (.inr ⟨by simp [h], by simp, _, by simp only [execSyncAbort, hp]; rfl⟩)))
  · refine .inr (.inr (.inr (.inr ⟨fun hm => ?_, fun hop => by simp [hop, legalOp] at h, _, rfl⟩)))
    simp only [List.mem_cons, List.not_mem_nil, or_false] at hm
    rcases hm with hm | hm | hm <;> simp [hm, legalOp] at h

/-- What no command changes. -/
theorem acceptCommand_frame {r : Request} {s t : State} (h : acceptCommand r s = .next t) :
    t.srcQueue = s.srcQueue ∧ t.srcClosed = s.srcClosed ∧ t.resetAsserted = s.resetAsserted := by
  rcases acceptCommand_cases r s with ⟨-, e⟩ | ⟨-, e⟩ | ⟨-, e⟩ | ⟨-, -, e⟩ | ⟨-, -, x, e⟩
  all_goals
    rw [h] at e
    cases e
    exact ⟨rfl, rfl, rfl⟩

/-- The commands that write `crc_acc`, and the value each writes (spec/10_state.md R16). -/
theorem acceptCommand_crcAcc {r : Request} {s t : State} (h : acceptCommand r s = .next t) :
    t.crcAcc = s.crcAcc ∨ (r.op = 0x01#8 ∧ t.crcAcc = crcInitValue)
      ∨ (r.op = 0x02#8 ∧ t.crcAcc = crcStep s.crcAcc r.byte) := by
  rcases acceptCommand_cases r s with ⟨hop, e⟩ | ⟨hop, e⟩ | ⟨-, e⟩ | ⟨-, -, e⟩ | ⟨-, -, x, e⟩
  all_goals
    rw [h] at e
    cases e
  · exact .inr (.inl ⟨hop, rfl⟩)
  · exact .inr (.inr ⟨hop, rfl⟩)
  · exact .inl rfl
  · exact .inl rfl
  · exact .inl rfl

/-! ### The synchronizer's step -/

/-- The end of stream answers STREAM_CLOSED and ends the read (spec/42_sync.md R86). -/
theorem syncEos_eq (s : State) : syncEos s = (s.respond { status := .streamClosed }).endRead := rfl

/-- A byte step of a read ends it with one response, or goes on with it and responds nothing. -/
theorem syncByte_endsRead_or_goesOn (b : Byte) {s : State} (h : s.syncPhase ≠ .idle) :
    (∃ f, syncByte b s = (s.respond { status := .ok, frame := some f }).endRead)
    ∨ ((syncByte b s).syncPhase ≠ .idle ∧ (syncByte b s).pending = s.pending
        ∧ (syncByte b s).responses = s.responses) := by
  cases hp : s.syncPhase with
  | idle => exact absurd hp h
  | scan =>
    rw [syncByte_scan b hp, scanByte]
    split <;> simp [hp]
  | mark1 =>
    rw [syncByte_mark1 b hp, mark1Byte]
    (repeat' split) <;> simp [hp]
  | hdr =>
    rw [syncByte_hdr b hp, hdrByte]
    split <;> simp [hp]
  | body =>
    rw [syncByte_body b hp, bodyByte]
    split
    · rcases finishCandidate_cases (s.syncBuf ++ [b]) s with ⟨f, -, e⟩ | ⟨err, -, e⟩
      · exact .inl ⟨f, e⟩
      · simp [e]
    · simp [hp]

/-- A synchronizer step belongs to a read, and ends it with one response or goes on with it and responds nothing. -/
theorem syncMove_endsRead_or_goesOn {s s' : State} (h : s.syncMove = some s') :
    s.syncPhase ≠ .idle
    ∧ ((s'.syncPhase = .idle ∧ s'.pending = .none ∧ ∃ x, s'.responses = s.responses ++ [x])
      ∨ (s'.syncPhase ≠ .idle ∧ s'.pending = s.pending ∧ s'.responses = s.responses)) := by
  rcases syncMove_cases s with ⟨hp, b, q, -, e⟩ | ⟨hp, -, -, e⟩ | ⟨-, -, -, e⟩ | ⟨-, e⟩
  all_goals rw [h] at e
  · obtain rfl := Option.some.inj e
    refine ⟨hp, ?_⟩
    rcases syncByte_endsRead_or_goesOn b (s := { s with srcQueue := q }) hp with ⟨f, e⟩ | goesOn
    · exact .inl ⟨by simp [e], by simp [e], _, by rw [e]; rfl⟩
    · exact .inr goesOn
  · obtain rfl := Option.some.inj e
    exact ⟨hp, .inl ⟨rfl, rfl, _, rfl⟩⟩
  · cases e
  · cases e

/-- What no synchronizer step changes, and that it leaves the source's bytes or takes exactly the oldest. -/
theorem syncMove_frame {s s' : State} (h : s.syncMove = some s') :
    s'.crcAcc = s.crcAcc ∧ s'.srcClosed = s.srcClosed ∧ s'.resetAsserted = s.resetAsserted
      ∧ (s'.srcQueue = s.srcQueue ∨ ∃ b, s.srcQueue = b :: s'.srcQueue) := by
  rcases syncMove_cases s with ⟨-, b, q, hq, e⟩ | ⟨-, -, -, e⟩ | ⟨-, -, -, e⟩ | ⟨-, e⟩
  all_goals rw [h] at e
  · obtain rfl := Option.some.inj e
    obtain ⟨-, hcrc, hqueue, hclosed, -, hreset, -⟩ := syncByte_frame b { s with srcQueue := q }
    exact ⟨hcrc, hclosed, hreset, .inr ⟨b, by rw [hqueue, hq]⟩⟩
  · obtain rfl := Option.some.inj e
    simp [syncEos_eq]
  · cases e
  · cases e

/-! ### The synchronizer's invariant (spec/10_state.md R20) -/

section
variable {s : State}

theorem syncInv_of_idle (h : s.syncPhase = .idle) : SyncInv s ↔ s.syncBuf = [] ∧ s.syncNeed = 0 := by
  simp [SyncInv, h]

theorem syncInv_of_scan (h : s.syncPhase = .scan) : SyncInv s ↔ s.syncBuf = [] ∧ s.syncNeed = 0 := by
  simp [SyncInv, h]

theorem syncInv_of_mark1 (h : s.syncPhase = .mark1) :
    SyncInv s ↔ s.syncBuf = [s.cfg.marker0] ∧ s.syncNeed = 0 := by
  simp [SyncInv, h]

theorem syncInv_of_hdr (h : s.syncPhase = .hdr) :
    SyncInv s ↔ ∃ header : List Byte, s.syncBuf = [s.cfg.marker0, s.cfg.marker1] ++ header
      ∧ header.length ≤ 6 ∧ s.syncNeed = 7 - header.length := by
  simp [SyncInv, h]

theorem syncInv_of_body (h : s.syncPhase = .body) :
    SyncInv s ↔ ∃ k : Nat, s.syncBuf.length = 9 + k ∧ k < (byteAt s.syncBuf 8).toNat + 4
      ∧ s.syncNeed = (byteAt s.syncBuf 8).toNat + 4 - k ∧ s.syncBuf.take 2 = [s.cfg.marker0, s.cfg.marker1] := by
  simp [SyncInv, h]

/-- With no candidate, the synchronizer's invariant holds in `IDLE` and in `SCAN`. -/
theorem syncInv_syncTo {p : SyncPhase} (h : p = .idle ∨ p = .scan) : SyncInv (s.syncTo p) := by
  rcases h with rfl | rfl <;> exact ⟨rfl, rfl⟩

theorem syncInv_endRead : SyncInv s.endRead := ⟨rfl, rfl⟩

theorem scanByte_syncInv (b : Byte) (hp : s.syncPhase = .scan) (h : SyncInv s) : SyncInv (scanByte b s) := by
  obtain ⟨-, hneed⟩ := (syncInv_of_scan hp).mp h
  unfold scanByte
  split
  · next hb => exact (syncInv_of_mark1 rfl).mpr ⟨by rw [hb], hneed⟩
  · exact h

theorem mark1Byte_syncInv (b : Byte) (hp : s.syncPhase = .mark1) (h : SyncInv s) : SyncInv (mark1Byte b s) := by
  obtain ⟨hbuf, hneed⟩ := (syncInv_of_mark1 hp).mp h
  unfold mark1Byte
  split
  · next hb => exact (syncInv_of_hdr rfl).mpr ⟨[], by simp [hbuf, hb], by simp, rfl⟩
  · split
    · next hb =>
      refine (syncInv_of_mark1 ?_).mpr ⟨by rw [hb], hneed⟩
      exact hp
    · exact (syncInv_of_scan rfl).mpr ⟨rfl, hneed⟩

theorem hdrByte_syncInv (b : Byte) (hp : s.syncPhase = .hdr) (h : SyncInv s) : SyncInv (hdrByte b s) := by
  obtain ⟨header, hbuf, hlen, hneed⟩ := (syncInv_of_hdr hp).mp h
  unfold hdrByte
  dsimp only
  split
  · have hfull : header.length = 6 := by omega
    exact (syncInv_of_body rfl).mpr ⟨0, by simp [hbuf, hfull], by omega, rfl, by simp [hbuf]⟩
  · have hgrow : (header ++ [b]).length = header.length + 1 := List.length_append
    refine (syncInv_of_hdr ?_).mpr ⟨header ++ [b], by simp [hbuf], by omega, by dsimp only; omega⟩
    exact hp

/-- Bytes added behind a candidate leave the bytes it has. -/
theorem byteAt_append_left (bs cs : List Byte) {i : Nat} (h : i < bs.length) : byteAt (bs ++ cs) i = byteAt bs i :=
  List.getD_append bs cs 0 i h

theorem finishCandidate_syncInv (candidate : List Byte) : SyncInv (finishCandidate candidate s) := by
  rcases finishCandidate_cases candidate s with ⟨f, -, e⟩ | ⟨err, -, e⟩
  · exact e ▸ syncInv_endRead
  · exact e ▸ syncInv_syncTo (.inr rfl)

theorem bodyByte_syncInv (b : Byte) (hp : s.syncPhase = .body) (h : SyncInv s) : SyncInv (bodyByte b s) := by
  obtain ⟨k, hlen, hk, hneed, hmark⟩ := (syncInv_of_body hp).mp h
  unfold bodyByte
  dsimp only
  split
  · exact finishCandidate_syncInv _
  · have hL : byteAt (s.syncBuf ++ [b]) 8 = byteAt s.syncBuf 8 := byteAt_append_left _ _ (by omega)
    refine (syncInv_of_body ?_).mpr ⟨k + 1, by simp [hlen, Nat.add_assoc], ?_, ?_, ?_⟩
    · exact hp
    · simp only [hL]; omega
    · simp only [hL]; omega
    · simp only [List.take_append_of_le_length (show 2 ≤ s.syncBuf.length by omega), hmark]

end

/-- Every byte step keeps the synchronizer's invariant. -/
theorem syncByte_syncInv (b : Byte) {s : State} (h : SyncInv s) : SyncInv (syncByte b s) := by
  cases hp : s.syncPhase with
  | idle => simpa only [syncByte, hp] using h
  | scan => exact syncByte_scan b hp ▸ scanByte_syncInv b hp h
  | mark1 => exact syncByte_mark1 b hp ▸ mark1Byte_syncInv b hp h
  | hdr => exact syncByte_hdr b hp ▸ hdrByte_syncInv b hp h
  | body => exact syncByte_body b hp ▸ bodyByte_syncInv b hp h

theorem syncMove_syncInv {s s' : State} (h : SyncInv s) (hs : s.syncMove = some s') : SyncInv s' := by
  rcases syncMove_cases s with ⟨-, b, q, -, e⟩ | ⟨-, -, -, e⟩ | ⟨-, -, -, e⟩ | ⟨-, e⟩
  all_goals rw [hs] at e
  · obtain rfl := Option.some.inj e
    exact syncByte_syncInv b (s := { s with srcQueue := q }) h
  · obtain rfl := Option.some.inj e
    exact syncInv_endRead
  · cases e
  · cases e

/-- `pending` agrees with the phase after a synchronizer step (spec/10_state.md R21). -/
theorem syncMove_pendingInv {s s' : State} (h : PendingInv s) (hs : s.syncMove = some s') : PendingInv s' := by
  obtain ⟨hp, ⟨hphase, hpending, -⟩ | ⟨hphase, hpending, -⟩⟩ := syncMove_endsRead_or_goesOn hs
  · simp [PendingInv, hphase, hpending]
  · simp [PendingInv, hphase, hpending, h.mpr hp]

/-! ### A turn of the block -/

/-- Everything the block's turn can do: under reset nothing, the acceptance of a command, a synchronizer step, or a hold. -/
theorem step_of_blockTurn_cases {s s₁ : State} {c : Bool} (ht : blockTurn s = some (c, s₁)) :
    (step s = .next s₁ ∧ (s.resetAsserted = true ∨ s.acceptable = none ∧ s.syncMove = none))
    ∨ (∃ r s₀, Accepts s r s₀ ∧ step s = acceptCommand r s₀)
    ∨ (ByteTurn s s₁ ∧ ∃ s', s₁.syncMove = some s' ∧ step s = .next s') := by
  have hstep := step_of_blockTurn ht
  obtain ⟨l, hs₁⟩ := blockTurn_eq ht
  have hreset : s₁.resetAsserted = s.resetAsserted := by rw [hs₁]
  have hport : s₁.acceptable = s.acceptable := by rw [hs₁, acceptable_schedule]
  have hsync : s₁.syncMove = none ↔ s.syncMove = none := by rw [hs₁, syncMove_schedule]
  rcases blockMove_cases c s₁ with ⟨hr, e⟩ | ⟨hr, r, rest, ha, hm, e⟩ | ⟨hr, s', hm, ha, e⟩ | ⟨-, ha, hm, e⟩
  · exact .inl ⟨hstep.trans e, .inl (hreset ▸ hr)⟩
  · exact .inr (.inl ⟨r, _, ⟨hreset ▸ hr, c, s₁, rest, ht, hport ▸ ha, hm.imp_left hsync.mp, rfl⟩, hstep.trans e⟩)
  · have hmove : s.syncMove ≠ none := fun hn => by simp [hsync.mpr hn] at hm
    exact .inr (.inr ⟨⟨hreset ▸ hr, c, ht, (hport ▸ ha).imp_right (⟨·, hmove⟩)⟩, s', hm, hstep.trans e⟩)
  · exact .inl ⟨hstep.trans e, .inr ⟨hport ▸ ha, hsync.mp hm⟩⟩

/-- The state an accepted command runs in is the step's own but for the schedule and the port. -/
theorem Accepts.eq {s s₀ : State} {r : Request} (h : Accepts s r s₀) :
    ∃ l rest, s₀ = { s with schedule := l, port := rest } := by
  obtain ⟨-, c, s₁, rest, ht, -, -, rfl⟩ := h
  obtain ⟨l, rfl⟩ := blockTurn_eq ht
  exact ⟨l, rest, rfl⟩

/-- A busy port accepts nothing but a SYNC_ABORT (spec/70_reset_and_hazards.md R119). -/
theorem Accepts.op_of_pending {s s₀ : State} {r : Request} (h : Accepts s r s₀) (hp : s.pending = .syncRead) :
    r.op = 0x21#8 := by
  obtain ⟨-, c, s₁, rest, -, ha, -, -⟩ := h
  rw [State.acceptable, if_pos (s.busy_iff.mpr hp)] at ha
  obtain ⟨-, -, -, -, habort, -⟩ := firstAbort_eq_some.mp ha
  simpa [Request.isAbort] using habort

/-- A turn of the block that goes to no command takes the synchronizer's step, or holds. -/
theorem step_of_byteTurn {s s₀ : State} (h : ByteTurn s s₀) :
    (∃ s', s₀.syncMove = some s' ∧ step s = .next s') ∨ step s = .next s₀ := by
  obtain ⟨hr, c, ht, ha⟩ := h
  rcases step_of_blockTurn_cases ht with ⟨e, -⟩ | ⟨r, s₁, ⟨-, c', s₂, rest, ht', ha', hm, -⟩, -⟩ | ⟨-, hs⟩
  · exact .inr e
  · obtain rfl : c = c' := (Prod.mk.inj (Option.some.inj (ht.symm.trans ht'))).1
    rcases ha with ha | ⟨rfl, hne⟩
    · simp [ha] at ha'
    · simp [hne] at hm
  · exact .inl hs

/-! ### Delivery -/

theorem deliver_cases (bs : List Byte) (s : State) :
    (s.srcClosed = true ∧ s.deliver bs = s)
    ∨ (s.srcClosed = false ∧ s.deliver bs = { s with srcQueue := s.srcQueue ++ bs }) := by
  by_cases hc : s.srcClosed = true
  · exact .inl ⟨hc, s.deliver_closed bs hc⟩
  · have hopen : s.srcClosed = false := by simpa using hc
    exact .inr ⟨hopen, s.deliver_open bs hopen⟩

/-! ### Every step keeps the invariant -/

/-- With reset released, the invariant is the synchronizer's and the agreement of `pending` with the phase. -/
theorem stateInv_of_running {s : State} (hr : s.resetAsserted = false) (hs : SyncInv s) (hp : PendingInv s) :
    StateInv s :=
  ⟨hs, hp, fun h => by simp [hr] at h⟩

theorem acceptCommand_stateInv {r : Request} {s t : State} (hr : s.resetAsserted = false) (h : StateInv s)
    (ht : acceptCommand r s = .next t) : StateInv t := by
  obtain ⟨hsync, hpend, -⟩ := h
  obtain ⟨-, -, hreset⟩ := acceptCommand_frame ht
  have hrun : t.resetAsserted = false := hreset.trans hr
  rcases acceptCommand_cases r s with ⟨-, e⟩ | ⟨-, e⟩ | ⟨-, e⟩ | ⟨-, -, e⟩ | ⟨-, -, x, e⟩
  all_goals
    rw [ht] at e
    cases e
  · exact stateInv_of_running hrun hsync hpend
  · exact stateInv_of_running hrun hsync hpend
  · exact stateInv_of_running hrun ⟨rfl, rfl⟩ (by simp [PendingInv])
  · exact stateInv_of_running hrun ⟨rfl, rfl⟩ (by simp [PendingInv])
  · exact stateInv_of_running hrun hsync hpend

theorem syncMove_stateInv {s s' : State} (hr : s.resetAsserted = false) (h : StateInv s)
    (hs : s.syncMove = some s') : StateInv s' := by
  obtain ⟨hsync, hpend, -⟩ := h
  obtain ⟨-, -, hreset, -⟩ := syncMove_frame hs
  exact stateInv_of_running (hreset.trans hr) (syncMove_syncInv hsync hs) (syncMove_pendingInv hpend hs)

/-- While reset is asserted the channel is empty, so taking a response changes nothing the invariant speaks of. -/
theorem stateInv_take {s : State} (h : StateInv s) : StateInv { s with responses := s.responses.tail } := by
  obtain ⟨hsync, hpend, hreset⟩ := h
  refine ⟨hsync, hpend, fun hr => ?_⟩
  obtain ⟨hcrc, hphase, hbuf, hneed, hnone, hresp⟩ := hreset hr
  exact ⟨hcrc, hphase, hbuf, hneed, hnone, by simp [hresp]⟩

theorem stateInv_deliver {s : State} (bs : List Byte) (h : StateInv s) : StateInv (s.deliver bs) := by
  rcases deliver_cases bs s with ⟨-, e⟩ | ⟨-, e⟩ <;> rw [e] <;> exact h

theorem stateInv_assertReset (s : State) : StateInv s.assertReset :=
  ⟨⟨rfl, rfl⟩, by simp [PendingInv], fun _ => ⟨rfl, rfl, rfl, rfl, rfl, rfl⟩⟩

theorem stateInv_releaseReset {s : State} (h : StateInv s) : StateInv s.releaseReset := by
  obtain ⟨hsync, hpend, -⟩ := h
  exact stateInv_of_running rfl hsync hpend

/-- A turn of the block keeps the invariant. -/
theorem blockTurn_stateInv {s s₁ t : State} {c : Bool} (ht : blockTurn s = some (c, s₁)) (h : StateInv s)
    (hstep : step s = .next t) : StateInv t := by
  obtain ⟨l, hs₁⟩ := blockTurn_eq ht
  have h₁ : StateInv s₁ := hs₁ ▸ h
  rcases step_of_blockTurn_cases ht with ⟨e, -⟩ | ⟨r, s₀, hacc, e⟩ | ⟨⟨hr, -⟩, s', hs, e⟩
  all_goals rw [hstep] at e
  · cases e
    exact h₁
  · have hr := hacc.1
    obtain ⟨l, rest, rfl⟩ := hacc.eq
    exact acceptCommand_stateInv (s := { s with schedule := l, port := rest }) hr h e.symm
  · cases e
    have hr₁ : s₁.resetAsserted = false := by rw [hs₁]; exact hr
    exact syncMove_stateInv hr₁ h₁ hs

/-- Settles O59: by the step's cases, each agent's move keeping the invariant. -/
theorem stepKeepsInvariant : Obligations.StepKeepsInvariant := by
  intro s t h hstep
  rcases step_cases s with ⟨c, s₁, ht, -⟩ | ⟨r, l, -, e⟩ | ⟨l, -, e⟩ | ⟨bs, l, -, e⟩ | ⟨l, -, e⟩ | ⟨l, -, e⟩
    | ⟨l, -, e⟩
  case inl => exact blockTurn_stateInv ht h hstep
  all_goals
    rw [hstep] at e
    cases e
  · exact h
  · exact stateInv_take (s := { s with schedule := l }) h
  · exact stateInv_deliver (s := { s with schedule := l }) bs h
  · exact h
  · exact stateInv_assertReset _
  · exact stateInv_releaseReset (s := { s with schedule := l }) h

/-- Settles O58: reset is released, no candidate is held, and no read is pending. -/
theorem resetStateMeetsInvariant : Obligations.ResetStateMeetsInvariant :=
  stateInv_of_running rfl ⟨rfl, rfl⟩ (by simp [PendingInv, State.reset])

/-! ### One response for every accepted command -/

/-- The channel of a state, with the response a pending read still owes. -/
def State.answersGivenOrOwed (s : State) : Nat := s.responses.length + (if s.busy then 1 else 0)

theorem answers_of_none {s : State} (h : s.pending = .none) : s.answersGivenOrOwed = s.responses.length := by
  simp [State.answersGivenOrOwed, State.busy, h]

theorem answers_of_syncRead {s : State} (h : s.pending = .syncRead) :
    s.answersGivenOrOwed = s.responses.length + 1 := by
  simp [State.answersGivenOrOwed, State.busy, h]

theorem respond_answers (s : State) (x : Response) :
    (s.respond x).answersGivenOrOwed = s.answersGivenOrOwed + 1 := by
  cases hp : s.pending with
  | none => simp [answers_of_none, hp]
  | syncRead => simp [answers_of_syncRead, hp]

/-- A command the port may accept (a SYNC_READ only while none is pending) adds one response, given or owed. -/
theorem acceptCommand_answers {r : Request} {s t : State} (hread : s.pending = .syncRead → r.op = 0x21#8)
    (h : acceptCommand r s = .next t) :
    s.responses <+: t.responses ∧ t.answersGivenOrOwed = s.answersGivenOrOwed + 1 := by
  rcases acceptCommand_cases r s with ⟨-, e⟩ | ⟨-, e⟩ | ⟨hop, e⟩ | ⟨-, hp, e⟩ | ⟨-, -, x, e⟩
  all_goals
    rw [h] at e
    cases e
  · exact ⟨List.prefix_append _ _, respond_answers _ _⟩
  · exact ⟨List.prefix_append _ _, respond_answers _ _⟩
  · cases hp : s.pending with
    | syncRead => exact absurd (hop.symm.trans (hread hp)) (by decide)
    | none => exact ⟨List.prefix_rfl, by rw [answers_of_none hp, answers_of_syncRead rfl]; rfl⟩
  · refine ⟨by simp, ?_⟩
    rw [answers_of_syncRead hp, answers_of_none (by simp)]
    simp
  · exact ⟨List.prefix_append _ _, respond_answers _ _⟩

/-- A synchronizer step gives the response its read owes, or leaves it owed. -/
theorem syncMove_answers {s s' : State} (h : PendingInv s) (hs : s.syncMove = some s') :
    s.responses <+: s'.responses ∧ s'.answersGivenOrOwed = s.answersGivenOrOwed := by
  obtain ⟨hp, ⟨-, hpending, x, hresp⟩ | ⟨-, hpending, hresp⟩⟩ := syncMove_endsRead_or_goesOn hs
  · refine ⟨hresp ▸ List.prefix_append _ _, ?_⟩
    rw [answers_of_none hpending, answers_of_syncRead (h.mpr hp), hresp, List.length_append, List.length_singleton]
  · have hread := h.mpr hp
    exact ⟨hresp ▸ List.prefix_rfl,
      by rw [answers_of_syncRead hread, answers_of_syncRead (hpending.trans hread), hresp]⟩

/-- Settles O11: the command's own response, and the synchronizer's. -/
theorem acceptedCommandGetsOneResponse : Obligations.AcceptedCommandGetsOneResponse := by
  constructor
  · intro s s₀ t r hacc hstep
    have hread := hacc.op_of_pending
    rw [step_of_accepts hacc] at hstep
    obtain ⟨l, rest, rfl⟩ := hacc.eq
    exact acceptCommand_answers (s := { s with schedule := l, port := rest }) hread hstep
  · rintro s s₀ t ⟨-, hpend, -⟩ hturn hstep
    have ⟨_, c, ht, _⟩ := hturn
    obtain ⟨l, rfl⟩ := blockTurn_eq ht
    rcases step_of_byteTurn hturn with ⟨s', hs, e⟩ | e
    all_goals
      rw [hstep] at e
      cases e
    · exact syncMove_answers (s := { s with schedule := l }) hpend hs
    · exact ⟨List.prefix_rfl, rfl⟩

/-! ### The writers of the accumulator, and the byte source -/

/-- Settles O21: by the step's cases; of the block's turns only an accepted CRC_INIT or CRC_UPDATE writes `crc_acc`. -/
theorem accumulatorWritersAreInitUpdateReset : Obligations.AccumulatorWritersAreInitUpdateReset := by
  intro s t hstep
  rcases step_cases s with ⟨c, s₁, ht, -⟩ | ⟨r, l, -, e⟩ | ⟨l, -, e⟩ | ⟨bs, l, -, e⟩ | ⟨l, -, e⟩ | ⟨l, hs, e⟩
    | ⟨l, -, e⟩
  case inl =>
    obtain ⟨l, rfl⟩ := blockTurn_eq ht
    rcases step_of_blockTurn_cases ht with ⟨e, -⟩ | ⟨r, s₀, hacc, e⟩ | ⟨-, s', hs, e⟩
    all_goals rw [hstep] at e
    · cases e
      exact .inl rfl
    · obtain ⟨l, rest, rfl⟩ := hacc.eq
      rcases acceptCommand_crcAcc e.symm with hkeep | ⟨hop, hinit⟩ | ⟨hop, hupdate⟩
      · exact .inl hkeep
      · exact .inr (.inr (.inl ⟨hinit, r, _, hacc, hop⟩))
      · exact .inr (.inr (.inr ⟨r, _, hacc, hop, hupdate⟩))
    · cases e
      exact .inl (syncMove_frame hs).1
  all_goals
    rw [hstep] at e
    cases e
  · exact .inl rfl
  · exact .inl rfl
  · rcases deliver_cases bs { s with schedule := l } with ⟨-, e⟩ | ⟨-, e⟩ <;> exact .inl (by rw [e])
  · exact .inl rfl
  · exact .inr (.inl ⟨rfl, by simp [hs]⟩)
  · exact .inl rfl

/-- Settles O55: by the step's cases; only a byte step and a delivery to an open source touch the queue. -/
theorem sourceIsConsumedInOrder : Obligations.SourceIsConsumedInOrder := by
  intro s t hstep
  rcases step_cases s with ⟨c, s₁, ht, -⟩ | ⟨r, l, -, e⟩ | ⟨l, -, e⟩ | ⟨bs, l, hs, e⟩ | ⟨l, -, e⟩ | ⟨l, -, e⟩
    | ⟨l, -, e⟩
  case inl =>
    obtain ⟨l, rfl⟩ := blockTurn_eq ht
    rcases step_of_blockTurn_cases ht with ⟨e, -⟩ | ⟨r, s₀, hacc, e⟩ | ⟨hturn, s', hs, e⟩
    all_goals rw [hstep] at e
    · cases e
      exact ⟨id, .inl rfl⟩
    · obtain ⟨l, rest, rfl⟩ := hacc.eq
      obtain ⟨hqueue, hclosed, -⟩ := acceptCommand_frame e.symm
      exact ⟨hclosed.trans, .inl hqueue⟩
    · cases e
      obtain ⟨-, hclosed, -, hqueue⟩ := syncMove_frame hs
      have hphase := (syncMove_endsRead_or_goesOn hs).1
      exact ⟨hclosed.trans, hqueue.imp_right fun hb => .inl ⟨hphase, ⟨_, hturn⟩, hb⟩⟩
  all_goals
    rw [hstep] at e
    cases e
  · exact ⟨id, .inl rfl⟩
  · exact ⟨id, .inl rfl⟩
  · rcases deliver_cases bs { s with schedule := l } with ⟨-, e⟩ | ⟨hopen, e⟩
    · rw [e]
      exact ⟨id, .inl rfl⟩
    · rw [e]
      exact ⟨id, .inr (.inr ⟨hopen, bs, by simp [hs], rfl⟩)⟩
  · exact ⟨fun _ => rfl, .inl rfl⟩
  · exact ⟨id, .inl rfl⟩
  · exact ⟨id, .inl rfl⟩

/-! ### The moves of the host and the environment -/

/-- The step of a schedule that is not exhausted is its oldest move. -/
theorem step_of_schedule_cons {s : State} {m : Move} {rest : List Move} (h : s.schedule = m :: rest) :
    step s = doMove m { s with schedule := rest } := by
  simp [step, nextMove, h]

/-- Settles O56: each clause is the schedule's oldest move. -/
theorem environmentMovesAct : Obligations.EnvironmentMovesAct := by
  intro s rest
  refine ⟨fun bs hs hc => ?_, fun bs hs hc => ?_, fun hs => ?_, fun r hs => ?_, fun x xs hs hx => ?_, fun hs hx => ?_⟩
  all_goals rw [step_of_schedule_cons hs]
  · exact congrArg Host.Outcome.next (State.deliver_open { s with schedule := rest } bs hc)
  · exact congrArg Host.Outcome.next (State.deliver_closed { s with schedule := rest } bs hc)
  · rfl
  · rfl
  · simp [doMove, hx]
  · simp [doMove, hx]

end Sys2Proof.Machine
end

section
/-! PROOFS. The statement of spec/20_memory.md R32: with no SYNC_ABORT at the port the block's steps are determined, a supply
of further bytes and commands does not disturb a step it could take without them, and the work at hand bounds its steps. -/

namespace Sys2Proof.Machine

/-! ### A block that neither an abort nor reset disturbs -/

/-- The invariant holds, reset is released, and no SYNC_ABORT is at the port. -/
structure Steady (s : State) : Prop where
  inv : StateInv s
  released : s.resetAsserted = false
  noAbort : ∀ r ∈ s.port, r.op ≠ 0x21#8

/-- A step of a steady block that is no hold: an idle port accepts its oldest command, or the synchronizer moves. -/
inductive Advances (s t : State) : Prop
  | accept {r : Request} {rest : List Request} (hp : s.pending = .none) (hport : s.port = r :: rest)
      (h : acceptCommand r { s with port := rest } = .next t)
  | sync (h : s.syncMove = some t)

/-- No command touches the port it was taken from, nor the schedule. -/
theorem acceptCommand_port_schedule {r : Request} {s t : State} (h : acceptCommand r s = .next t) :
    t.port = s.port ∧ t.schedule = s.schedule := by
  rcases acceptCommand_cases r s with ⟨-, e⟩ | ⟨-, e⟩ | ⟨-, e⟩ | ⟨-, -, e⟩ | ⟨-, -, x, e⟩
  all_goals
    rw [h] at e
    cases e
    exact ⟨rfl, rfl⟩

/-- No synchronizer step touches the port or the schedule. -/
theorem syncMove_port_schedule {s t : State} (h : s.syncMove = some t) :
    t.port = s.port ∧ t.schedule = s.schedule := by
  rcases syncMove_cases s with ⟨-, b, q, -, e⟩ | ⟨-, -, -, e⟩ | ⟨-, -, -, e⟩ | ⟨-, e⟩
  all_goals rw [h] at e
  · obtain rfl := Option.some.inj e
    obtain ⟨-, -, -, -, hport, -, hschedule⟩ := syncByte_frame b { s with srcQueue := q }
    exact ⟨hport, hschedule⟩
  · obtain rfl := Option.some.inj e
    exact ⟨rfl, rfl⟩
  · cases e
  · cases e

theorem acceptable_of_pending_none {s : State} {r : Request} {rest : List Request} (hp : s.pending = .none)
    (hport : s.port = r :: rest) : s.acceptable = some (r, rest) := by
  simp [State.acceptable, s.not_busy_iff.mpr hp, hport]

/-- A synchronizer step belongs to a pending read. -/
theorem pending_of_syncMove {s t : State} (hpend : PendingInv s) (h : s.syncMove = some t) : s.pending = .syncRead :=
  hpend.mpr (syncMove_endsRead_or_goesOn h).1

section
variable {s t : State}

theorem Steady.pendingInv (hs : Steady s) : PendingInv s := by
  obtain ⟨-, hpend, -⟩ := hs.inv
  exact hpend

theorem Advances.frame (h : Advances s t) :
    t.srcClosed = s.srcClosed ∧ t.resetAsserted = s.resetAsserted ∧ t.schedule = s.schedule ∧ t.port ⊆ s.port := by
  cases h with
  | accept hp hport h =>
    obtain ⟨-, hclosed, hreset⟩ := acceptCommand_frame h
    obtain ⟨hrest, hschedule⟩ := acceptCommand_port_schedule h
    exact ⟨hclosed, hreset, hschedule, by rw [hrest, hport]; exact List.subset_cons_self _ _⟩
  | sync h =>
    obtain ⟨-, hclosed, hreset, -⟩ := syncMove_frame h
    obtain ⟨hport, hschedule⟩ := syncMove_port_schedule h
    exact ⟨hclosed, hreset, hschedule, by rw [hport]; exact List.Subset.refl _⟩

/-- A block that advances stays steady. -/
theorem Steady.of_advances (hs : Steady s) (h : Advances s t) : Steady t := by
  obtain ⟨-, hreset, -, hport⟩ := h.frame
  refine ⟨?_, hreset.trans hs.released, fun r hr => hs.noAbort r (hport hr)⟩
  cases h with
  | @accept _ rest _ _ h => exact acceptCommand_stateInv (s := { s with port := rest }) hs.released hs.inv h
  | sync h => exact syncMove_stateInv hs.released hs.inv h

/-- A busy port with no SYNC_ABORT at it holds every command (spec/70_reset_and_hazards.md R119). -/
theorem Steady.acceptable_of_syncRead (hs : Steady s) (hp : s.pending = .syncRead) : s.acceptable = none := by
  rw [State.acceptable, if_pos (s.busy_iff.mpr hp), firstAbort_eq_none]
  exact fun r hr => by simpa [Request.isAbort] using hs.noAbort r hr

/-- The one step of a steady block, whatever the choice the move carries for a race: there is none. -/
theorem Steady.blockMove_of_advances (c : Bool) (hs : Steady s) (h : Advances s t) : blockMove c s = .next t := by
  cases h with
  | accept hp hport h =>
    have hsync : s.syncMove = none := by
      by_contra hne
      obtain ⟨t', ht'⟩ := Option.ne_none_iff_exists'.mp hne
      simp [pending_of_syncMove hs.pendingInv ht'] at hp
    rw [blockMove_of_acceptable hs.released (acceptable_of_pending_none hp hport) (.inl hsync), h]
  | sync h =>
    exact blockMove_of_syncMove hs.released h (.inl (hs.acceptable_of_syncRead (pending_of_syncMove hs.pendingInv h)))

/-- A steady block holds or advances. -/
theorem Steady.holds_or_advances (c : Bool) (hs : Steady s) : blockMove c s = .next s ∨ ∃ t, Advances s t := by
  rcases blockMove_cases c s with ⟨-, e⟩ | ⟨-, r, rest, ha, -, -⟩ | ⟨-, t, hsync, -, -⟩ | ⟨-, -, -, e⟩
  · exact .inl e
  · cases hp : s.pending with
    | syncRead => simp [hs.acceptable_of_syncRead hp] at ha
    | none =>
      cases hport : s.port with
      | nil => simp [State.acceptable, s.not_busy_iff.mpr hp, hport] at ha
      | cons r rest =>
        rcases acceptCommand_cases r { s with port := rest } with ⟨-, e⟩ | ⟨-, e⟩ | ⟨-, e⟩ | ⟨-, -, e⟩
          | ⟨-, -, x, e⟩
        all_goals exact .inr ⟨_, .accept hp hport e⟩
  · exact .inr ⟨t, .sync hsync⟩
  · exact .inl e

end

/-! ### The work at hand bounds the steps -/

/-- A bound on the block's advances: one for each byte, two for each command (a SYNC_READ is accepted, and ends), and the end
of the read in progress. -/
def State.work (s : State) : Nat := s.srcQueue.length + 2 * s.port.length + (if s.busy then 1 else 0)

theorem work_of_none {s : State} (h : s.pending = .none) : s.work = s.srcQueue.length + 2 * s.port.length := by
  simp [State.work, s.not_busy_iff.mpr h]

theorem work_of_syncRead {s : State} (h : s.pending = .syncRead) :
    s.work = s.srcQueue.length + 2 * s.port.length + 1 := by
  simp [State.work, s.busy_iff.mpr h]

theorem State.work_le (s : State) : s.work ≤ s.srcQueue.length + 2 * s.port.length + 1 := by
  cases hp : s.pending with
  | none => exact (work_of_none hp).trans_le (Nat.le_add_right _ _)
  | syncRead => exact (work_of_syncRead hp).le

/-- A synchronizer step uses up a byte, or ends the read. -/
theorem syncMove_work_lt {s t : State} (hpend : PendingInv s) (h : s.syncMove = some t) : t.work < s.work := by
  rw [work_of_syncRead (pending_of_syncMove hpend h)]
  rcases syncMove_cases s with ⟨-, b, q, hq, e⟩ | ⟨-, -, -, e⟩ | ⟨-, -, -, e⟩ | ⟨-, e⟩
  all_goals rw [h] at e
  · obtain rfl := Option.some.inj e
    obtain ⟨-, -, hqueue, -, hport, -, -⟩ := syncByte_frame b { s with srcQueue := q }
    have hle := (syncByte b { s with srcQueue := q }).work_le
    rw [hqueue, hport] at hle
    dsimp only at hle
    rw [hq, List.length_cons]
    omega
  · obtain rfl := Option.some.inj e
    rw [work_of_none rfl]
    exact Nat.lt_succ_self _
  · cases e
  · cases e

theorem Advances.work_lt {s t : State} (hpend : PendingInv s) (h : Advances s t) : t.work < s.work := by
  cases h with
  | accept hp hport h =>
    obtain ⟨hqueue, -, -⟩ := acceptCommand_frame h
    have hle := t.work_le
    rw [hqueue, (acceptCommand_port_schedule h).1] at hle
    dsimp only at hle
    rw [work_of_none hp, hport, List.length_cons]
    omega
  | sync h => exact syncMove_work_lt hpend h

theorem step_of_schedule_nil {s : State} (h : s.schedule = []) : step s = blockMove true s := by
  simp [step, nextMove, h]

theorem runSteps_succ_of_step {s t : State} (n : Nat) (h : step s = .next t) : runSteps (n + 1) s = runSteps n t := by
  simp [runSteps, h]

/-- After as many steps as there is work a steady block holds: one more step changes nothing. -/
theorem Steady.runSteps_succ {n : Nat} {s : State} (hs : Steady s) (hschedule : s.schedule = []) (hn : s.work ≤ n) :
    runSteps (n + 1) s = runSteps n s := by
  induction n generalizing s with
  | zero =>
    rcases hs.holds_or_advances true with hhold | ⟨t, ht⟩
    · exact runSteps_succ_of_step 0 ((step_of_schedule_nil hschedule).trans hhold)
    · exact absurd (ht.work_lt hs.pendingInv) (by omega)
  | succ n ih =>
    rcases hs.holds_or_advances true with hhold | ⟨t, ht⟩
    · exact runSteps_succ_of_step _ ((step_of_schedule_nil hschedule).trans hhold)
    · have hstep := (step_of_schedule_nil hschedule).trans (hs.blockMove_of_advances true ht)
      have hlt := ht.work_lt hs.pendingInv
      obtain ⟨-, -, hkeeps, -⟩ := ht.frame
      rw [runSteps_succ_of_step _ hstep, runSteps_succ_of_step _ hstep]
      exact ih (hs.of_advances ht) (hkeeps.trans hschedule) (by omega)

/-! ### A supply of bytes and commands -/

/-- The state with further bytes at its source and further commands at its port, the source open or closed as said, and
nothing scheduled. -/
def State.supplied (s : State) (bytes : List Byte) (commands : List Request) (closed : Bool) : State :=
  { s with
    srcQueue := s.srcQueue ++ bytes
    srcClosed := closed
    port := s.port ++ commands
    schedule := [] }

section
variable (bytes : List Byte) (commands : List Request) (closed : Bool)

@[simp] theorem State.supplied_cfg (s : State) : (s.supplied bytes commands closed).cfg = s.cfg := rfl
@[simp] theorem State.supplied_pending (s : State) : (s.supplied bytes commands closed).pending = s.pending := rfl

/-- A command's meaning reads nothing a supply changes. -/
theorem acceptCommand_supplied {r : Request} {s t : State} (h : acceptCommand r s = .next t) :
    acceptCommand r (s.supplied bytes commands closed) = .next (t.supplied bytes commands closed) := by
  unfold acceptCommand at h ⊢
  cases hd : decodeRequest r with
  | error e =>
    rw [hd] at h
    cases h
    rfl
  | ok i =>
    rw [hd] at h
    cases i with
    | syncAbort =>
      simp only [exec, execSyncAbort, State.supplied_pending] at h ⊢
      cases hs : s.pending <;> rw [hs] at h <;> cases h <;> rfl
    | _ =>
      cases h
      rfl

theorem finishCandidate_supplied (candidate : List Byte) (s : State) :
    finishCandidate candidate (s.supplied bytes commands closed) =
      (finishCandidate candidate s).supplied bytes commands closed := by
  rcases finishCandidate_cases candidate s with ⟨f, hd, e⟩ | ⟨err, hd, e⟩
  all_goals
    rw [e, finishCandidate, State.supplied_cfg, hd]
    rfl

/-- A byte step looks at its byte and the candidate alone, never at the bytes behind. -/
theorem syncByte_supplied (b : Byte) (s : State) :
    syncByte b (s.supplied bytes commands closed) = (syncByte b s).supplied bytes commands closed := by
  have hphase : (s.supplied bytes commands closed).syncPhase = s.syncPhase := rfl
  cases hp : s.syncPhase with
  | idle => simp only [syncByte, hp, hphase]
  | scan =>
    rw [syncByte_scan b hp, syncByte_scan b (hphase.trans hp), scanByte, scanByte,
      apply_ite (State.supplied · bytes commands closed)]
    rfl
  | mark1 =>
    rw [syncByte_mark1 b hp, syncByte_mark1 b (hphase.trans hp), mark1Byte, mark1Byte,
      apply_ite (State.supplied · bytes commands closed), apply_ite (State.supplied · bytes commands closed)]
    rfl
  | hdr =>
    rw [syncByte_hdr b hp, syncByte_hdr b (hphase.trans hp), hdrByte, hdrByte,
      apply_ite (State.supplied · bytes commands closed)]
    rfl
  | body =>
    rw [syncByte_body b hp, syncByte_body b (hphase.trans hp), bodyByte, bodyByte,
      apply_ite (State.supplied · bytes commands closed), finishCandidate_supplied]
    rfl

/-- A read with a byte queued takes it, whatever stands behind the byte. -/
theorem syncMove_of_srcQueue_cons {s : State} {b : Byte} {q : List Byte} (hphase : s.syncPhase ≠ .idle)
    (hq : s.srcQueue = b :: q) : s.syncMove = some (syncByte b { s with srcQueue := q }) := by
  rcases syncMove_cases s with ⟨-, b', q', hq', e⟩ | ⟨-, hempty, -⟩ | ⟨-, hempty, -⟩ | ⟨hidle, -⟩
  · obtain ⟨rfl, rfl⟩ := List.cons.inj (hq.symm.trans hq')
    exact e
  · simp [hq] at hempty
  · simp [hq] at hempty
  · exact absurd hidle hphase

/-- A supply does not disturb an advance: an open source's end of stream is not yet come. -/
theorem Advances.supplied {s t : State} (hopen : s.srcClosed = false) (h : Advances s t) :
    Advances (s.supplied bytes commands closed) (t.supplied bytes commands closed) := by
  cases h with
  | @accept r rest hp hport h =>
    exact .accept hp (rest := rest ++ commands) (by simp [State.supplied, hport])
      (acceptCommand_supplied bytes commands closed h)
  | sync h =>
    rcases syncMove_cases s with ⟨hphase, b, q, hq, e⟩ | ⟨-, -, hclosed, -⟩ | ⟨-, -, -, e⟩ | ⟨-, e⟩
    · obtain rfl := Option.some.inj (h.symm.trans e)
      rw [← syncByte_supplied]
      exact .sync (syncMove_of_srcQueue_cons (s := s.supplied bytes commands closed) (q := q ++ bytes) hphase
        (by simp [State.supplied, hq]))
    · simp [hopen] at hclosed
    · simp [h] at e
    · simp [h] at e

theorem Steady.supplied {s : State} (hs : Steady s) (hc : ∀ r ∈ commands, r.op ≠ 0x21#8) :
    Steady (s.supplied bytes commands closed) :=
  ⟨hs.inv, hs.released, fun r hr => (List.mem_append.mp hr).elim (hs.noAbort r) (hc r)⟩

end

/-! ### What a schedule supplies -/

/-- The moves R32 speaks of: deliveries, commands other than SYNC_ABORT, and the block's own. -/
def Move.SuppliesOrBlock (m : Move) : Prop :=
  (∃ bs, m = .deliver bs) ∨ (∃ r, m = .issue r ∧ r.op ≠ 0x21#8) ∨ ∃ c, m = .block c

/-- The bytes a schedule delivers. -/
def bytesDelivered (moves : List Move) : List Byte :=
  (moves.map fun m => match m with | .deliver bs => bs | _ => []).flatten

/-- The commands a schedule issues. -/
def commandsIssued (moves : List Move) : List Request :=
  moves.filterMap fun m => match m with | .issue r => some r | _ => none

/-- The end of a schedule: the source closes, or nothing more comes. -/
def closing (closed : Bool) : List Move := if closed then [.close] else []

theorem commandsIssued_noAbort {moves : List Move} (h : ∀ m ∈ moves, m.SuppliesOrBlock) :
    ∀ r ∈ commandsIssued moves, r.op ≠ 0x21#8 := by
  intro r hr
  obtain ⟨m, hm, he⟩ := List.mem_filterMap.mp hr
  rcases h m hm with ⟨bs, rfl⟩ | ⟨r', rfl, hop⟩ | ⟨c, rfl⟩
  · cases he
  · cases he
    exact hop
  · cases he

/-- A delivery or an issue brings its supply; a move of the block holds, or does what the supplied block would do as well. -/
theorem Steady.step_of_move {closed : Bool} {m : Move} {moves later : List Move} {s : State} (hs : Steady s)
    (hopen : s.srcClosed = false) (hschedule : s.schedule = m :: later) (hm : m.SuppliesOrBlock) :
    ∃ t, step s = .next t ∧ Steady t ∧ t.srcClosed = false ∧ t.schedule = later
      ∧ (t.supplied (bytesDelivered moves) (commandsIssued moves) closed
            = s.supplied (bytesDelivered (m :: moves)) (commandsIssued (m :: moves)) closed
        ∨ Advances (s.supplied (bytesDelivered (m :: moves)) (commandsIssued (m :: moves)) closed)
            (t.supplied (bytesDelivered moves) (commandsIssued moves) closed)) := by
  have hstep := step_of_schedule_cons hschedule
  rcases hm with ⟨bs, rfl⟩ | ⟨r, rfl, hop⟩ | ⟨c, rfl⟩
  · refine ⟨{ s with srcQueue := s.srcQueue ++ bs, schedule := later }, ?_, ⟨hs.inv, hs.released, hs.noAbort⟩,
      hopen, rfl, .inl ?_⟩
    · rw [hstep]
      exact congrArg Host.Outcome.next (State.deliver_open { s with schedule := later } bs hopen)
    · simp [State.supplied, bytesDelivered, commandsIssued]
  · refine ⟨_, hstep, ⟨hs.inv, hs.released, ?_⟩, hopen, rfl, .inl ?_⟩
    · intro x hx
      rcases List.mem_append.mp hx with hx | hx
      · exact hs.noAbort x hx
      · exact List.mem_singleton.mp hx ▸ hop
    · simp [State.supplied, bytesDelivered, commandsIssued]
  · have hs' : Steady { s with schedule := later } := ⟨hs.inv, hs.released, hs.noAbort⟩
    rcases hs'.holds_or_advances c with hhold | ⟨t, ht⟩
    · exact ⟨_, hstep.trans hhold, hs', hopen, rfl, .inl rfl⟩
    · obtain ⟨hclosed, -, hlater, -⟩ := ht.frame
      exact ⟨t, hstep.trans (hs'.blockMove_of_advances c ht), hs'.of_advances ht, hclosed.trans hopen, hlater,
        .inr (Advances.supplied (s := { s with schedule := later }) _ _ closed hopen ht)⟩

/-- With nothing left to come but the closing of the source. -/
theorem runSteps_closing {closed : Bool} (n : Nat) {s : State} (hopen : s.srcClosed = false)
    (hschedule : s.schedule = closing closed) :
    runSteps (n + (closing closed).length) s = runSteps n (s.supplied [] [] closed) := by
  cases closed with
  | false =>
    have hnothing : s.supplied [] [] false = s := by
      rw [State.supplied, List.append_nil, List.append_nil, ← hopen, ← show s.schedule = [] from hschedule]
    rw [hnothing]
    rfl
  | true =>
    have hclose : step s = .next (s.supplied [] [] true) := by
      rw [step_of_schedule_cons hschedule, State.supplied, List.append_nil, List.append_nil]
      rfl
    exact runSteps_succ_of_step n hclose

/-- The supply of a schedule may come first: what the block does between the other moves is work it would do anyway. -/
theorem Steady.runSteps_schedule {closed : Bool} {n : Nat} {moves : List Move} {s : State} (hs : Steady s)
    (hopen : s.srcClosed = false) (hschedule : s.schedule = moves ++ closing closed)
    (hmoves : ∀ m ∈ moves, m.SuppliesOrBlock)
    (hn : (s.supplied (bytesDelivered moves) (commandsIssued moves) closed).work ≤ n) :
    runSteps (n + (closing closed).length + moves.length) s =
      runSteps n (s.supplied (bytesDelivered moves) (commandsIssued moves) closed) := by
  induction moves generalizing s with
  | nil => exact runSteps_closing n hopen hschedule
  | cons m rest ih =>
    have hrest : ∀ x ∈ rest, x.SuppliesOrBlock := fun x hx => hmoves x (List.mem_cons_of_mem m hx)
    have hfull := hs.supplied (bytesDelivered (m :: rest)) _ closed (commandsIssued_noAbort hmoves)
    obtain ⟨t, hstep, ht, htopen, htschedule, hsame | hadvances⟩ :=
      hs.step_of_move (closed := closed) (moves := rest) hopen hschedule (hmoves m List.mem_cons_self)
    all_goals rw [List.length_cons, ← Nat.add_assoc, runSteps_succ_of_step _ hstep]
    · rw [← hsame] at hn ⊢
      exact ih ht htopen htschedule hrest hn
    · have hless := hadvances.work_lt hfull.pendingInv
      have hfirst := (step_of_schedule_nil rfl).trans (hfull.blockMove_of_advances true hadvances)
      calc runSteps (n + (closing closed).length + rest.length) t
          = runSteps n (t.supplied (bytesDelivered rest) (commandsIssued rest) closed) :=
            ih ht htopen htschedule hrest (by omega)
        _ = runSteps (n + 1) (s.supplied (bytesDelivered (m :: rest)) (commandsIssued (m :: rest)) closed) :=
            (runSteps_succ_of_step n hfirst).symm
        _ = runSteps n (s.supplied (bytesDelivered (m :: rest)) (commandsIssued (m :: rest)) closed) :=
            hfull.runSteps_succ rfl hn

/-- Settles O47, by induction on the moves (`Steady.runSteps_schedule`): each step of the block commutes with the supply still
to come, and the work at hand is within the steps allowed. -/
theorem deliverySplitIsInvisible : Obligations.DeliverySplitIsInvisible := by
  intro s moves n hinv hreset hopen hport hmoves bytes commands hn
  have hs (l : List Move) : Steady { s with schedule := l } := ⟨hinv, hreset, hport⟩
  have hwork (closed : Bool) : (s.supplied (bytesDelivered moves) (commandsIssued moves) closed).work ≤ n :=
    (State.work_le _).trans hn
  constructor
  · have hnothing : closing s.srcClosed = [] := by rw [hopen]; rfl
    have hrun := (hs moves).runSteps_schedule (closed := s.srcClosed) hopen (by rw [hnothing, List.append_nil]) hmoves
      (hwork _)
    rw [hnothing] at hrun
    rw [Nat.add_comm]
    exact hrun
  · have hrun := (hs (moves ++ [.close])).runSteps_schedule (closed := true) hopen rfl hmoves (hwork true)
    rw [show moves.length + 1 + n = n + 1 + moves.length by omega]
    exact hrun

end Sys2Proof.Machine
end

section
/-! PROOFS. The statements of spec/30_encoding.md on the request bundle: its flat image read back, the decoder's table, the
encoder against it, and the step that runs the command the port accepts. -/

namespace Sys2Proof

open Sys2Proof.Machine

/-! ### The flat image read back -/

/-- The two bytes of a 16-bit field, put together again. -/
theorem le16_bytes_append (x : Half) : (x.extractLsb' 8 8 ++ x.extractLsb' 0 8 : Half) = x :=
  (BitVec.extractLsb'_append_extractLsb'_eq_extractLsb' rfl).trans BitVec.extractLsb'_eq_self

/-- The four bytes of a 32-bit field, put together again. -/
theorem le32_bytes_append (x : Word) :
    ((x.extractLsb' 24 8 ++ x.extractLsb' 16 8 : Half) ++ (x.extractLsb' 8 8 ++ x.extractLsb' 0 8 : Half) : Word) = x := by
  have high : (x.extractLsb' 24 8 ++ x.extractLsb' 16 8 : Half) = x.extractLsb' 16 16 :=
    BitVec.extractLsb'_append_extractLsb'_eq_extractLsb' rfl
  have low : (x.extractLsb' 8 8 ++ x.extractLsb' 0 8 : Half) = x.extractLsb' 0 16 :=
    BitVec.extractLsb'_append_extractLsb'_eq_extractLsb' rfl
  rw [high, low]
  exact (BitVec.extractLsb'_append_extractLsb'_eq_extractLsb' rfl).trans BitVec.extractLsb'_eq_self

/-- A bundle is read back from its flat image, whatever bytes follow it. -/
theorem ofBytes_toBytes (r : Request) (rest : List Byte) : Request.ofBytes (r.toBytes ++ rest) = some (r, rest) := by
  have hfits : r.bufLen.toNat ≤ (r.buf ++ rest).length := by simp [r.buf_length]
  simp only [Request.toBytes, le16, le32, List.cons_append, List.nil_append, Request.ofBytes, le16_bytes_append,
    le32_bytes_append, dif_pos hfits]
  simp [← r.buf_length]

/-! ### The decoder's table -/

/-- The codes outside the table of R50 are the ranges of R52. -/
theorem legalOp_eq_false_iff (op : Byte) :
    legalOp op = false ↔
      op.toNat = 0x00 ∨ (0x05 ≤ op.toNat ∧ op.toNat ≤ 0x0F) ∨ (0x12 ≤ op.toNat ∧ op.toNat ≤ 0x1F) ∨ 0x22 ≤ op.toNat := by
  simp only [legalOp, List.contains_eq_mem, List.mem_cons, List.not_mem_nil, or_false, decide_eq_false_iff_not,
    BitVec.toNat_eq, BitVec.toNat_ofNat]
  omega

/-- The decoder rejects a bundle exactly when its `op` is outside the table. -/
theorem decodeRequest_eq_error_iff (r : Request) :
    decodeRequest r = .error (.illegalOp r.op) ↔ legalOp r.op = false := by
  rcases decodeRequest_cases r with ⟨h, e⟩ | ⟨h, e⟩ | ⟨h, e⟩ | ⟨h, e⟩ | ⟨h, e⟩ | ⟨h, e⟩ | ⟨h, e⟩ | ⟨h, e⟩ | ⟨h, e⟩
  case inr.inr.inr.inr.inr.inr.inr.inr => simp [e, h]
  all_goals simp [e, h, legalOp]

theorem legalOp_of_decodes {r : Request} {i : Instr} (h : decodeRequest r = .ok i) : legalOp r.op = true := by
  rw [← Bool.not_eq_false, ← decodeRequest_eq_error_iff, h]
  simp

/-- Settles O1: each code selects its branch, and the codes rejected are those outside the table. -/
theorem decoderFollowsCommandTable : Obligations.DecoderFollowsCommandTable := by
  intro r
  refine ⟨fun h => ?_, fun h => ?_, fun h => ?_, fun h => ?_, fun h => ?_, fun h => ?_, fun h => ?_, fun h => ?_,
    (decodeRequest_eq_error_iff r).trans (legalOp_eq_false_iff r.op)⟩
  all_goals simp [decodeRequest, h]

/-- Settles O5: both bundles take the branch of their common code, which reads only fields they agree on. -/
theorem unreadFieldsAreIgnored : Obligations.UnreadFieldsAreIgnored := by
  intro r r' hop hbyte hfields hbuf
  obtain ⟨hinit, hupdate, hfinal, hcompute, hencode, hdecode, hread, habort, hreject⟩ := decoderFollowsCommandTable r'
  rcases decodeRequest_cases r with ⟨h, e⟩ | ⟨h, e⟩ | ⟨h, e⟩ | ⟨h, e⟩ | ⟨h, e⟩ | ⟨h, e⟩ | ⟨h, e⟩ | ⟨h, e⟩ | ⟨h, e⟩
  all_goals rw [e]
  · rw [hinit (hop ▸ h)]
  · rw [hupdate (hop ▸ h), hbyte h]
  · rw [hfinal (hop ▸ h)]
  · rw [hcompute (hop ▸ h), hbuf (.inl h)]
  · obtain ⟨hversion, hmtype, hflags, haddress, hsequence⟩ := hfields h
    rw [hencode (hop ▸ h), hversion, hmtype, hflags, haddress, hsequence, hbuf (.inr (.inl h))]
  · rw [hdecode (hop ▸ h), hbuf (.inr (.inr h))]
  · rw [hread (hop ▸ h)]
  · rw [habort (hop ▸ h)]
  · rw [hop, (decodeRequest_eq_error_iff r').mpr (hop ▸ h)]

/-! ### The decoder on bytes -/

/-- The image of a bundle that decodes gives its command and the bytes behind it. -/
theorem decodeBytes_toBytes {r : Request} {i : Instr} (h : decodeRequest r = .ok i) (rest : List Byte) :
    decodeBytes (r.toBytes ++ rest) = .ok (i, rest) := by
  have himage : r.toBytes ++ rest = r.op :: (r.toBytes.tail ++ rest) := rfl
  rw [himage, decodeBytes, if_pos (legalOp_of_decodes h), ← himage, ofBytes_toBytes]
  simp only [h]

/-- A command read from bytes is the one the bundle at their front decodes to. -/
theorem ofBytes_of_decodeBytes {bs rest : List Byte} {i : Instr} (h : decodeBytes bs = .ok (i, rest)) :
    ∃ r, Request.ofBytes bs = some (r, rest) ∧ decodeRequest r = .ok i := by
  cases bs with
  | nil => simp [decodeBytes] at h
  | cons op bs =>
    rw [decodeBytes] at h
    split at h
    · split at h
      · cases h
      · next r _ hr =>
        split at h
        · next hi =>
          cases h
          exact ⟨r, hr, hi⟩
        · cases h
    · cases h

/-- The bundle an opcode-table word stands for decodes to the word's command. -/
theorem decodeRequest_requestOfTableWord {nbits w : Nat} {i : Instr} (h : decodeTableWord nbits w = some i) :
    decodeRequest (requestOfTableWord nbits w) = .ok i := by
  rw [decodeTableWord] at h
  split at h
  · next hbytes =>
    cases h
    obtain ⟨r, hr, hi⟩ := ofBytes_of_decodeBytes hbytes
    rw [requestOfTableWord, hr]
    exact hi
  · cases h

/-- Settles O2: the model decodes each image. -/
theorem sampleWordsDecode : Obligations.SampleWordsDecode :=
  ⟨rfl, rfl, rfl, rfl, rfl, rfl, rfl, rfl, rfl, rfl, rfl⟩

/-! ### The encoder -/

theorem withBuffer_buf (op : Byte) {buf : List Byte} (h : bufferFits buf = true) :
    (Request.withBuffer op buf).buf = buf := by
  have hlen : buf.length < 65536 := by simpa [bufferFits] using h
  simp [Request.withBuffer, Nat.mod_eq_of_lt hlen]

/-- Every buffer of a bundle is one `buf_len` can describe. -/
theorem request_bufferFits (r : Request) : bufferFits r.buf = true := by
  simpa [bufferFits, r.buf_length] using r.bufLen.isLt

/-- The bundle of a well-formed command decodes to it. -/
theorem decodeRequest_encodeRequest {i : Instr} (h : i.wellFormed = true) : decodeRequest (encodeRequest i) = .ok i := by
  cases i with
  | crcCompute buf => exact congrArg (Except.ok <| Instr.crcCompute ·) (withBuffer_buf 0x04#8 h)
  | encode v t f a q buf => exact congrArg (Except.ok <| Instr.encode v t f a q ·) (withBuffer_buf 0x10#8 h)
  | decode buf => exact congrArg (Except.ok <| Instr.decode ·) (withBuffer_buf 0x11#8 h)
  | _ => rfl

/-- Settles O3: the image is the command's bundle's, which is read back and decodes to the command. -/
theorem decodeOfEncodeIsIdentity : Obligations.DecodeOfEncodeIsIdentity :=
  fun _ rest h => decodeBytes_toBytes (decodeRequest_encodeRequest h) rest

/-- A command a bundle decodes to is well formed, and its own bundle carries the same code. -/
theorem wellFormed_and_op_of_decodes {r : Request} {i : Instr} (h : decodeRequest r = .ok i) :
    i.wellFormed = true ∧ (encodeRequest i).op = r.op := by
  rcases decodeRequest_cases r with ⟨ho, e⟩ | ⟨ho, e⟩ | ⟨ho, e⟩ | ⟨ho, e⟩ | ⟨ho, e⟩ | ⟨ho, e⟩ | ⟨ho, e⟩ | ⟨ho, e⟩ | ⟨ho, e⟩
  all_goals
    rw [h] at e
    cases e
  case inr.inr.inr.inl => exact ⟨request_bufferFits r, ho.symm⟩
  case inr.inr.inr.inr.inl => exact ⟨request_bufferFits r, ho.symm⟩
  case inr.inr.inr.inr.inr.inl => exact ⟨request_bufferFits r, ho.symm⟩
  all_goals exact ⟨rfl, ho.symm⟩

/-- Settles O4: the bundle's buffer fits, so the command's own bundle decodes to it. -/
theorem decodedCommandReencodes : Obligations.DecodedCommandReencodes := by
  intro r i h
  obtain ⟨hwf, hop⟩ := wellFormed_and_op_of_decodes h
  exact ⟨hwf, hop, decodeRequest_encodeRequest hwf⟩

end Sys2Proof

namespace Sys2Proof.Machine

/-! ### The step that runs the command -/

/-- The port runs the command a bundle decodes to. -/
theorem acceptCommand_of_decodes {r : Request} {i : Instr} (h : decodeRequest r = .ok i) (s : State) :
    acceptCommand r s = exec i s := by
  simp only [acceptCommand, h]

/-- Settles O6: the step accepts the bundle, and accepting it runs its command. -/
theorem stepRunsDecodedCommand : Obligations.StepRunsDecodedCommand :=
  fun _ s₀ _ _ hacc hdec => (step_of_accepts hacc).trans (acceptCommand_of_decodes hdec s₀)

/-- The port accepts its oldest command when it is not busy, or when that command is a SYNC_ABORT. -/
theorem acceptable_of_port_cons {s : State} {r : Request} {rest : List Request} (hport : s.port = r :: rest)
    (h : s.pending = .none ∨ r.isAbort = true) : s.acceptable = some (r, rest) := by
  cases hp : s.pending with
  | none => exact acceptable_of_pending_none hp hport
  | syncRead =>
    have habort : r.isAbort = true := by simpa [hp] using h
    rw [State.acceptable, if_pos (s.busy_iff.mpr hp), hport]
    exact firstAbort_eq_some.mpr ⟨[], rest, rfl, rfl, habort, by simp⟩

/-- `withCommand` ends no read where the port could accept the command. -/
theorem withCommand_of_not_held {s : State} {r : Request} (h : s.pending = .none ∨ r.isAbort = true) :
    s.withCommand r =
      { s with port := r :: s.port, schedule := .block true :: s.schedule, resetAsserted := false } := by
  rw [State.withCommand, if_neg]
  rcases h with h | h
  · simp [s.not_busy_iff.mpr h]
  · simp [h]

/-- `withCommand` ends a read that would hold the command. -/
theorem withCommand_of_held {s : State} {r : Request} (hp : s.pending = .syncRead) (h : r.isAbort = false) :
    s.withCommand r = s.endRead.withCommand r := by
  rw [withCommand_of_not_held (s := s.endRead) (.inl rfl), State.withCommand, if_pos (by simp [s.busy_iff.mpr hp, h])]
  rfl

/-- The command that `withCommand` puts at the port is the one the next step accepts. -/
theorem accepts_withCommand {s : State} {r : Request} (h : s.pending = .none ∨ r.isAbort = true) :
    Accepts (s.withCommand r) r { s with resetAsserted := false } := by
  rw [withCommand_of_not_held h]
  exact ⟨rfl, true, _, s.port, rfl, acceptable_of_port_cons rfl h, .inr rfl, rfl⟩

/-- Settles O7: the word's bundle decodes to its command, and the next step accepts that bundle. -/
theorem fetchWordRunsDecodedCommand : Obligations.FetchWordRunsDecodedCommand := by
  intro s nbits w i hword
  have hdec := decodeRequest_requestOfTableWord hword
  have habort : (requestOfTableWord nbits w).isAbort = true ↔ i = .syncAbort := by
    simp [isAbort_iff_decodes, hdec]
  have hrun {s' : State} (h : s'.pending = .none ∨ i = .syncAbort) :=
    stepRunsDecodedCommand _ _ _ _ (accepts_withCommand (s := s') (h.imp_right habort.mpr)) hdec
  refine ⟨hrun, fun hp hi => ?_⟩
  rw [State.withFetchWord, withCommand_of_held hp (Bool.eq_false_iff.mpr fun h => hi (habort.mp h))]
  exact hrun (.inl rfl)

end Sys2Proof.Machine
end

section
/-! PROOFS. The responses of spec/30_encoding.md R53 and R54: each answer the block gives is legal, a command or a
synchronizer step adds legal answers only, and so does every step. -/

namespace Sys2Proof.Machine

/-! ### The answers of the codec -/

/-- A wire frame is 13 bytes and its payload (spec/41_codec.md R68). -/
theorem wireFrame_length (cfg : Config) (v t f a : Half) (q : Word) (p : List Byte) :
    (wireFrame cfg v t f a q p).length = 13 + p.length := by
  simp [wireFrame, frameBody, be16, be32]
  omega

/-- ENCODE answers with a frame of 13 to 268 bytes, or with the operand that fails. -/
theorem encodeResponse_legal (cfg : Config) (v t f a : Half) (q : Word) (p : List Byte) :
    (encodeResponse (encodeFrame cfg v t f a q p)).Legal cfg := by
  rw [encodeFrame]
  cases h : encodeInvalid cfg v t f a q p with
  | some field => exact ⟨field, rfl⟩
  | none =>
    obtain ⟨-, -, -, -, -, hp⟩ := (encodeInvalid_eq_none cfg v t f a q p).mp h
    have hlen := wireFrame_length cfg v t f a q p
    exact .inr (.inl ⟨_, by omega, by omega, rfl⟩)

/-- A frame that decodes is answered with a legal record. -/
theorem frameResponse_legal {cfg : Config} {c : List Byte} {f : FrameRecord} (h : decodeFrame cfg c = .ok f) :
    Response.Legal cfg { status := .ok, frame := some f } := by
  obtain ⟨-, -, -, htype, -, rfl⟩ := decodeFrame_ok h
  have hmember : byteAt c 3 ∈ cfg.types.toList := by simpa [isMsgType] using htype
  refine .inr (.inr ⟨_, ?_, hmember, rfl⟩)
  have hL : (byteAt c 8).toNat < 256 := (byteAt c 8).isLt
  simp only [frameRecord, slice, List.length_take]
  omega

/-- DECODE's answer is legal: OVERSIZE is no outcome, and CHECKSUM comes with two CRCs that differ. -/
theorem decodeResponse_legal (cfg : Config) (c : List Byte) : (decodeResponse (decodeFrame cfg c)).Legal cfg := by
  rcases decodeFrame_cases cfg c with ⟨-, e⟩ | ⟨-, -, e⟩ | ⟨-, -, -, -, e⟩ | ⟨-, -, -, -, e⟩ | ⟨-, -, -, -, hcrc, e⟩
    | ⟨-, -, -, -, -, e⟩
  case inr.inr.inr.inr.inr =>
    rw [e]
    exact frameResponse_legal e
  all_goals rw [e]
  · exact ⟨.short, by simp, rfl⟩
  · exact ⟨.marker, by simp, rfl⟩
  · exact ⟨.length, by simp, rfl⟩
  · exact ⟨.type, by simp, rfl⟩
  · exact ⟨_, _, hcrc, rfl⟩

/-! ### The channel -/

/-- Every response in the channel is one the block may produce. -/
def ResponsesLegal (s : State) : Prop := ∀ r ∈ s.responses, r.Legal s.cfg

/-- An answer with a value, or with nothing but its status OK, is legal. -/
theorem valueResponse_legal (cfg : Config) (v : Word) : Response.Legal cfg { status := .ok, value := v } :=
  .inl ⟨v, rfl⟩

theorem ResponsesLegal.respond {s : State} {x : Response} (h : ResponsesLegal s) (hx : x.Legal s.cfg) :
    ResponsesLegal (s.respond x) := by
  intro r hr
  rcases List.mem_append.mp hr with hr | hr
  · exact h r hr
  · rw [List.mem_singleton.mp hr]
    exact hx

theorem ResponsesLegal.take {s : State} (h : ResponsesLegal s) :
    ResponsesLegal { s with responses := s.responses.tail } :=
  fun r hr => h r (List.mem_of_mem_tail hr)

/-- SYNC_ABORT answers ABORTED for the read it ends, then OK for itself. -/
theorem execSyncAbort_responsesLegal {s t : State} (h : ResponsesLegal s) (ht : execSyncAbort s = .next t) :
    ResponsesLegal t := by
  rw [execSyncAbort] at ht
  cases hp : s.pending with
  | none =>
    rw [hp] at ht
    cases ht
    exact h.respond (valueResponse_legal _ 0)
  | syncRead =>
    rw [hp] at ht
    cases ht
    have hended : ResponsesLegal (s.raiseError .aborted).endRead := h.respond (x := { status := .aborted }) rfl
    exact hended.respond (valueResponse_legal _ 0)

/-- A command leaves a legal channel legal. -/
theorem exec_responsesLegal {i : Instr} {s t : State} (h : ResponsesLegal s) (ht : exec i s = .next t) :
    ResponsesLegal t := by
  have hcrc (c : Word) : ResponsesLegal { s with crcAcc := c } := h
  cases i
  case syncAbort => exact execSyncAbort_responsesLegal h ht
  all_goals cases ht
  case crcInit => exact (hcrc _).respond (valueResponse_legal _ 0)
  case crcUpdate => exact (hcrc _).respond (valueResponse_legal _ 0)
  case crcFinal => exact h.respond (valueResponse_legal _ _)
  case crcCompute => exact h.respond (valueResponse_legal _ _)
  case encode => exact h.respond (encodeResponse_legal _ _ _ _ _ _ _)
  case decode => exact h.respond (decodeResponse_legal _ _)
  case syncRead => exact h

/-- An accepted bundle leaves a legal channel legal, also where no command answers to its `op`. -/
theorem acceptCommand_responsesLegal {r : Request} {s t : State} (h : ResponsesLegal s)
    (ht : acceptCommand r s = .next t) : ResponsesLegal t := by
  cases hdec : decodeRequest r with
  | ok i => exact exec_responsesLegal h ((acceptCommand_of_decodes hdec s).symm.trans ht)
  | error e =>
    rw [acceptCommand, hdec] at ht
    cases ht
    exact h.respond (x := { status := .illegalCommand }) rfl

/-- A byte step leaves a legal channel legal: it responds only with a frame its candidate decodes to. -/
theorem syncByte_responsesLegal (b : Byte) {s : State} (h : ResponsesLegal s) : ResponsesLegal (syncByte b s) := by
  cases hp : s.syncPhase with
  | idle => simpa only [syncByte, hp] using h
  | scan =>
    rw [syncByte_scan b hp, scanByte]
    split <;> exact h
  | mark1 =>
    rw [syncByte_mark1 b hp, mark1Byte]
    (repeat' split) <;> exact h
  | hdr =>
    rw [syncByte_hdr b hp, hdrByte]
    split <;> exact h
  | body =>
    rw [syncByte_body b hp, bodyByte]
    split
    · rcases finishCandidate_cases (s.syncBuf ++ [b]) s with ⟨f, hf, e⟩ | ⟨err, -, e⟩
      · rw [e]
        exact h.respond (frameResponse_legal hf)
      · rw [e]
        exact h
    · exact h

/-- A synchronizer step leaves a legal channel legal. -/
theorem syncMove_responsesLegal {s s' : State} (h : ResponsesLegal s) (hs : s.syncMove = some s') :
    ResponsesLegal s' := by
  rcases syncMove_cases s with ⟨-, b, q, -, e⟩ | ⟨-, -, -, e⟩ | ⟨-, -, -, e⟩ | ⟨-, e⟩
  all_goals rw [hs] at e
  · obtain rfl := Option.some.inj e
    exact syncByte_responsesLegal b (s := { s with srcQueue := q }) h
  · obtain rfl := Option.some.inj e
    exact h.respond (x := { status := .streamClosed }) rfl
  · cases e
  · cases e

/-- A turn of the block leaves a legal channel legal. -/
theorem blockTurn_responsesLegal {s s₁ t : State} {c : Bool} (ht : blockTurn s = some (c, s₁)) (h : ResponsesLegal s)
    (hstep : step s = .next t) : ResponsesLegal t := by
  obtain ⟨l, hs₁⟩ := blockTurn_eq ht
  have h₁ : ResponsesLegal s₁ := hs₁ ▸ h
  rcases step_of_blockTurn_cases ht with ⟨e, -⟩ | ⟨r, s₀, hacc, e⟩ | ⟨-, s', hs, e⟩
  all_goals rw [hstep] at e
  · cases e
    exact h₁
  · obtain ⟨l, rest, rfl⟩ := hacc.eq
    exact acceptCommand_responsesLegal (s := { s with schedule := l, port := rest }) h e.symm
  · cases e
    exact syncMove_responsesLegal h₁ hs

/-- Settles O60: by the step's cases; besides the block's turns, only the host's take and reset touch the channel. -/
theorem stepKeepsResponsesLegal : Obligations.StepKeepsResponsesLegal := by
  intro s t h hstep
  change ResponsesLegal t
  rcases step_cases s with ⟨c, s₁, ht, -⟩ | ⟨r, l, -, e⟩ | ⟨l, -, e⟩ | ⟨bs, l, -, e⟩ | ⟨l, -, e⟩ | ⟨l, -, e⟩
    | ⟨l, -, e⟩
  case inl => exact blockTurn_responsesLegal ht h hstep
  all_goals
    rw [hstep] at e
    cases e
  · exact h
  · exact ResponsesLegal.take (s := { s with schedule := l }) h
  · rcases deliver_cases bs { s with schedule := l } with ⟨-, e⟩ | ⟨-, e⟩ <;> rw [e] <;> exact h
  · exact h
  · simp [ResponsesLegal]
  · exact h

end Sys2Proof.Machine
end

section
/-! PROOFS. The statements of spec/40_crc.md: the shift step can be inverted, so the fold over a byte string is injective in the
register and in each byte; a command list's updates drive `crc_acc` by that fold; codec and synchronizer commute with a write
of `crc_acc`. -/

namespace Sys2Proof.Machine

/-! ### The shift step and the byte step (R56) -/

theorem crcShifts_eq_iterate (n : Nat) (c : Word) : crcShifts n c = crcShift^[n] c := by
  induction n generalizing c with
  | zero => rfl
  | succ n ih => rw [crcShifts, ih, Function.iterate_succ_apply]

/-- Bit 31 of the polynomial is 1, so the top bit of the result tells which branch the shift took. -/
theorem crcShift_getLsbD_31 (c : Word) : (crcShift c).getLsbD 31 = c.getLsbD 0 := by
  unfold crcShift
  split <;> simp_all [crcPoly]

theorem crcShift_injective : Function.Injective crcShift := by
  intro c d h
  have hlow : c.getLsbD 0 = d.getLsbD 0 := by rw [← crcShift_getLsbD_31, h, crcShift_getLsbD_31]
  have hrest : c >>> 1 = d >>> 1 := by
    rw [crcShift, crcShift, hlow] at h
    split at h
    · exact (BitVec.xor_left_inj _).mp h
    · exact h
  refine BitVec.eq_of_getLsbD_eq fun i _ => ?_
  cases i with
  | zero => exact hlow
  | succ i =>
    have hbit := congrArg (BitVec.getLsbD · i) hrest
    simpa only [BitVec.getLsbD_ushiftRight, Nat.add_comm 1 i] using hbit

theorem crcShifts_injective (n : Nat) : Function.Injective (crcShifts n) := by
  rw [funext (crcShifts_eq_iterate n)]
  exact crcShift_injective.iterate n

/-- For a fixed byte the register before the step can be recovered from the one after it. -/
theorem crcStep_injective_left (b : Byte) : Function.Injective (crcStep · b) :=
  fun _ _ h => (BitVec.xor_left_inj _).mp (crcShifts_injective 8 h)

/-- For a fixed register different bytes give different registers. -/
theorem crcStep_injective_right (c : Word) : Function.Injective (crcStep c) := by
  intro a b h
  have hwide : a.setWidth 32 = b.setWidth 32 := (BitVec.xor_right_inj c).mp (crcShifts_injective 8 h)
  simpa using congrArg (BitVec.setWidth 8) hwide

/-! ### CRC-32 of a byte string (R57) -/

theorem foldl_crcStep_injective (bs : List Byte) : Function.Injective (bs.foldl crcStep) := by
  induction bs with
  | nil => exact Function.injective_id
  | cons b bs ih => exact ih.comp (crcStep_injective_left b)

/-- Byte strings that differ in one byte have the same CRC only if that byte is the same: the registers agree up to the byte,
differ behind it, and no later byte brings them together again. -/
theorem crc32_set_inj {bs : List Byte} {i : Nat} (h : i < bs.length) {a b : Byte} :
    crc32 (bs.set i a) = crc32 (bs.set i b) ↔ a = b := by
  refine ⟨fun heq => ?_, fun heq => by rw [heq]⟩
  have hfold := (BitVec.xor_left_inj crcXorOut).mp heq
  simp only [List.set_eq_take_cons_drop _ h, List.foldl_append, List.foldl_cons] at hfold
  exact crcStep_injective_right _ (foldl_crcStep_injective _ hfold)

/-- Settles O20: the flipped byte is another byte at its place. -/
theorem crcDetectsSingleBitFlip : Obligations.CrcDetectsSingleBitFlip := by
  intro bs i j hi hj hsame
  have hmask : ∀ k < 8, 1#8 <<< k ≠ 0#8 := by decide
  have hbs : bs.set i (byteAt bs i) = bs := by rw [byteAt, List.getD_eq_getElem bs 0 hi, List.set_getElem_self]
  have hbyte : byteAt bs i ^^^ (1#8 <<< j) = byteAt bs i := (crc32_set_inj hi).mp (hsame.trans (by rw [hbs]))
  refine hmask j hj ((BitVec.xor_right_inj (byteAt bs i)).mp ?_)
  rw [hbyte, BitVec.xor_zero]

/-- Settles O14: the loop is `crcShift` iterated; the rest is the definition and its check values. -/
theorem crcIsBitSerialFold : Obligations.CrcIsBitSerialFold :=
  ⟨fun c b => crcShifts_eq_iterate 8 (c ^^^ b.setWidth 32), by decide +kernel, fun _ => rfl, rfl, by decide +kernel⟩

/-! ### The commands of the CRC unit (R58 to R61) -/

theorem exec_crcInit (s : State) :
    exec .crcInit s = .next ({ s with crcAcc := crcInitValue }.respond { status := .ok }) := rfl

theorem exec_crcUpdate (b : Byte) (s : State) :
    exec (.crcUpdate b) s = .next ({ s with crcAcc := crcStep s.crcAcc b }.respond { status := .ok }) := rfl

theorem exec_crcFinal (s : State) :
    exec .crcFinal s = .next (s.respond { status := .ok, value := s.crcAcc ^^^ crcXorOut }) := rfl

theorem exec_crcCompute (buf : List Byte) (s : State) :
    exec (.crcCompute buf) s = .next (s.respond { status := .ok, value := crc32 buf }) := rfl

/-- Settles O15: CRC_INIT's equation. -/
theorem crcInitResult : Obligations.CrcInitResult := exec_crcInit

/-- Settles O16: CRC_UPDATE's equation; an injective map of the finite set of registers is a bijection. -/
theorem crcUpdateResult : Obligations.CrcUpdateResult :=
  ⟨exec_crcUpdate, fun b => Finite.injective_iff_bijective.mp (crcStep_injective_left b)⟩

/-- Settles O17: the equations of CRC_FINAL and CRC_COMPUTE. -/
theorem crcFinalAndComputeResults : Obligations.CrcFinalAndComputeResults := ⟨exec_crcFinal, exec_crcCompute⟩

/-! ### What commutes with a write of the accumulator (R64) -/

/-- The state with another value in `crc_acc`. -/
def State.withAcc (s : State) (c : Word) : State := { s with crcAcc := c }

section
variable (s : State) (c : Word)

@[simp] theorem State.withAcc_cfg : (s.withAcc c).cfg = s.cfg := rfl
@[simp] theorem State.withAcc_syncPhase : (s.withAcc c).syncPhase = s.syncPhase := rfl
@[simp] theorem State.withAcc_pending : (s.withAcc c).pending = s.pending := rfl
@[simp] theorem State.withAcc_schedule : (s.withAcc c).schedule = s.schedule := rfl

/-- `f` goes from `s` to one next state whatever `crc_acc` holds, and keeps what it holds. -/
def IgnoresAcc (f : State → Result) (s : State) : Prop := ∃ t : State, ∀ c, f (s.withAcc c) = .next (t.withAcc c)

variable {s}

/-- The write it commutes with may be the value already there, so nothing changes `crc_acc`. -/
theorem IgnoresAcc.exists_next {f : State → Result} (h : IgnoresAcc f s) (c : Word) :
    ∃ t : State, f s = .next t ∧ t.crcAcc = s.crcAcc ∧ f (s.withAcc c) = .next (t.withAcc c) := by
  obtain ⟨t, ht⟩ := h
  exact ⟨t.withAcc s.crcAcc, ht s.crcAcc, rfl, ht c⟩

variable (s)

theorem execSyncAbort_ignoresAcc : IgnoresAcc execSyncAbort s := by
  cases hp : s.pending with
  | none => exact ⟨s.respondOk, fun c => by rw [execSyncAbort, State.withAcc_pending, hp]; rfl⟩
  | syncRead =>
    exact ⟨(s.raiseError .aborted).endRead.respondOk, fun c => by rw [execSyncAbort, State.withAcc_pending, hp]; rfl⟩

/-- Every command but CRC_INIT, CRC_UPDATE and CRC_FINAL ignores the accumulator. -/
theorem exec_ignoresAcc {i : Instr} (hinit : i ≠ .crcInit) (hupdate : ∀ b, i ≠ .crcUpdate b) (hfinal : i ≠ .crcFinal) :
    IgnoresAcc (exec i) s := by
  cases i with
  | crcInit => exact absurd rfl hinit
  | crcUpdate b => exact absurd rfl (hupdate b)
  | crcFinal => exact absurd rfl hfinal
  | crcCompute buf => exact ⟨s.respond { status := .ok, value := crc32 buf }, fun _ => rfl⟩
  | encode v t f a q p => exact ⟨s.respond (encodeResponse (encodeFrame s.cfg v t f a q p)), fun _ => rfl⟩
  | decode buf => exact ⟨s.respond (decodeResponse (decodeFrame s.cfg buf)), fun _ => rfl⟩
  | syncRead => exact ⟨{ s.syncTo .scan with pending := .syncRead }, fun _ => rfl⟩
  | syncAbort => exact execSyncAbort_ignoresAcc s

/-! ### The synchronizer's step commutes with a write of the accumulator (R64) -/

theorem scanByte_withAcc (b : Byte) : scanByte b (s.withAcc c) = (scanByte b s).withAcc c := by
  rw [scanByte, scanByte, apply_ite (State.withAcc · c)]
  rfl

theorem mark1Byte_withAcc (b : Byte) : mark1Byte b (s.withAcc c) = (mark1Byte b s).withAcc c := by
  rw [mark1Byte, mark1Byte, apply_ite (State.withAcc · c), apply_ite (State.withAcc · c)]
  rfl

theorem hdrByte_withAcc (b : Byte) : hdrByte b (s.withAcc c) = (hdrByte b s).withAcc c := by
  rw [hdrByte, hdrByte, apply_ite (State.withAcc · c)]
  rfl

theorem finishCandidate_withAcc (candidate : List Byte) :
    finishCandidate candidate (s.withAcc c) = (finishCandidate candidate s).withAcc c := by
  rw [finishCandidate, finishCandidate, State.withAcc_cfg]
  cases decodeFrame s.cfg candidate <;> rfl

theorem bodyByte_withAcc (b : Byte) : bodyByte b (s.withAcc c) = (bodyByte b s).withAcc c := by
  rw [bodyByte, bodyByte, apply_ite (State.withAcc · c), ← finishCandidate_withAcc]
  rfl

theorem syncByte_withAcc (b : Byte) : syncByte b (s.withAcc c) = (syncByte b s).withAcc c := by
  rw [syncByte, syncByte, State.withAcc_syncPhase]
  cases s.syncPhase with
  | idle => rfl
  | scan => exact scanByte_withAcc s c b
  | mark1 => exact mark1Byte_withAcc s c b
  | hdr => exact hdrByte_withAcc s c b
  | body => exact bodyByte_withAcc s c b

end

/-- At an empty closed source a read takes the end of stream (spec/42_sync.md R86). -/
theorem syncMove_of_eos {s : State} (hphase : s.syncPhase ≠ .idle) (hempty : s.srcQueue = [])
    (hclosed : s.srcClosed = true) : s.syncMove = some (syncEos s) := by
  rcases syncMove_cases s with ⟨-, b, q, hq, -⟩ | ⟨-, -, -, e⟩ | ⟨-, -, hopen, -⟩ | ⟨hidle, -⟩
  · simp [hempty] at hq
  · exact e
  · simp [hclosed] at hopen
  · exact absurd hidle hphase

/-- The synchronizer has no step exactly where no read is in progress or the source is empty and open (spec/42_sync.md R87). -/
theorem syncMove_eq_none_iff {s : State} :
    s.syncMove = none ↔ s.syncPhase = .idle ∨ s.srcQueue = [] ∧ s.srcClosed = false := by
  rcases syncMove_cases s with ⟨hphase, b, q, hq, e⟩ | ⟨hphase, -, hclosed, e⟩ | ⟨-, hempty, hopen, e⟩ | ⟨hidle, e⟩
  · simp [e, hphase, hq]
  · simp [e, hphase, hclosed]
  · simp [e, hempty, hopen]
  · simp [e, hidle]

theorem syncMove_withAcc (s : State) (c : Word) : (s.withAcc c).syncMove = s.syncMove.map (State.withAcc · c) := by
  rcases syncMove_cases s with ⟨hphase, b, q, hq, e⟩ | ⟨hphase, hempty, hclosed, e⟩ | ⟨-, -, -, e⟩ | ⟨-, e⟩
  · rw [e, syncMove_of_srcQueue_cons (s := s.withAcc c) hphase hq]
    exact congrArg some (syncByte_withAcc { s with srcQueue := q } c b)
  · rw [e, syncMove_of_eos (s := s.withAcc c) hphase hempty hclosed]
    rfl
  all_goals
    rw [e]
    exact syncMove_eq_none_iff.mpr (syncMove_eq_none_iff (s := s).mp e)

/-! ### A turn of the block that goes to no command -/

/-- It takes the synchronizer's step where there is one, and holds where there is none. -/
theorem step_eq_of_byteTurn {s s₀ : State} (h : ByteTurn s s₀) : step s = .next (s₀.syncMove.getD s₀) := by
  obtain ⟨hr, c, ht, ha⟩ := h
  obtain ⟨l, rfl⟩ := blockTurn_eq ht
  rw [step_of_blockTurn ht]
  cases hm : ({ s with schedule := l } : State).syncMove with
  | some t => exact blockMove_of_syncMove hr hm (ha.imp_right (·.1))
  | none =>
    have hnone : s.acceptable = none := ha.resolve_right fun hne => hne.2 ((syncMove_schedule s l).mp hm)
    rw [blockMove, hm, acceptable_schedule, hnone]
    exact if_neg (by simp [hr])

theorem blockTurn_withAcc (s : State) (c : Word) :
    blockTurn (s.withAcc c) = (blockTurn s).map fun turn => (turn.1, turn.2.withAcc c) := by
  rw [blockTurn, blockTurn, State.withAcc_schedule]
  split <;> rfl

theorem ByteTurn.withAcc {s s₀ : State} (h : ByteTurn s s₀) (c : Word) : ByteTurn (s.withAcc c) (s₀.withAcc c) := by
  obtain ⟨hr, choice, ht, ha⟩ := h
  refine ⟨hr, choice, ?_, ha.imp_right (And.imp_right fun hne => by simpa [syncMove_withAcc] using hne)⟩
  rw [blockTurn_withAcc, ht]
  rfl

theorem step_ignoresAcc_of_byteTurn {s s₀ : State} (h : ByteTurn s s₀) : IgnoresAcc step s :=
  ⟨s₀.syncMove.getD s₀, fun c => by
    rw [step_eq_of_byteTurn (h.withAcc c), syncMove_withAcc, Option.getD_map (State.withAcc · c)]⟩

/-- Settles O22: the four commands, and the turn of the block that goes to no command, ignore the accumulator. -/
theorem codecAndSynchronizerIgnoreAccumulator : Obligations.CodecAndSynchronizerIgnoreAccumulator := by
  constructor
  · intro i s c hi
    have hignores : IgnoresAcc (exec i) s := by
      rcases hi with rfl | rfl | ⟨buf, rfl⟩ | ⟨v, t, f, a, q, p, rfl⟩ <;> exact exec_ignoresAcc s nofun nofun nofun
    exact hignores.exists_next c
  · exact fun s s₀ c hturn => (step_ignoresAcc_of_byteTurn hturn).exists_next c

/-! ### A running CRC among other commands (R62) -/

/-- The byte a command absorbs into `crc_acc`, if it is a CRC_UPDATE. -/
def absorbedByte : Instr → Option Byte
  | .crcUpdate b => some b
  | _ => none

theorem absorbedByte_eq_none {i : Instr} (h : ∀ b, i ≠ .crcUpdate b) : absorbedByte i = none := by
  cases i with
  | crcUpdate b => exact absurd rfl (h b)
  | _ => rfl

/-- CRC_FINAL reads the accumulator but does not write it, and the other commands ignore it (spec/10_state.md R16). -/
theorem exec_keeps_crcAcc {i : Instr} (s : State) (hinit : i ≠ .crcInit) (hupdate : ∀ b, i ≠ .crcUpdate b) :
    ∃ t, exec i s = .next t ∧ t.crcAcc = s.crcAcc := by
  by_cases hfinal : i = .crcFinal
  · rw [hfinal]
    exact ⟨_, exec_crcFinal s, rfl⟩
  · obtain ⟨t, ht, hacc, -⟩ := (exec_ignoresAcc s hinit hupdate hfinal).exists_next s.crcAcc
    exact ⟨t, ht, hacc⟩

theorem execAll_append {is js : List Instr} {s t : State} (h : execAll is s = .next t) :
    execAll (is ++ js) s = execAll js t := by
  induction is generalizing s with
  | nil =>
    cases h
    rfl
  | cons i is ih =>
    simp only [List.cons_append, execAll] at h ⊢
    cases he : exec i s with
    | next u => rw [he] at h; exact ih h
    | fault f => rw [he] at h; cases h
    | refused r => rw [he] at h; cases h

/-- Commands without CRC_INIT leave the fold of the bytes they absorb in `crc_acc`. -/
theorem execAll_crcAcc {is : List Instr} (h : ∀ i ∈ is, i ≠ .crcInit) (s : State) :
    ∃ t, execAll is s = .next t ∧ t.crcAcc = (is.filterMap absorbedByte).foldl crcStep s.crcAcc := by
  induction is generalizing s with
  | nil => exact ⟨s, rfl, rfl⟩
  | cons i is ih =>
    obtain ⟨hi, his⟩ := List.forall_mem_cons.mp h
    by_cases hb : ∃ b, i = .crcUpdate b
    · obtain ⟨b, rfl⟩ := hb
      exact ih his _
    · obtain ⟨u, hu, hacc⟩ := exec_keeps_crcAcc s hi (not_exists.mp hb)
      obtain ⟨t, ht, hfold⟩ := ih his u
      refine ⟨t, ?_, ?_⟩
      · rw [execAll, hu]
        exact ht
      · rw [hfold, hacc, List.filterMap_cons_none (absorbedByte_eq_none (not_exists.mp hb))]

/-- Settles O18: after CRC_INIT the list folds its updates' bytes into `crc_acc`, which CRC_FINAL complements. -/
theorem incrementalCrcAgreesWithOneShot : Obligations.IncrementalCrcAgreesWithOneShot := by
  refine ⟨fun s is h => ?_, fun i s t ht hinit hupdate => ?_, fun s => ⟨s.assertReset, rfl, rfl⟩⟩
  · obtain ⟨t, ht, hacc⟩ := execAll_crcAcc h ({ s with crcAcc := crcInitValue }.respond { status := .ok })
    refine ⟨_, t.responses, (execAll_append (is := .crcInit :: is) ht).trans rfl, ?_⟩
    rw [State.respond_responses, hacc]
    rfl
  · obtain ⟨t', ht', hacc⟩ := exec_keeps_crcAcc s hinit hupdate
    cases ht.symm.trans ht'
    exact hacc

end Sys2Proof.Machine
end

section
/-! PROOFS. The statements of spec/41_codec.md: the byte layout of a wire frame, ENCODE's and DECODE's checks in the spec's terms,
the round trip in both directions, and the one-byte change no frame survives. -/

namespace Sys2Proof.Machine

/-! ### Big-endian fields (spec/20_memory.md R28) -/

theorem toNat_append_bytes (h l : Byte) : (h ++ l : Half).toNat = h.toNat * 256 + l.toNat := by
  rw [BitVec.toNat_append, ← Nat.shiftLeft_add_eq_or_of_lt l.isLt, Nat.shiftLeft_eq]

theorem fromBe16_eq_append (h l : Byte) : fromBe16 h l = (h ++ l : Half) := by
  apply BitVec.eq_of_toNat_eq
  rw [toNat_append_bytes, fromBe16, BitVec.toNat_ofNat]
  omega

theorem fromBe32_eq_append (a b c d : Byte) : fromBe32 a b c d = ((a ++ b : Half) ++ (c ++ d : Half) : Word) := by
  rw [← fromBe16_eq_append, ← fromBe16_eq_append]
  apply BitVec.eq_of_toNat_eq
  rw [BitVec.toNat_append, ← Nat.shiftLeft_add_eq_or_of_lt (BitVec.isLt _), Nat.shiftLeft_eq]
  simp only [fromBe32, fromBe16, BitVec.toNat_ofNat]
  omega

theorem be16_append (h l : Byte) : be16 (h ++ l : Half) = [h, l] :=
  congrArg₂ (fun x y => [x, y]) BitVec.extractLsb'_append_eq_left BitVec.extractLsb'_append_eq_right

theorem be32_append (x y : Half) : be32 (x ++ y : Word) = be16 x ++ be16 y := by
  simp only [be32, be16, List.cons_append, List.nil_append, List.cons.injEq, and_true]
  exact ⟨BitVec.extractLsb'_append_eq_of_le (by decide), BitVec.extractLsb'_append_eq_of_le (by decide),
    BitVec.extractLsb'_append_eq_of_add_le (by decide), BitVec.extractLsb'_append_eq_of_add_le (by decide)⟩

theorem be32_fromBe32 (a b c d : Byte) : be32 (fromBe32 a b c d) = [a, b, c, d] := by
  rw [fromBe32_eq_append, be32_append, be16_append, be16_append, List.cons_append, List.cons_append, List.nil_append]

theorem be32_injective : Function.Injective be32 := by
  intro x y h
  simp only [be32, List.cons.injEq, and_true] at h
  obtain ⟨h3, h2, h1, h0⟩ := h
  rw [← le32_bytes_append x, ← le32_bytes_append y, h3, h2, h1, h0]

/-! ### Bytes of a raw frame -/

section
variable {cfg : Config} {r : List Byte}

theorem byteAt_eq_getElem {i : Nat} (h : i < r.length) : byteAt r i = r[i] := List.getD_eq_getElem r 0 h

theorem byteAt_set_same {i : Nat} (h : i < r.length) (b : Byte) : byteAt (r.set i b) i = b := by
  rw [byteAt_eq_getElem (by simpa using h), List.getElem_set_self]

theorem byteAt_set_ne {i k : Nat} (h : i ≠ k) (b : Byte) : byteAt (r.set i b) k = byteAt r k := by
  rw [byteAt, byteAt, List.getD_eq_getElem?_getD, List.getElem?_set_ne h, ← List.getD_eq_getElem?_getD]

theorem lengthByte_le (r : List Byte) : lengthByte r ≤ 255 := Nat.le_of_lt_succ (byteAt r 8).isLt

theorem isMsgType_iff {t : Byte} : isMsgType cfg t = true ↔ t ∈ cfg.types.toList := List.contains_iff_mem

/-- The marker check, byte by byte. -/
theorem take_two_eq_iff (h : 13 ≤ r.length) (a b : Byte) : r.take 2 = [a, b] ↔ byteAt r 0 = a ∧ byteAt r 1 = b := by
  match r, h with
  | x :: y :: rest, _ => simp [byteAt]

theorem drop_eq_byteAt_cons {i : Nat} (h : i < r.length) : r.drop i = byteAt r i :: r.drop (i + 1) := by
  rw [List.drop_eq_getElem_cons h, byteAt_eq_getElem h]

/-- The last four bytes of a frame of the right length are its received trailer. -/
theorem drop_eq_be32_receivedCrc (h : 13 + lengthByte r = r.length) :
    r.drop (9 + lengthByte r) = be32 (receivedCrc r (lengthByte r)) := by
  rw [receivedCrc, be32_fromBe32]
  simp only [Nat.add_comm _ (lengthByte r)]
  rw [drop_eq_byteAt_cons (by omega), drop_eq_byteAt_cons (by omega), drop_eq_byteAt_cons (by omega),
    drop_eq_byteAt_cons (by omega), List.drop_eq_nil_of_le (by omega)]

/-- The checked region, from its slice to its place in the frame. -/
theorem slice_eq_checkedRegion (r : List Byte) : slice r 2 (9 + (byteAt r 8).toNat) = checkedRegion r := by
  rw [slice, checkedRegion, lengthByte]
  congr 1
  omega

/-! ### DECODE's checks (R71) -/

theorem decodeFrame_of_short (h : r.length < 13) : decodeFrame cfg r = .error (.framing .short) := if_pos h

theorem decodeFrame_of_marker (h : 13 ≤ r.length) (hm : r.take 2 ≠ [cfg.marker0, cfg.marker1]) :
    decodeFrame cfg r = .error (.framing .marker) := by
  rw [Ne, take_two_eq_iff h, not_and_or] at hm
  exact (if_neg (Nat.not_lt.mpr h)).trans (if_pos hm)

theorem decodeFrame_of_length (h : 13 ≤ r.length) (hm : r.take 2 = [cfg.marker0, cfg.marker1])
    (hlen : 13 + lengthByte r ≠ r.length) : decodeFrame cfg r = .error (.framing .length) := by
  obtain ⟨h0, h1⟩ := (take_two_eq_iff h _ _).mp hm
  exact (if_neg (Nat.not_lt.mpr h)).trans ((if_neg (by simp [h0, h1])).trans (if_pos hlen))

/-- What is left of DECODE once the marker and the length are right: OVERSIZE cannot be met (R75). -/
theorem decodeFrame_of_shape (h : 13 ≤ r.length) (hm : r.take 2 = [cfg.marker0, cfg.marker1])
    (hlen : 13 + lengthByte r = r.length) :
    decodeFrame cfg r =
      if isMsgType cfg (byteAt r 3) = false then .error (.framing .type)
      else if crc32 (checkedRegion r) ≠ receivedCrc r (lengthByte r) then
        .error (.checksum (crc32 (checkedRegion r)) (receivedCrc r (lengthByte r)))
      else .ok (frameRecord r) := by
  obtain ⟨h0, h1⟩ := (take_two_eq_iff h _ _).mp hm
  rw [← slice_eq_checkedRegion]
  exact (if_neg (Nat.not_lt.mpr h)).trans ((if_neg (by simp [h0, h1])).trans ((if_neg (not_not.mpr hlen)).trans
    (if_neg (Nat.not_lt.mpr (lengthByte_le r)))))

/-- The type check, the last one before the CRC. -/
theorem decodeFrame_of_type (h : 13 ≤ r.length) (hm : r.take 2 = [cfg.marker0, cfg.marker1])
    (hlen : 13 + lengthByte r = r.length) (ht : byteAt r 3 ∉ cfg.types.toList) :
    decodeFrame cfg r = .error (.framing .type) := by
  rw [← isMsgType_iff, Bool.not_eq_true] at ht
  exact (decodeFrame_of_shape h hm hlen).trans (if_pos ht)

theorem decodeFrame_of_framingOk (h : FramingOk cfg r) :
    decodeFrame cfg r =
      if crc32 (checkedRegion r) ≠ receivedCrc r (lengthByte r) then
        .error (.checksum (crc32 (checkedRegion r)) (receivedCrc r (lengthByte r)))
      else .ok (frameRecord r) := by
  obtain ⟨hmin, hm, hlen, ht⟩ := h
  exact (decodeFrame_of_shape hmin hm hlen).trans (if_neg (by simp [isMsgType_iff.mpr ht]))

/-- Of a frame of the right shape the trailer check of `FrameOk` is DECODE's comparison of two CRCs. -/
theorem frameOk_iff (h : FramingOk cfg r) :
    FrameOk cfg r ↔ crc32 (checkedRegion r) = receivedCrc r (lengthByte r) := by
  obtain ⟨-, -, hlen, -⟩ := id h
  rw [FrameOk, and_iff_right h, drop_eq_be32_receivedCrc hlen, be32_injective.eq_iff, eq_comm]

theorem decodeFrame_of_checksum (h : FramingOk cfg r) (hc : crc32 (checkedRegion r) ≠ receivedCrc r (lengthByte r)) :
    decodeFrame cfg r = .error (.checksum (crc32 (checkedRegion r)) (receivedCrc r (lengthByte r))) :=
  (decodeFrame_of_framingOk h).trans (if_pos hc)

/-- The record DECODE gives is the one of R72 as soon as the trailer is the CRC. -/
theorem frameRecord_eq_fieldsOf (hc : crc32 (checkedRegion r) = receivedCrc r (lengthByte r)) :
    frameRecord r = fieldsOf r := by
  have hpayload : slice r 9 (9 + lengthByte r) = (r.drop 9).take (lengthByte r) := by
    rw [slice, Nat.add_sub_cancel_left]
  rw [fieldsOf, hc, ← fromBe16_eq_append, ← hpayload]
  rfl

theorem decodeFrame_of_frameOk (h : FrameOk cfg r) : decodeFrame cfg r = .ok (fieldsOf r) := by
  have hc := (frameOk_iff h.1).mp h
  rw [← frameRecord_eq_fieldsOf hc]
  exact (decodeFrame_of_framingOk h.1).trans (if_neg (not_not.mpr hc))

theorem framingOk_iff :
    FramingOk cfg r ↔ 13 + lengthByte r = r.length ∧ byteAt r 0 = cfg.marker0 ∧ byteAt r 1 = cfg.marker1
      ∧ isMsgType cfg (byteAt r 3) = true := by
  constructor
  · rintro ⟨hmin, hm, hlen, ht⟩
    obtain ⟨h0, h1⟩ := (take_two_eq_iff hmin _ _).mp hm
    exact ⟨hlen, h0, h1, isMsgType_iff.mpr ht⟩
  · rintro ⟨hlen, h0, h1, ht⟩
    have hmin : 13 ≤ r.length := by omega
    exact ⟨hmin, (take_two_eq_iff hmin _ _).mpr ⟨h0, h1⟩, hlen, isMsgType_iff.mp ht⟩

/-- DECODE accepts the frames of R40 and no others, and gives their fields. -/
theorem decodeFrame_eq_ok_iff {f : FrameRecord} : decodeFrame cfg r = .ok f ↔ FrameOk cfg r ∧ f = fieldsOf r := by
  constructor
  · intro h
    obtain ⟨hlen, h0, h1, ht, hc, rfl⟩ := decodeFrame_ok h
    rw [slice_eq_checkedRegion] at hc
    exact ⟨(frameOk_iff (framingOk_iff.mpr ⟨hlen, h0, h1, ht⟩)).mpr hc, frameRecord_eq_fieldsOf hc⟩
  · rintro ⟨h, rfl⟩
    exact decodeFrame_of_frameOk h

/-- A CHECKSUM error carries the computed CRC and the received trailer. -/
theorem decodeFrame_checksum {c w : Word} (h : decodeFrame cfg r = .error (.checksum c w)) :
    c = crc32 (checkedRegion r) ∧ be32 w = r.drop (9 + lengthByte r) := by
  rcases decodeFrame_cases cfg r with ⟨-, e⟩ | ⟨-, -, e⟩ | ⟨-, -, -, -, e⟩ | ⟨-, -, -, -, e⟩ | ⟨hlen, -, -, -, -, e⟩
    | ⟨-, -, -, -, -, e⟩
  all_goals cases h.symm.trans e
  rw [slice_eq_checkedRegion]
  exact ⟨rfl, (drop_eq_be32_receivedCrc hlen).symm⟩

end

/-! ### The command DECODE (R71, R72, R75, R78) -/

section
variable {s : State} {r : List Byte}

theorem exec_decode (s : State) (r : List Byte) :
    exec (.decode r) s = .next (s.respond (decodeResponse (decodeFrame s.cfg r))) := rfl

theorem exec_decode_of_ok {f : FrameRecord} (h : decodeFrame s.cfg r = .ok f) :
    exec (.decode r) s = .next { s with responses := s.responses ++ [{ status := .ok, frame := some f }] } := by
  rw [exec_decode, h]
  rfl

theorem exec_decode_of_framing {reason : FramingReason} (h : decodeFrame s.cfg r = .error (.framing reason)) :
    exec (.decode r) s =
      .next { s with responses := s.responses ++ [{ status := .framing, info := reason.code }] } := by
  rw [exec_decode, h]
  rfl

theorem exec_decode_of_checksum {c w : Word} (h : decodeFrame s.cfg r = .error (.checksum c w)) :
    exec (.decode r) s =
      .next { s with responses := s.responses ++ [{ status := .checksum, value := c, value2 := w }] } := by
  rw [exec_decode, h]
  rfl

end

/-- Settles O26: a clause per check, the OVERSIZE one void because a length byte is at most 255. -/
theorem decodeReportsFirstFailure : Obligations.DecodeReportsFirstFailure := by
  refine fun s r => ⟨fun h => ?_, fun h hm => ?_, fun h hm hlen => ?_, fun _ _ _ hover => ?_, fun h hm hlen _ ht => ?_,
    fun h hc => ?_⟩
  · exact exec_decode_of_framing (decodeFrame_of_short h)
  · exact exec_decode_of_framing (decodeFrame_of_marker h hm)
  · exact exec_decode_of_framing (decodeFrame_of_length h hm hlen)
  · exact absurd hover (Nat.not_lt.mpr (lengthByte_le r))
  · exact exec_decode_of_framing (decodeFrame_of_type h hm hlen ht)
  · rw [← fromBe32_eq_append] at hc ⊢
    exact exec_decode_of_checksum (decodeFrame_of_checksum h hc)

/-- Settles O27: DECODE accepts exactly the frames that pass every check, and an error's response has no frame. -/
theorem decodeReturnsFrameRecord : Obligations.DecodeReturnsFrameRecord := by
  refine fun s r => ⟨fun h => exec_decode_of_ok (decodeFrame_of_frameOk h), fun hbad => ?_⟩
  match h : decodeFrame s.cfg r with
  | .ok f => exact absurd (decodeFrame_eq_ok_iff.mp h).1 hbad
  | .error (.framing reason) => exact ⟨_, exec_decode_of_framing h, rfl, .inl rfl, by simp⟩
  | .error (.checksum c w) => exact ⟨_, exec_decode_of_checksum h, rfl, .inr rfl, fun _ => decodeFrame_checksum h⟩

/-- Settles O28: a legal FRAMING response has another reason's code. -/
theorem oversizeNeverReported : Obligations.OversizeNeverReported := by
  rintro s t r x ht hx ⟨hstatus, hinfo⟩
  cases ht
  have hlegal : x.Legal s.cfg := by
    rw [State.respond_responses, List.append_cancel_left_eq, List.singleton_inj] at hx
    exact hx ▸ decodeResponse_legal s.cfg r
  rw [Response.Legal, hstatus] at hlegal
  obtain ⟨reason, hreason, rfl⟩ := hlegal
  cases reason with
  | oversize => exact hreason rfl
  | _ => exact absurd hinfo (by decide)

/-- Settles O32: over 268 bytes no length byte fits. -/
theorem decodeOfImpossibleLengthIsFramingError : Obligations.DecodeOfImpossibleLengthIsFramingError := by
  refine fun s r => ⟨fun h => ?_, fun h hm => ?_, fun h hm => ?_⟩
  · exact exec_decode_of_framing (decodeFrame_of_short (by omega))
  · have hL := lengthByte_le r
    exact exec_decode_of_framing (decodeFrame_of_length (by omega) hm (by omega))
  · exact exec_decode_of_framing (decodeFrame_of_marker (by omega) hm)

/-! ### The wire frame (R66, R68, R69) -/

section
variable {cfg : Config} {v t f a : Half} {q : Word} {p : List Byte}

theorem frameBody_length (v t f a : Half) (q : Word) (p : List Byte) : (frameBody v t f a q p).length = 7 + p.length := by
  simp [frameBody, be16]
  omega

theorem toNat_lowByte {x : Half} (h : x.toNat ≤ 255) : (x.setWidth 8 : Byte).toNat = x.toNat :=
  Nat.mod_eq_of_lt (Nat.lt_succ_of_le h)

theorem lengthByte_wireFrame (hp : p.length ≤ 255) : lengthByte (wireFrame cfg v t f a q p) = p.length :=
  Nat.mod_eq_of_lt (Nat.lt_succ_of_le hp)

theorem sequenceBytes_wireFrame :
    (byteAt (wireFrame cfg v t f a q p) 6 ++ byteAt (wireFrame cfg v t f a q p) 7 : Half) = q.setWidth 16 :=
  le16_bytes_append (q.setWidth 16)

theorem drop_nine_wireFrame :
    (wireFrame cfg v t f a q p).drop 9 = p ++ be32 (crc32 (frameBody v t f a q p)) := rfl

theorem take_payload_wireFrame : ((wireFrame cfg v t f a q p).drop 9).take p.length = p := by
  rw [drop_nine_wireFrame, List.take_left]

theorem drop_payload_wireFrame :
    (wireFrame cfg v t f a q p).drop (9 + p.length) = be32 (crc32 (frameBody v t f a q p)) := by
  rw [← List.drop_drop, drop_nine_wireFrame, List.drop_left]

theorem checkedRegion_wireFrame (hp : p.length ≤ 255) :
    checkedRegion (wireFrame cfg v t f a q p) = frameBody v t f a q p := by
  rw [checkedRegion, lengthByte_wireFrame hp, ← frameBody_length v t f a q p]
  exact List.take_left

theorem fieldsOf_wireFrame (hp : p.length ≤ 255) :
    fieldsOf (wireFrame cfg v t f a q p) =
      { version := v.setWidth 8, messageType := t.setWidth 8, flags := f.setWidth 8, address := a.setWidth 8
        sequence := q.setWidth 16, payload := p, checksum := crc32 (frameBody v t f a q p) } := by
  rw [fieldsOf, lengthByte_wireFrame hp, checkedRegion_wireFrame hp, take_payload_wireFrame]
  rw [sequenceBytes_wireFrame]
  rfl

/-! ### ENCODE's checks (R67) -/

theorem encodeOk_iff : EncodeOk cfg v t f a q p ↔ encodeInvalid cfg v t f a q p = none := by
  rw [encodeInvalid_eq_none, isMsgTypeOperand_iff, EncodeOk]

theorem encodeFrame_eq_ok_iff {out : List Byte} :
    encodeFrame cfg v t f a q p = .ok out ↔ EncodeOk cfg v t f a q p ∧ out = wireFrame cfg v t f a q p := by
  rw [encodeOk_iff, encodeFrame]
  cases encodeInvalid cfg v t f a q p <;> simp [eq_comm]

/-- DECODE accepts what ENCODE produces. -/
theorem frameOk_wireFrame (h : EncodeOk cfg v t f a q p) : FrameOk cfg (wireFrame cfg v t f a q p) := by
  obtain ⟨-, htype, -, -, -, hp⟩ := h
  have hlen := wireFrame_length cfg v t f a q p
  have ht : isMsgType cfg (t.setWidth 8) = true := by
    rw [← isMsgTypeOperand_iff, isMsgTypeOperand, Bool.and_eq_true] at htype
    exact htype.2
  refine ⟨⟨by omega, rfl, by rw [lengthByte_wireFrame hp, hlen], isMsgType_iff.mp ht⟩, ?_⟩
  rw [lengthByte_wireFrame hp, checkedRegion_wireFrame hp, drop_payload_wireFrame]

end

/-! ### The command ENCODE (R67, R68) -/

section
variable {s : State} {v t f a : Half} {q : Word} {p : List Byte}

theorem exec_encode (s : State) (v t f a : Half) (q : Word) (p : List Byte) :
    exec (.encode v t f a q p) s = .next (s.respond (encodeResponse (encodeFrame s.cfg v t f a q p))) := rfl

theorem exec_encode_of_ok {out : List Byte} (h : encodeFrame s.cfg v t f a q p = .ok out) :
    exec (.encode v t f a q p) s =
      .next { s with
        responses := s.responses ++ [{ status := .ok, outLen := BitVec.ofNat 16 out.length, out := out }] } := by
  rw [exec_encode, h]
  rfl

theorem exec_encode_of_invalid {field : ValidationField} (h : encodeInvalid s.cfg v t f a q p = some field) :
    exec (.encode v t f a q p) s =
      .next { s with responses := s.responses ++ [{ status := .validation, info := field.code }] } := by
  rw [exec_encode, encodeFrame, h]
  rfl

end

/-- Settles O23: a clause per check, in the order of `encodeInvalid`. -/
theorem encodeReportsFirstInvalidField : Obligations.EncodeReportsFirstInvalidField := by
  intro s v t f a q p
  simp only [← isMsgTypeOperand_iff, Bool.not_eq_true, ← Nat.not_lt (a := 255), ← Nat.not_lt (a := 65535)]
  refine ⟨fun hv => ?_, fun hv ht => ?_, fun hv ht hf => ?_, fun hv ht hf ha => ?_, fun hv ht hf ha hq => ?_,
    fun hv ht hf ha hq hp => ?_⟩
  · exact exec_encode_of_invalid (field := .version) (if_pos hv)
  · exact exec_encode_of_invalid (field := .msgType) (by simp [encodeInvalid, *])
  · exact exec_encode_of_invalid (field := .flags) (by simp [encodeInvalid, *])
  · exact exec_encode_of_invalid (field := .address) (by simp [encodeInvalid, *])
  · exact exec_encode_of_invalid (field := .sequence) (by simp [encodeInvalid, *])
  · exact exec_encode_of_invalid (field := .payload) (by simp [encodeInvalid, *])

/-- Settles O24: the frame ENCODE makes is `wireFrame`, 13 bytes and the payload. -/
theorem encodeProducesWireFrame : Obligations.EncodeProducesWireFrame := by
  intro s v t f a q p h
  rw [exec_encode_of_ok (encodeFrame_eq_ok_iff.mpr ⟨h, rfl⟩), wireFrame_length]
  rfl

/-- Settles O25: each field is read from `wireFrame` at its offset, and the checks bound the operands. -/
theorem encodedFrameLayout : Obligations.EncodedFrameLayout := by
  intro s u v t f a q p r hu hr hok
  cases hu
  obtain rfl : encodeResponse (encodeFrame s.cfg v t f a q p) = r := by simpa using hr
  match h : encodeFrame s.cfg v t f a q p with
  | .error field =>
    rw [h] at hok
    exact absurd hok Status.noConfusion
  | .ok out =>
    obtain ⟨hvalid, rfl⟩ := encodeFrame_eq_ok_iff.mp h
    obtain ⟨hv, ⟨x, -, hx⟩, hf, ha, hq, hp⟩ := id hvalid
    have hlen := wireFrame_length s.cfg v t f a q p
    have ht := x.isLt
    refine ⟨hlen, ?_, hp, rfl, rfl, toNat_lowByte hv, toNat_lowByte (by omega), toNat_lowByte hf,
      toNat_lowByte ha, ?_, lengthByte_wireFrame hp, take_payload_wireFrame, ?_⟩
    · simp only [encodeResponse, BitVec.toNat_ofNat]
      omega
    · rw [← toNat_append_bytes]
      exact (congrArg BitVec.toNat sequenceBytes_wireFrame).trans (Nat.mod_eq_of_lt (Nat.lt_succ_of_le hq))
    · obtain ⟨-, htrailer⟩ := frameOk_wireFrame hvalid
      rwa [checkedRegion, lengthByte_wireFrame hp] at htrailer

/-- Settles O29: the wire frame meets every check of DECODE, and its fields are the operands. -/
theorem decodeOfEncodedFrameReturnsOperands : Obligations.DecodeOfEncodedFrameReturnsOperands := by
  refine fun s v t f a q p => ⟨fun h => ⟨wireFrame s.cfg v t f a q p, ?_, ?_⟩, fun h => ?_⟩
  · exact exec_encode_of_ok (encodeFrame_eq_ok_iff.mpr ⟨h, rfl⟩)
  · obtain ⟨-, -, -, -, -, hp⟩ := id h
    exact exec_decode_of_ok (decodeFrame_eq_ok_iff.mpr ⟨frameOk_wireFrame h, (fieldsOf_wireFrame hp).symm⟩)
  · obtain ⟨field, hfield⟩ := Option.ne_none_iff_exists'.mp (mt encodeOk_iff.mpr h)
    exact ⟨_, exec_encode_of_invalid hfield⟩

/-! ### Encoding the fields of a decoded frame (R68, R71, R72) -/

section
variable {cfg : Config} {r : List Byte} {f : FrameRecord}

/-- A frame DECODE accepts is its marker, its checked region and the CRC of it. -/
theorem eq_append_of_frameOk (h : FrameOk cfg r) :
    r = [cfg.marker0, cfg.marker1] ++ checkedRegion r ++ be32 (crc32 (checkedRegion r)) := by
  obtain ⟨⟨-, hm, -, -⟩, htrailer⟩ := h
  have hdrop : r.drop (9 + lengthByte r) = (r.drop 2).drop (7 + lengthByte r) := by rw [List.drop_drop, ← Nat.add_assoc]
  rw [← htrailer, ← hm, hdrop, checkedRegion, List.append_assoc, List.take_append_drop, List.take_append_drop]

/-- The checked region of a frame is built from its fields. -/
theorem frameBody_of_fields (h : 13 + lengthByte r = r.length) :
    frameBody ((byteAt r 2).setWidth 16) ((byteAt r 3).setWidth 16) ((byteAt r 4).setWidth 16)
      ((byteAt r 5).setWidth 16) ((byteAt r 6 ++ byteAt r 7 : Half).setWidth 32) ((r.drop 9).take (lengthByte r)) =
      checkedRegion r := by
  have hpayload : ((r.drop 9).take (lengthByte r)).length = lengthByte r := by
    rw [List.length_take, List.length_drop]
    omega
  have hheader : r.drop 2 = [byteAt r 2, byteAt r 3, byteAt r 4, byteAt r 5] ++ [byteAt r 6, byteAt r 7]
      ++ [byteAt r 8] ++ r.drop 9 := by
    match r, h with
    | _ :: _ :: _ :: _ :: _ :: _ :: _ :: _ :: _ :: rest, _ => rfl
  rw [checkedRegion, hheader, frameBody, hpayload, Nat.add_comm 7]
  simp [be16_append, lengthByte]

theorem encodeOk_of_decodes (h : decodeFrame cfg r = .ok f) :
    EncodeOk cfg (f.version.setWidth 16) (f.messageType.setWidth 16) (f.flags.setWidth 16) (f.address.setWidth 16)
      (f.sequence.setWidth 32) f.payload := by
  obtain ⟨⟨⟨-, -, -, ht⟩, -⟩, rfl⟩ := decodeFrame_eq_ok_iff.mp h
  have hbyte (b : Byte) : (b.setWidth 16).toNat = b.toNat := BitVec.toNat_setWidth_of_le (by decide)
  have hle (b : Byte) : (b.setWidth 16).toNat ≤ 255 := hbyte b ▸ Nat.le_of_lt_succ b.isLt
  have hseq : ((fieldsOf r).sequence.setWidth 32).toNat ≤ 65535 := by
    rw [BitVec.toNat_setWidth_of_le (by decide)]
    exact Nat.le_of_lt_succ (BitVec.isLt _)
  exact ⟨hle _, ⟨_, ht, (hbyte _).symm⟩, hle _, hle _, hseq, (List.length_take_le _ _).trans (lengthByte_le r)⟩

/-- Settles O30: a decoded frame's fields pass ENCODE's checks, and the wire frame of them is the frame. -/
theorem encodeOfDecodedFrameIsIdentity : Obligations.EncodeOfDecodedFrameIsIdentity := by
  intro s r f h
  refine exec_encode_of_ok (encodeFrame_eq_ok_iff.mpr ⟨encodeOk_of_decodes h, ?_⟩)
  obtain ⟨hframe, rfl⟩ := decodeFrame_eq_ok_iff.mp h
  obtain ⟨-, -, hlen, -⟩ := id hframe.1
  rw [wireFrame]
  conv_lhs => rw [eq_append_of_frameOk hframe, ← frameBody_of_fields hlen]
  rfl

end

/-! ### One changed byte (R77) -/

section
variable {cfg : Config} {r : List Byte} {i : Nat} {b : Byte}

/-- Two frames DECODE accepts do not differ in one byte behind the marker: a change in the checked region changes the CRC and
not the trailer, a change in the trailer changes the trailer and not the CRC. -/
theorem frameOk_set_inj {a : Byte} (h2 : 2 ≤ i) (hi : i < r.length) (ha : FrameOk cfg (r.set i a))
    (hb : FrameOk cfg (r.set i b)) : a = b := by
  obtain ⟨⟨-, -, halen, -⟩, ha⟩ := ha
  obtain ⟨⟨-, -, hblen, -⟩, hb⟩ := hb
  rw [List.length_set] at halen hblen
  have hL : lengthByte (r.set i b) = lengthByte (r.set i a) := by omega
  rw [checkedRegion] at ha hb
  rw [hL] at hb
  generalize lengthByte (r.set i a) = L at ha hb halen
  rw [List.drop_set (i := 2), if_neg (by omega), List.take_set] at ha hb
  by_cases hregion : i < 9 + L
  · rw [List.drop_set_of_lt hregion] at ha hb
    have hlt : i - 2 < ((r.drop 2).take (7 + L)).length := by
      rw [List.length_take, List.length_drop]
      omega
    exact (crc32_set_inj hlt).mp (be32_injective (ha.symm.trans hb))
  · have hbehind : ((r.drop 2).take (7 + L)).length ≤ i - 2 := (List.length_take_le _ _).trans (by omega)
    rw [List.set_eq_of_length_le hbehind, List.drop_set, if_neg hregion] at ha hb
    have hbyte := congrArg (byteAt · (i - (9 + L))) (ha.trans hb.symm)
    have hlt : i - (9 + L) < (r.drop (9 + L)).length := by
      rw [List.length_drop]
      omega
    simpa only [byteAt_set_same hlt] using hbyte

/-- A changed byte behind the marker leaves the marker. -/
theorem take_two_set (h2 : 2 ≤ i) : (r.set i b).take 2 = r.take 2 := List.take_set_of_le h2

/-- A change of one byte that is neither in the marker nor the length byte keeps the shape, unless it makes the type wrong. -/
theorem framingOk_set (h : FramingOk cfg r) (h2 : 2 ≤ i) (h8 : i ≠ 8)
    (ht : i = 3 → byteAt (r.set i b) 3 ∈ cfg.types.toList) : FramingOk cfg (r.set i b) := by
  obtain ⟨hmin, hm, hlen, htype⟩ := h
  refine ⟨?_, (take_two_set h2).trans hm, ?_, ?_⟩
  · rwa [List.length_set]
  · rwa [List.length_set, lengthByte, byteAt_set_ne h8]
  · by_cases h3 : i = 3
    · exact ht h3
    · rwa [byteAt_set_ne h3]

theorem xor_bit_ne {j : Nat} (hj : j < 8) (b : Byte) : b ^^^ (1#8 <<< j) ≠ b := by
  have hmask : ∀ k < 8, 1#8 <<< k ≠ 0#8 := by decide
  exact fun h => hmask j hj (by simpa using h)

theorem decodeFrame_set_marker (h : FrameOk cfg r) (hi : i < 2) (hb : b ≠ byteAt r i) :
    decodeFrame cfg (r.set i b) = .error (.framing .marker) := by
  obtain ⟨⟨hmin, hm, -, -⟩, -⟩ := h
  have hlen : 13 ≤ (r.set i b).length := by rwa [List.length_set]
  have hset : byteAt (r.set i b) i = b := byteAt_set_same (by omega) b
  refine decodeFrame_of_marker hlen fun hsame => hb (hset.symm.trans ?_)
  obtain ⟨h0, h1⟩ := (take_two_eq_iff hmin _ _).mp hm
  obtain ⟨hset0, hset1⟩ := (take_two_eq_iff hlen _ _).mp hsame
  obtain rfl | rfl : i = 0 ∨ i = 1 := by omega
  · exact hset0.trans h0.symm
  · exact hset1.trans h1.symm

theorem decodeFrame_set_length (h : FrameOk cfg r) (hb : b ≠ byteAt r 8) :
    decodeFrame cfg (r.set 8 b) = .error (.framing .length) := by
  obtain ⟨⟨hmin, hm, hlen, -⟩, -⟩ := h
  refine decodeFrame_of_length (by rwa [List.length_set]) ((take_two_set (by decide)).trans hm) fun hsame => hb ?_
  rw [List.length_set, lengthByte, byteAt_set_same (by omega)] at hsame
  exact BitVec.eq_of_toNat_eq (Nat.add_left_cancel (hsame.trans hlen.symm))

theorem decodeFrame_set_type (h : FrameOk cfg r) (hb : b ∉ cfg.types.toList) :
    decodeFrame cfg (r.set 3 b) = .error (.framing .type) := by
  obtain ⟨⟨hmin, hm, hlen, -⟩, -⟩ := h
  refine decodeFrame_of_type (by rwa [List.length_set]) ((take_two_set (by decide)).trans hm) ?_ ?_
  · rwa [List.length_set, lengthByte, byteAt_set_ne (by decide)]
  · rwa [byteAt_set_same (by omega)]

theorem decodeFrame_set_checksum (h : FrameOk cfg r) (h2 : 2 ≤ i) (hi : i < r.length) (hb : b ≠ byteAt r i) (h8 : i ≠ 8)
    (ht : i = 3 → byteAt (r.set i b) 3 ∈ cfg.types.toList) :
    ∃ c w, c ≠ w ∧ decodeFrame cfg (r.set i b) = .error (.checksum c w) := by
  have hshape := framingOk_set h.1 h2 h8 ht
  have hsame : r.set i (byteAt r i) = r := by rw [byteAt_eq_getElem hi, List.set_getElem_self]
  have hbad : ¬ FrameOk cfg (r.set i b) := fun hset => hb (frameOk_set_inj h2 hi hset (hsame.symm ▸ h))
  have hc := mt (frameOk_iff hshape).mpr hbad
  exact ⟨_, _, hc, decodeFrame_of_checksum hshape hc⟩

end

/-- Settles O31: what ENCODE produces DECODE accepts, and each byte of an accepted frame is guarded by a check. -/
theorem singleBitCorruptionIsDetected : Obligations.SingleBitCorruptionIsDetected := by
  intro s v t f a q p out i j hout hi hj
  obtain ⟨hok, rfl⟩ := encodeFrame_eq_ok_iff.mp hout
  have hframe := frameOk_wireFrame hok
  have hflip := xor_bit_ne hj (byteAt (wireFrame s.cfg v t f a q p) i)
  refine ⟨fun hmarker => ?_, ?_, ?_, fun hrest => ?_⟩
  · exact exec_decode_of_framing (decodeFrame_set_marker hframe (by omega) hflip)
  · rintro rfl
    exact exec_decode_of_framing (decodeFrame_set_length hframe hflip)
  · rintro rfl ht
    rw [byteAt_set_same hi] at ht
    exact exec_decode_of_framing (decodeFrame_set_type hframe ht)
  · have ht : i = 3 → byteAt ((wireFrame s.cfg v t f a q p).set i _) 3 ∈ s.cfg.types.toList := fun h3 =>
      hrest.elim And.right (by omega)
    obtain ⟨c, w, hne, h⟩ := decodeFrame_set_checksum hframe (by omega) hi hflip (by omega) ht
    exact ⟨c, w, hne, exec_decode_of_checksum h⟩

end Sys2Proof.Machine
end

section
/-! PROOFS. The statements of spec/42_sync.md on one step: the two commands, the byte steps of each phase, the end of stream,
the hold, and the response a read ends with. -/

namespace Sys2Proof.Machine

/-! ### The commands SYNC_READ and SYNC_ABORT (R79, R90) -/

/-- Settles O33: a busy port accepts a SYNC_ABORT alone, and SYNC_READ's equation. -/
theorem syncReadStartsScanning : Obligations.SyncReadStartsScanning := by
  refine ⟨fun s s₀ r hacc hop => ?_, fun s => rfl⟩
  cases hp : s.pending with
  | none => rfl
  | syncRead => exact absurd (hop.symm.trans (hacc.op_of_pending hp)) (by decide)

theorem execSyncAbort_of_syncRead {s : State} (h : s.pending = .syncRead) :
    execSyncAbort s = .next (((s.respond { status := .aborted }).endRead).respond { status := .ok }) := by
  rw [execSyncAbort, h]
  rfl

theorem execSyncAbort_of_none {s : State} (h : s.pending = .none) :
    execSyncAbort s = .next (s.respond { status := .ok }) := by
  rw [execSyncAbort, h]
  rfl

/-- Settles O34: SYNC_ABORT's two equations, and a SYNC_ABORT is the one command a busy port takes. -/
theorem syncAbortEndsPendingRead : Obligations.SyncAbortEndsPendingRead := by
  refine ⟨fun s => ⟨fun hp => ?_, fun hp => execSyncAbort_of_none hp⟩, fun s s₁ a hr ht _ hport hop => ?_⟩
  · rw [exec, execSyncAbort_of_syncRead hp]
    simp [State.respond, State.endRead, State.syncTo]
  · have habort : a.isAbort = true := by simp [Request.isAbort, hop]
    exact ⟨hr, true, s₁, [], ht, acceptable_of_port_cons hport (.inr habort), .inr rfl, rfl⟩

/-! ### The byte steps (R80 to R85) -/

/-- Such a turn starts from the state of the step but for the schedule. -/
theorem ByteTurn.eq {s s₀ : State} (h : ByteTurn s s₀) : ∃ l, s₀ = { s with schedule := l } := by
  obtain ⟨-, c, ht, -⟩ := h
  exact blockTurn_eq ht

/-- A turn of the block that goes to no command takes the byte at the head of the source. -/
theorem step_of_byteTurn_cons {s s₀ : State} {b : Byte} {q : List Byte} (h : ByteTurn s s₀)
    (hphase : s.syncPhase ≠ .idle) (hq : s.srcQueue = b :: q) :
    step s = .next (syncByte b { s₀ with srcQueue := q }) := by
  rw [step_eq_of_byteTurn h]
  obtain ⟨l, rfl⟩ := h.eq
  rw [syncMove_of_srcQueue_cons (s := { s with schedule := l }) hphase hq, Option.getD_some]

/-- Settles O35: the arms of `scanByte` and `mark1Byte`, exclusive since the two markers differ. -/
theorem scanningByteSteps : Obligations.ScanningByteSteps := by
  intro s s₀ b q hturn hq
  obtain ⟨l, rfl⟩ := hturn.eq
  constructor
  · intro hp
    rw [step_of_byteTurn_cons hturn (by simp [hp]) hq, syncByte_scan (s := { s with schedule := l, srcQueue := q }) b hp,
      scanByte]
    exact ⟨fun hb => by rw [if_pos hb], fun hb => by rw [if_neg hb]⟩
  · intro hp
    rw [step_of_byteTurn_cons hturn (by simp [hp]) hq, syncByte_mark1 (s := { s with schedule := l, srcQueue := q }) b hp,
      mark1Byte]
    refine ⟨fun hb => by rw [if_pos hb], fun hb => ?_, fun hb1 hb0 => by rw [if_neg hb1, if_neg hb0]⟩
    have hb1 : b ≠ s.cfg.marker1 := hb ▸ s.cfg.markers_distinct
    rw [if_neg hb1, if_pos hb]

theorem finishCandidate_of_ok {s : State} {c : List Byte} {f : FrameRecord} (h : decodeFrame s.cfg c = .ok f) :
    finishCandidate c s = (s.respond { status := .ok, frame := some f }).endRead := by
  rw [finishCandidate, h]
  rfl

theorem finishCandidate_of_error {s : State} {c : List Byte} {e : FrameError} (h : decodeFrame s.cfg c = .error e) :
    finishCandidate c s = (s.emitDiscard e).syncTo .scan := by
  rw [finishCandidate, h]

/-- Settles O36: the arms of `hdrByte` and `bodyByte`, and the two ends of a candidate. -/
theorem framingByteSteps : Obligations.FramingByteSteps := by
  intro s s₀ b q hturn hq
  obtain ⟨l, rfl⟩ := hturn.eq
  constructor
  · intro hp
    rw [step_of_byteTurn_cons hturn (by simp [hp]) hq, syncByte_hdr (s := { s with schedule := l, srcQueue := q }) b hp,
      hdrByte]
    dsimp only
    exact ⟨fun hneed => by rw [if_pos (by omega)]; rfl, fun hneed => by rw [if_neg (by omega)]⟩
  · intro hp
    rw [step_of_byteTurn_cons hturn (by simp [hp]) hq, syncByte_body (s := { s with schedule := l, srcQueue := q }) b hp,
      bodyByte]
    dsimp only
    refine ⟨fun hneed => by rw [if_neg (by omega)], fun hneed f hf => ?_, fun hneed e he => ?_⟩
    · rw [if_pos (by omega)]
      exact congrArg Host.Outcome.next (finishCandidate_of_ok (s := { s with schedule := l, srcQueue := q }) hf)
    · rw [if_pos (by omega)]
      exact congrArg Host.Outcome.next (finishCandidate_of_error (s := { s with schedule := l, srcQueue := q }) he)

/-! ### End of stream, and the hold (R86, R87) -/

/-- Settles O37: the end of stream is the synchronizer's step, and of the source's three fates (R23) a closed empty one has
only that to stay. -/
theorem endOfStreamEndsRead : Obligations.EndOfStreamEndsRead := by
  constructor
  · intro s s₀ hturn hphase hempty hclosed
    rw [step_eq_of_byteTurn hturn]
    obtain ⟨l, rfl⟩ := hturn.eq
    rw [syncMove_of_eos (s := { s with schedule := l }) hphase hempty hclosed, Option.getD_some]
    rfl
  · intro s t hempty hclosed hstep
    obtain ⟨hstays, hsame | ⟨-, -, b, hb⟩ | ⟨hopen, -⟩⟩ := sourceIsConsumedInOrder s t hstep
    · exact ⟨hsame.trans hempty, hstays hclosed⟩
    · simp [hempty] at hb
    · simp [hclosed] at hopen

/-- A busy port can accept nothing exactly when no SYNC_ABORT is at it (spec/70_reset_and_hazards.md R119). -/
theorem acceptable_eq_none_iff_of_syncRead {s : State} (hp : s.pending = .syncRead) :
    s.acceptable = none ↔ ∀ r ∈ s.port, r.op ≠ 0x21#8 := by
  rw [State.acceptable, if_pos (s.busy_iff.mpr hp), firstAbort_eq_none]
  simp [Request.isAbort]

/-- A step that accepts a command while a read is pending accepts a SYNC_ABORT, which ends the read. -/
theorem Accepts.ends_read {r : Request} {s s₀ t : State} (h : Accepts s r s₀) (hp : s.pending = .syncRead)
    (hstep : step s = .next t) :
    t.pending = .none ∧ t.responses = s.responses ++ [{ status := .aborted }, { status := .ok }] := by
  have hdec : decodeRequest r = .ok .syncAbort :=
    (isAbort_iff_decodes r).mp (by simp [Request.isAbort, h.op_of_pending hp])
  rw [step_of_accepts h, acceptCommand_of_decodes hdec] at hstep
  obtain ⟨l, rest, rfl⟩ := h.eq
  cases (execSyncAbort_of_syncRead (s := { s with schedule := l, port := rest }) hp).symm.trans hstep
  exact ⟨rfl, by simp⟩

/-- Settles O38: of the block's turns only a hold changes nothing, since an accepted SYNC_ABORT ends the read and a
synchronizer step uses up work. -/
theorem openEmptySourceHolds : Obligations.OpenEmptySourceHolds := by
  refine ⟨fun s s₁ c hinv hr ht hphase => ?_, fun s rest hs => ⟨_, step_of_schedule_cons hs, rfl, rfl⟩⟩
  obtain ⟨-, hpend, -⟩ := hinv
  have hp : s.pending = .syncRead := hpend.mpr hphase
  rw [← acceptable_eq_none_iff_of_syncRead hp, ← and_assoc]
  have hsync : s.syncMove = none ↔ s.srcQueue = [] ∧ s.srcClosed = false := by simp [syncMove_eq_none_iff, hphase]
  rw [← hsync]
  obtain ⟨l, rfl⟩ := blockTurn_eq ht
  constructor
  · intro hstep
    rcases step_of_blockTurn_cases ht with ⟨-, hreset | ⟨ha, hs⟩⟩ | ⟨r, s₀, hacc, -⟩ | ⟨-, t, hs, e⟩
    · simp [hr] at hreset
    · exact ⟨hs, ha⟩
    · obtain ⟨hended, -⟩ := hacc.ends_read hp hstep
      exact absurd (hp.symm.trans hended) (by decide)
    · cases hstep.symm.trans e
      exact absurd (syncMove_work_lt (s := { s with schedule := l }) hpend hs) (lt_irrefl _)
  · rintro ⟨hs, ha⟩
    rw [step_eq_of_byteTurn ⟨hr, c, ht, .inl ha⟩, (syncMove_schedule s l).mpr hs, Option.getD_none]

/-! ### The response a read ends with (R89) -/

/-- The response of a synchronizer step that ends its read; a step that goes on with it gives none. -/
theorem syncMove_response {s s' : State} (h : s.syncMove = some s') :
    (s'.pending = .none ∧ ((∃ f, s'.responses = s.responses ++ [{ status := .ok, frame := some f }])
        ∨ s'.responses = s.responses ++ [{ status := .streamClosed }]))
    ∨ (s'.pending = s.pending ∧ s'.responses = s.responses) := by
  rcases syncMove_cases s with ⟨hp, b, q, -, e⟩ | ⟨-, -, -, e⟩ | ⟨-, -, -, e⟩ | ⟨-, e⟩
  all_goals rw [h] at e
  · obtain rfl := Option.some.inj e
    rcases syncByte_endsRead_or_goesOn b (s := { s with srcQueue := q }) hp with ⟨f, e⟩ | ⟨-, goesOn⟩
    · exact .inl ⟨by rw [e]; rfl, .inl ⟨f, by rw [e]; rfl⟩⟩
    · exact .inr goesOn
  · obtain rfl := Option.some.inj e
    exact .inl ⟨rfl, .inr rfl⟩
  · cases e
  · cases e

/-- What a turn of the block does to a pending read: it ends with one of its three answers, or stays pending with none. -/
theorem blockTurn_response {s s₁ t : State} {c : Bool} (ht : blockTurn s = some (c, s₁)) (hp : s.pending = .syncRead)
    (hstep : step s = .next t) :
    (t.pending = .none ∧ ((∃ f, t.responses = s.responses ++ [{ status := .ok, frame := some f }])
        ∨ t.responses = s.responses ++ [{ status := .streamClosed }]
        ∨ t.responses = s.responses ++ [{ status := .aborted }, { status := .ok }]))
    ∨ (t.pending = .syncRead ∧ t.responses = s.responses) := by
  obtain ⟨l, rfl⟩ := blockTurn_eq ht
  rcases step_of_blockTurn_cases ht with ⟨e, -⟩ | ⟨r, s₀, hacc, -⟩ | ⟨-, s', hs, e⟩
  · cases hstep.symm.trans e
    exact .inr ⟨hp, rfl⟩
  · obtain ⟨hended, hresp⟩ := hacc.ends_read hp hstep
    exact .inl ⟨hended, .inr (.inr hresp)⟩
  · cases hstep.symm.trans e
    rcases syncMove_response hs with ⟨hended, hframe | hclosed⟩ | ⟨hpending, hresp⟩
    · exact .inl ⟨hended, .inl hframe⟩
    · exact .inl ⟨hended, .inr (.inl hclosed)⟩
    · exact .inr ⟨hpending.trans hp, hresp⟩

/-- Settles O39: besides the block's turns only reset ends a read. -/
theorem readGetsOneResponse : Obligations.ReadGetsOneResponse := by
  intro s t hp hstep
  have hne : s.pending ≠ .none := by simp [hp]
  rcases step_cases s with ⟨c, s₁, ht, -⟩ | ⟨r, l, hs, e⟩ | ⟨l, hs, e⟩ | ⟨bs, l, hs, e⟩ | ⟨l, hs, e⟩ | ⟨l, hs, e⟩
    | ⟨l, hs, e⟩
  case inl =>
    rcases blockTurn_response ht hp hstep with ⟨hended, hresp⟩ | ⟨hpending, hresp⟩
    · exact ⟨fun _ => .inr hresp, by simp [hended]⟩
    · exact ⟨by simp [hpending], fun _ _ => hresp⟩
  all_goals
    have hturn : ¬ ∃ c s₁, blockTurn s = some (c, s₁) := by simp [blockTurn, hs]
    refine ⟨fun hended => ?_, fun _ hblock => absurd hblock hturn⟩
    rw [hstep] at e
    cases e
  · exact absurd hended hne
  · exact absurd hended hne
  · rcases deliver_cases bs { s with schedule := l } with ⟨-, e⟩ | ⟨-, e⟩
    all_goals
      rw [e] at hended
      exact absurd hended hne
  · exact absurd hended hne
  · exact .inl ⟨by simp [hs], rfl⟩
  · exact absurd hended hne

end Sys2Proof.Machine
end

section
/-! PROOFS. What a byte does to a read, said once for the machine's byte step and for the loop of `sync_run`
(spec/42_sync.md R80 to R85, R93); from it the discards a step can make, and that no step reads their trace. -/

namespace Sys2Proof.Machine

/-! ### The effect of a byte -/

/-- What a byte does to a read: it goes on at this phase, with this candidate and count, and perhaps a discard; or it returns a
frame. -/
inductive ByteEffect where
  | goesOn (phase : SyncPhase) (buf : List Byte) (need : Nat) (lost : List FrameError)
  | returns (f : FrameRecord)

/-- The end of a candidate: R84 or R85. -/
def candidateEffect (cfg : Config) (candidate : List Byte) : ByteEffect :=
  match decodeFrame cfg candidate with
  | .ok f => .returns f
  | .error e => .goesOn .scan [] 0 [e]

/-- What `b` does to a read at `phase` with the candidate `buf` and the count `need`: R80 to R83. -/
def byteEffect (cfg : Config) (b : Byte) (phase : SyncPhase) (buf : List Byte) (need : Nat) : ByteEffect :=
  match phase with
  | .idle => .goesOn .idle buf need []
  | .scan => if b = cfg.marker0 then .goesOn .mark1 [b] need [] else .goesOn .scan buf need []
  | .mark1 =>
    if b = cfg.marker1 then .goesOn .hdr (buf ++ [b]) 7 []
    else if b = cfg.marker0 then .goesOn .mark1 [b] need []
    else .goesOn .scan [] need []
  | .hdr =>
    if need - 1 = 0 then .goesOn .body (buf ++ [b]) (lengthByte (buf ++ [b]) + 4) []
    else .goesOn .hdr (buf ++ [b]) (need - 1) []
  | .body =>
    if need - 1 = 0 then candidateEffect cfg (buf ++ [b]) else .goesOn .body (buf ++ [b]) (need - 1) []

/-- The effect on the machine's state. -/
def ByteEffect.apply (s : State) : ByteEffect → State
  | .goesOn phase buf need lost =>
    { s with syncPhase := phase, syncBuf := buf, syncNeed := need, discards := s.discards ++ lost }
  | .returns f => (s.respond { status := .ok, frame := some f }).endRead

/-- The effect on `sync_run`: its answer, where the byte is the `i`-th of the queue and `q` are the bytes behind it. -/
def ByteEffect.run (cfg : Config) (closed : Bool) (q : List Byte) (i : Nat) (ds : List FrameError) :
    ByteEffect → ReadResult
  | .goesOn phase buf need lost => syncLoop cfg closed q phase buf need i (ds ++ lost)
  | .returns f => ⟨.frame f, i, ds⟩

theorem finishCandidate_eq_apply (c : List Byte) (s : State) :
    finishCandidate c s = (candidateEffect s.cfg c).apply s := by
  rw [finishCandidate, candidateEffect]
  cases decodeFrame s.cfg c <;> rfl

/-- The machine's byte step is the byte's effect. -/
theorem syncByte_eq_apply (b : Byte) (s : State) :
    syncByte b s = (byteEffect s.cfg b s.syncPhase s.syncBuf s.syncNeed).apply s := by
  cases hp : s.syncPhase with
  | idle =>
    rw [syncByte, hp]
    simp [byteEffect, ByteEffect.apply, ← hp]
  | scan =>
    rw [syncByte_scan b hp, scanByte, byteEffect]
    split <;> simp [ByteEffect.apply, ← hp]
  | mark1 =>
    rw [syncByte_mark1 b hp, mark1Byte, byteEffect]
    (repeat' split) <;> simp [ByteEffect.apply, ← hp]
  | hdr =>
    rw [syncByte_hdr b hp, hdrByte, byteEffect]
    split <;> simp [ByteEffect.apply, lengthByte, checksumSize, ← hp]
  | body =>
    rw [syncByte_body b hp, bodyByte, byteEffect]
    split
    · exact finishCandidate_eq_apply _ s
    · simp [ByteEffect.apply, ← hp]

/-- A read in progress at `phase` with the candidate `buf`: in `SCAN` there is none. -/
structure ReadAt (phase : SyncPhase) (buf : List Byte) : Prop where
  phase_ne : phase ≠ .idle
  scan_nil : phase = .scan → buf = []

theorem readAt_scan : ReadAt .scan [] := ⟨by decide, fun _ => rfl⟩
theorem readAt_mark1 (buf : List Byte) : ReadAt .mark1 buf := ⟨by decide, nofun⟩
theorem readAt_hdr (buf : List Byte) : ReadAt .hdr buf := ⟨by decide, nofun⟩
theorem readAt_body (buf : List Byte) : ReadAt .body buf := ⟨by decide, nofun⟩

/-- The invariant of R20 at a phase that is not `IDLE`. -/
theorem SyncInv.readAt {s : State} (h : SyncInv s) (hphase : s.syncPhase ≠ .idle) : ReadAt s.syncPhase s.syncBuf :=
  ⟨hphase, fun hscan => ((syncInv_of_scan hscan).mp h).1⟩

section
variable {cfg : Config} {b : Byte} {phase phase' : SyncPhase} {buf buf' : List Byte} {need need' : Nat}
  {lost : List FrameError}

/-- `sync_run`'s loop takes the byte's effect. -/
theorem syncLoop_cons (h : phase ≠ .idle) (cfg : Config) (closed : Bool) (b : Byte) (q buf : List Byte) (need i : Nat)
    (ds : List FrameError) :
    syncLoop cfg closed (b :: q) phase buf need i ds = (byteEffect cfg b phase buf need).run cfg closed q (i + 1) ds := by
  cases phase with
  | idle => exact absurd rfl h
  | scan =>
    rw [syncLoop, byteEffect]
    split <;> simp [ByteEffect.run]
  | mark1 =>
    rw [syncLoop, byteEffect]
    (repeat' split) <;> simp [ByteEffect.run]
  | hdr =>
    rw [syncLoop, byteEffect]
    split <;> simp [ByteEffect.run, lengthByte]
  | body =>
    rw [syncLoop, byteEffect, candidateEffect]
    split
    · cases decodeFrame cfg (buf ++ [b]) <;> rfl
    · simp [ByteEffect.run]

/-- A candidate returns the frame it decodes to, or its error is discarded and scanning resumes. -/
theorem candidateEffect_cases (cfg : Config) (c : List Byte) :
    (∃ f, decodeFrame cfg c = .ok f ∧ candidateEffect cfg c = .returns f)
    ∨ (∃ e, decodeFrame cfg c = .error e ∧ candidateEffect cfg c = .goesOn .scan [] 0 [e]) := by
  rw [candidateEffect]
  cases decodeFrame cfg c <;> simp

/-- A byte returns the frame of the candidate it completes, or the read goes on, with a candidate made of the last bytes of
the old one and the new byte. -/
theorem byteEffect_cases (cfg : Config) (b : Byte) (need : Nat) (h : ReadAt phase buf) :
    (∃ f, decodeFrame cfg (buf ++ [b]) = .ok f ∧ byteEffect cfg b phase buf need = .returns f)
    ∨ (∃ phase' buf' need' lost, ReadAt phase' buf' ∧ buf' <:+ buf ++ [b]
        ∧ byteEffect cfg b phase buf need = .goesOn phase' buf' need' lost) := by
  cases phase with
  | idle => exact absurd rfl h.phase_ne
  | scan =>
    obtain rfl := h.scan_nil rfl
    rw [byteEffect]
    split
    · exact .inr ⟨_, _, _, _, readAt_mark1 _, List.suffix_rfl, rfl⟩
    · exact .inr ⟨_, _, _, _, readAt_scan, List.nil_suffix, rfl⟩
  | mark1 =>
    rw [byteEffect]
    split
    · exact .inr ⟨_, _, _, _, readAt_hdr _, List.suffix_rfl, rfl⟩
    · split
      · exact .inr ⟨_, _, _, _, readAt_mark1 _, List.suffix_append _ _, rfl⟩
      · exact .inr ⟨_, _, _, _, readAt_scan, List.nil_suffix, rfl⟩
  | hdr =>
    rw [byteEffect]
    split
    · exact .inr ⟨_, _, _, _, readAt_body _, List.suffix_rfl, rfl⟩
    · exact .inr ⟨_, _, _, _, readAt_hdr _, List.suffix_rfl, rfl⟩
  | body =>
    rw [byteEffect]
    split
    · rcases candidateEffect_cases cfg (buf ++ [b]) with hf | ⟨e, -, he⟩
      · exact .inl hf
      · exact .inr ⟨_, _, _, _, readAt_scan, List.nil_suffix, he⟩
    · exact .inr ⟨_, _, _, _, readAt_body _, List.suffix_rfl, rfl⟩

/-- Only a byte that completes a candidate which does not decode makes a discard. -/
theorem byteEffect_lost (h : byteEffect cfg b phase buf need = .goesOn phase' buf' need' lost) :
    lost = [] ∨ (phase = .body ∧ need - 1 = 0 ∧ ∃ e, decodeFrame cfg (buf ++ [b]) = .error e ∧ lost = [e]) := by
  cases phase with
  | body =>
    rw [byteEffect] at h
    split at h
    · next hneed =>
      rcases candidateEffect_cases cfg (buf ++ [b]) with ⟨f, -, hf⟩ | ⟨e, hdec, he⟩
      · cases hf.symm.trans h
      · cases he.symm.trans h
        exact .inr ⟨rfl, hneed, e, hdec, rfl⟩
    · cases h
      exact .inl rfl
  | _ =>
    rw [byteEffect] at h
    (repeat' split at h) <;> cases h <;> exact .inl rfl

end

/-! ### The discards (R91) -/

/-- With the marker and the length right, only the message type and the trailer can be wrong (R71, R75). -/
theorem decodeFrame_error_of_shape {cfg : Config} {r : List Byte} {e : FrameError}
    (hm : r.take 2 = [cfg.marker0, cfg.marker1]) (hlen : 13 + lengthByte r = r.length)
    (h : decodeFrame cfg r = .error e) :
    e = .framing .type ∨ ∃ computed received, computed ≠ received ∧ e = .checksum computed received := by
  rw [decodeFrame_of_shape (by omega) hm hlen] at h
  split at h
  · cases h
    exact .inl rfl
  · split at h
    · next hcrc =>
      cases h
      exact .inr ⟨_, _, hcrc, rfl⟩
    · cases h

/-- In `BODY` the last byte the count asks for completes a candidate of the right marker and length (R91). -/
theorem SyncInv.candidate_shape {s : State} (h : SyncInv s) (hp : s.syncPhase = .body) (hneed : s.syncNeed - 1 = 0)
    (b : Byte) :
    (s.syncBuf ++ [b]).take 2 = [s.cfg.marker0, s.cfg.marker1]
      ∧ 13 + lengthByte (s.syncBuf ++ [b]) = (s.syncBuf ++ [b]).length := by
  obtain ⟨k, hlen, hk, hcount, hmark⟩ := (syncInv_of_body hp).mp h
  refine ⟨by rw [List.take_append_of_le_length (by omega), hmark], ?_⟩
  rw [lengthByte, byteAt_append_left _ _ (by omega), List.length_append, List.length_singleton]
  omega

/-- A synchronizer step makes no discard, or one that R91 allows. -/
theorem syncMove_discards {s s' : State} (h : SyncInv s) (hs : s.syncMove = some s') :
    s'.discards = s.discards ∨ ∃ e, s'.discards = s.discards ++ [e]
      ∧ (e = .framing .type ∨ ∃ computed received, computed ≠ received ∧ e = .checksum computed received) := by
  rcases syncMove_cases s with ⟨-, b, q, -, e⟩ | ⟨-, -, -, e⟩ | ⟨-, -, -, e⟩ | ⟨-, e⟩
  all_goals rw [hs] at e
  · obtain rfl := Option.some.inj e
    rw [syncByte_eq_apply]
    dsimp only
    cases heff : byteEffect s.cfg b s.syncPhase s.syncBuf s.syncNeed with
    | returns f => exact .inl rfl
    | goesOn phase buf need lost =>
      rcases byteEffect_lost heff with rfl | ⟨hp, hneed, err, hdec, rfl⟩
      · exact .inl (List.append_nil _)
      · obtain ⟨hm, hlen⟩ := h.candidate_shape hp hneed b
        exact .inr ⟨err, rfl, decodeFrame_error_of_shape hm hlen hdec⟩
  · obtain rfl := Option.some.inj e
    exact .inl rfl
  · cases e
  · cases e

theorem acceptCommand_discards {r : Request} {s t : State} (h : acceptCommand r s = .next t) :
    t.discards = s.discards := by
  rcases acceptCommand_cases r s with ⟨-, e⟩ | ⟨-, e⟩ | ⟨-, e⟩ | ⟨-, -, e⟩ | ⟨-, -, x, e⟩
  all_goals
    rw [h] at e
    cases e
    rfl

/-- A step makes no discard, or one that R91 allows. -/
theorem step_discards {s t : State} (h : SyncInv s) (hstep : step s = .next t) :
    t.discards = s.discards ∨ ∃ e, t.discards = s.discards ++ [e]
      ∧ (e = .framing .type ∨ ∃ computed received, computed ≠ received ∧ e = .checksum computed received) := by
  rcases step_cases s with ⟨c, s₁, ht, -⟩ | ⟨r, l, -, e⟩ | ⟨l, -, e⟩ | ⟨bs, l, -, e⟩ | ⟨l, -, e⟩ | ⟨l, -, e⟩
    | ⟨l, -, e⟩
  case inl =>
    obtain ⟨l, rfl⟩ := blockTurn_eq ht
    rcases step_of_blockTurn_cases ht with ⟨e, -⟩ | ⟨r, s₀, hacc, e⟩ | ⟨-, s', hs, e⟩
    all_goals rw [hstep] at e
    · cases e
      exact .inl rfl
    · obtain ⟨l, rest, rfl⟩ := hacc.eq
      exact .inl (acceptCommand_discards (s := { s with schedule := l, port := rest }) e.symm)
    · cases e
      exact syncMove_discards (s := { s with schedule := l }) h hs
  all_goals
    left
    rw [hstep] at e
    cases e
  · rfl
  · rfl
  · rcases deliver_cases bs { s with schedule := l } with ⟨-, e⟩ | ⟨-, e⟩ <;> rw [e]
  · rfl
  · rfl
  · rfl

/-- Settles O40: a complete candidate has the marker and the length its own length byte asks for. -/
theorem discardsAreTypeOrChecksum : Obligations.DiscardsAreTypeOrChecksum := by
  rintro s t e ⟨hsync, -⟩ hstep ht
  rcases step_discards hsync hstep with hnone | ⟨e', he', hallowed⟩
  · simp [hnone] at ht
  · obtain rfl : e' = e := by simpa [he'] using ht
    exact hallowed

/-! ### The trace no step reads (R88) -/

/-- The state with another trace. -/
def State.withTrace (s : State) (d : List FrameError) : State := { s with discards := d }

@[simp] theorem State.withTrace_pending (s : State) (d : List FrameError) : (s.withTrace d).pending = s.pending := rfl
@[simp] theorem State.withTrace_schedule (s : State) (d : List FrameError) : (s.withTrace d).schedule = s.schedule := rfl

/-- `f` goes from `s` to `t`, and appends the same events whatever the trace holds. -/
def AppendsToTrace (f : State → Result) (s t : State) : Prop :=
  ∃ new, t.discards = s.discards ++ new ∧ ∀ d, f (s.withTrace d) = .next (t.withTrace (d ++ new))

theorem appendsToTrace_of_keeps {f : State → Result} {s t : State} (hkeeps : t.discards = s.discards)
    (h : ∀ d, f (s.withTrace d) = .next (t.withTrace d)) : AppendsToTrace f s t :=
  ⟨[], by rw [List.append_nil, hkeeps], fun d => by rw [List.append_nil, h]⟩

/-- A command's meaning does not read the trace. -/
theorem acceptCommand_withTrace {r : Request} {s t : State} (h : acceptCommand r s = .next t) (d : List FrameError) :
    acceptCommand r (s.withTrace d) = .next (t.withTrace d) := by
  cases hdec : decodeRequest r with
  | error e =>
    rw [acceptCommand, hdec] at h ⊢
    cases h
    rfl
  | ok i =>
    rw [acceptCommand_of_decodes hdec] at h ⊢
    cases i with
    | syncAbort =>
      rw [exec, execSyncAbort, State.withTrace_pending]
      rw [exec, execSyncAbort] at h
      cases hp : s.pending <;> rw [hp] at h <;> cases h <;> rfl
    | _ =>
      cases h
      rfl

/-- Nor does a synchronizer step; the events it appends are its byte's effect. -/
theorem syncMove_withTrace {s t : State} (h : s.syncMove = some t) :
    ∃ new, t.discards = s.discards ++ new ∧ ∀ d, (s.withTrace d).syncMove = some (t.withTrace (d ++ new)) := by
  rcases syncMove_cases s with ⟨hphase, b, q, hq, e⟩ | ⟨hphase, hempty, hclosed, e⟩ | ⟨-, -, -, e⟩ | ⟨-, e⟩
  all_goals rw [h] at e
  · obtain rfl := Option.some.inj e
    have htraced (d : List FrameError) := syncMove_of_srcQueue_cons (s := s.withTrace d) hphase hq
    simp only [htraced, syncByte_eq_apply, Option.some.injEq]
    dsimp only [State.withTrace]
    cases byteEffect s.cfg b s.syncPhase s.syncBuf s.syncNeed with
    | goesOn phase buf need lost => exact ⟨lost, rfl, fun _ => rfl⟩
    | returns f => exact ⟨[], (List.append_nil _).symm, fun d => by rw [List.append_nil]; rfl⟩
  · obtain rfl := Option.some.inj e
    refine ⟨[], (List.append_nil _).symm, fun d => ?_⟩
    rw [List.append_nil, syncMove_of_eos (s := s.withTrace d) hphase hempty hclosed]
    rfl
  · cases e
  · cases e

theorem syncMove_withTrace_eq_none_iff {s : State} {d : List FrameError} :
    (s.withTrace d).syncMove = none ↔ s.syncMove = none := by
  rw [syncMove_eq_none_iff, syncMove_eq_none_iff]
  rfl

theorem blockMove_appendsToTrace {c : Bool} {s t : State} (h : blockMove c s = .next t) :
    AppendsToTrace (blockMove c) s t := by
  rcases blockMove_cases c s with ⟨hr, e⟩ | ⟨hr, r, rest, ha, hm, e⟩ | ⟨hr, s', hs, ha, e⟩ | ⟨hr, ha, hm, e⟩
  all_goals rw [h] at e
  · cases e
    exact appendsToTrace_of_keeps rfl fun d => if_pos hr
  · refine appendsToTrace_of_keeps (acceptCommand_discards (s := { s with port := rest }) e.symm) fun d => ?_
    rw [blockMove_of_acceptable (s := s.withTrace d) hr ha (hm.imp_left syncMove_withTrace_eq_none_iff.mpr)]
    exact acceptCommand_withTrace (s := { s with port := rest }) e.symm d
  · cases e
    obtain ⟨new, hnew, hmove⟩ := syncMove_withTrace hs
    exact ⟨new, hnew, fun d => blockMove_of_syncMove (s := s.withTrace d) hr (hmove d) ha⟩
  · cases e
    refine appendsToTrace_of_keeps rfl fun d => ?_
    rw [blockMove, show (s.withTrace d).acceptable = none from ha, syncMove_withTrace_eq_none_iff.mpr hm]
    exact if_neg (by simp [State.withTrace, hr])

theorem doMove_appendsToTrace {m : Move} {s t : State} (h : doMove m s = .next t) : AppendsToTrace (doMove m) s t := by
  cases m with
  | block c => exact blockMove_appendsToTrace h
  | deliver bs =>
    cases h
    rcases deliver_cases bs s with ⟨hc, e⟩ | ⟨hc, e⟩
    all_goals rw [e]
    · exact appendsToTrace_of_keeps rfl fun d => congrArg _ (State.deliver_closed (s.withTrace d) bs hc)
    · exact appendsToTrace_of_keeps rfl fun d => congrArg _ (State.deliver_open (s.withTrace d) bs hc)
  | _ =>
    cases h
    exact appendsToTrace_of_keeps rfl fun _ => rfl

/-- Settles O57: every agent's move appends the same events whatever the trace holds. -/
theorem discardTraceIsNeverRead : Obligations.DiscardTraceIsNeverRead := by
  intro s t d hstep
  suffices h : AppendsToTrace step s t by
    obtain ⟨new, hnew, htraced⟩ := h
    exact ⟨new, hnew, htraced d⟩
  cases hs : s.schedule with
  | nil =>
    rw [step_of_schedule_nil hs] at hstep
    obtain ⟨new, hnew, h⟩ := blockMove_appendsToTrace hstep
    exact ⟨new, hnew, fun d => (step_of_schedule_nil (s := s.withTrace d) hs).trans (h d)⟩
  | cons m rest =>
    rw [step_of_schedule_cons hs] at hstep
    obtain ⟨new, hnew, h⟩ := doMove_appendsToTrace hstep
    exact ⟨new, hnew, fun d => (step_of_schedule_cons (s := s.withTrace d) hs).trans (h d)⟩

end Sys2Proof.Machine
end

section
/-! PROOFS. The laws of `sync_run` (spec/42_sync.md R92 to R94): a candidate costs its own bytes, garbage without the marker pair
is skipped, and a frame it returns is decoded from the last bytes it consumed. -/

namespace Sys2Proof.Machine

/-- The answer of a read with `i` bytes and the discards `ds` before it. -/
def ReadResult.after (i : Nat) (ds : List FrameError) (R : ReadResult) : ReadResult :=
  ⟨R.outcome, i + R.consumed, ds ++ R.discards⟩

theorem ReadResult.after_after (i j : Nat) (ds es : List FrameError) (R : ReadResult) :
    (R.after j es).after i ds = R.after (i + j) (ds ++ es) := by
  simp [ReadResult.after, Nat.add_assoc]

section
variable {cfg : Config} {closed : Bool} {phase : SyncPhase} {buf : List Byte} {need : Nat}

/-- The loop only counts on from the bytes consumed and the discards made before it. -/
theorem syncLoop_eq_after (h : ReadAt phase buf) (q : List Byte) (need i : Nat) (ds : List FrameError) :
    syncLoop cfg closed q phase buf need i ds = (syncLoop cfg closed q phase buf need 0 []).after i ds := by
  induction q generalizing phase buf need i ds with
  | nil => simp [syncLoop, ReadResult.after]
  | cons b q ih =>
    rw [syncLoop_cons h.phase_ne, syncLoop_cons h.phase_ne]
    rcases byteEffect_cases cfg b need h with ⟨f, -, e⟩ | ⟨phase', buf', need', lost, h', -, e⟩
    all_goals rw [e, ByteEffect.run, ByteEffect.run]
    · simp [ReadResult.after]
    · rw [ih h', ih h' _ (0 + 1), ReadResult.after_after, List.nil_append, Nat.zero_add]

/-- Bytes read before the rest of the queue: the rest is a read of its own. -/
theorem syncLoop_scan_eq_after (q : List Byte) (i : Nat) (ds : List FrameError) :
    syncLoop cfg closed q .scan [] 0 i ds = (syncRun cfg q closed).after i ds :=
  syncLoop_eq_after readAt_scan q 0 i ds

/-! ### A candidate (R81 to R85, R92) -/

/-- The marker pair begins a candidate. -/
theorem syncLoop_marker (q : List Byte) (i : Nat) (ds : List FrameError) :
    syncLoop cfg closed (cfg.marker0 :: cfg.marker1 :: q) .scan [] 0 i ds =
      syncLoop cfg closed q .hdr [cfg.marker0, cfg.marker1] 7 (i + 2) ds := by
  simp [syncLoop]

/-- The header bytes still missing are read unexamined; the last one gives the count of `BODY`. -/
theorem syncLoop_header {header : List Byte} (hne : header ≠ []) (q buf : List Byte) (i : Nat) (ds : List FrameError) :
    syncLoop cfg closed (header ++ q) .hdr buf header.length i ds =
      syncLoop cfg closed q .body (buf ++ header) (lengthByte (buf ++ header) + 4) (i + header.length) ds := by
  induction header generalizing buf i with
  | nil => exact absurd rfl hne
  | cons b header ih =>
    cases header with
    | nil => simp [syncLoop, lengthByte]
    | cons c header =>
      have hmore : (b :: c :: header).length - 1 = (c :: header).length := rfl
      rw [List.cons_append, syncLoop, if_neg (by simp), hmore, ih (by simp)]
      simp [Nat.add_assoc, Nat.add_comm 1]

/-- The bytes still missing in `BODY` complete the candidate. -/
theorem syncLoop_body {bytes : List Byte} (hne : bytes ≠ []) (q buf : List Byte) (i : Nat) (ds : List FrameError) :
    syncLoop cfg closed (bytes ++ q) .body buf bytes.length i ds =
      (candidateEffect cfg (buf ++ bytes)).run cfg closed q (i + bytes.length) ds := by
  induction bytes generalizing buf i with
  | nil => exact absurd rfl hne
  | cons b bytes ih =>
    rw [List.cons_append, syncLoop_cons (by decide), byteEffect]
    cases bytes with
    | nil => exact congrArg (ByteEffect.run cfg closed q (i + 1) ds) (if_pos rfl)
    | cons c bytes =>
      have hmore : (b :: c :: bytes).length - 1 = (c :: bytes).length := rfl
      rw [if_neg (by simp), hmore, ByteEffect.run, List.append_nil, ih (by simp)]
      simp [Nat.add_assoc, Nat.add_comm 1]

end

/-- A candidate of the right shape is its marker, seven header bytes, and the bytes its length byte asks for. -/
theorem candidate_eq_parts {cfg : Config} {C : List Byte} (hm : C.take 2 = [cfg.marker0, cfg.marker1])
    (hlen : C.length = 13 + lengthByte C) :
    ∃ header bytes, C = cfg.marker0 :: cfg.marker1 :: (header ++ bytes) ∧ header.length = 7
      ∧ bytes.length = lengthByte (cfg.marker0 :: cfg.marker1 :: header) + 4 := by
  have hC : C = cfg.marker0 :: cfg.marker1 :: ((C.drop 2).take 7 ++ (C.drop 2).drop 7) := by
    rw [List.take_append_drop]
    exact (List.take_append_drop 2 C).symm.trans (by rw [hm]; rfl)
  have hheader : ((C.drop 2).take 7).length = 7 := by
    rw [List.length_take, List.length_drop]
    omega
  refine ⟨_, _, hC, hheader, ?_⟩
  have hL : lengthByte C = lengthByte (cfg.marker0 :: cfg.marker1 :: (C.drop 2).take 7) := by
    conv_lhs => rw [hC]
    exact congrArg BitVec.toNat (byteAt_append_left (cfg.marker0 :: cfg.marker1 :: (C.drop 2).take 7) _ (by simp [hheader]))
  rw [← hL, List.drop_drop, List.length_drop]
  omega

/-- Scanning at a candidate reads exactly its bytes, and then its end decides (R84, R85, R92). -/
theorem syncLoop_candidate {cfg : Config} {closed : Bool} {C : List Byte} (hm : C.take 2 = [cfg.marker0, cfg.marker1])
    (hlen : C.length = 13 + lengthByte C) (q : List Byte) (i : Nat) (ds : List FrameError) :
    syncLoop cfg closed (C ++ q) .scan [] 0 i ds = (candidateEffect cfg C).run cfg closed q (i + C.length) ds := by
  obtain ⟨header, bytes, rfl, hheader, hbytes⟩ := candidate_eq_parts hm hlen
  have hne : header ≠ [] := List.ne_nil_of_length_pos (by omega)
  have hne' : bytes ≠ [] := List.ne_nil_of_length_pos (by omega)
  calc syncLoop cfg closed (cfg.marker0 :: cfg.marker1 :: (header ++ bytes) ++ q) .scan [] 0 i ds
      = syncLoop cfg closed (header ++ (bytes ++ q)) .hdr [cfg.marker0, cfg.marker1] header.length (i + 2) ds := by
        rw [List.cons_append, List.cons_append, syncLoop_marker, List.append_assoc, hheader]
    _ = syncLoop cfg closed (bytes ++ q) .body (cfg.marker0 :: cfg.marker1 :: header) bytes.length
          (i + 2 + header.length) ds := by
        rw [syncLoop_header hne, hbytes]
        rfl
    _ = _ := by
        rw [syncLoop_body hne']
        simp [Nat.add_assoc, Nat.add_comm 2]

/-- A frame at the head of the queue is returned, and no byte behind it is consumed (R84). -/
theorem syncLoop_frame {cfg : Config} {closed : Bool} {F : List Byte} {f : FrameRecord} (h : decodeFrame cfg F = .ok f)
    (q : List Byte) (i : Nat) (ds : List FrameError) :
    syncLoop cfg closed (F ++ q) .scan [] 0 i ds = ⟨.frame f, i + F.length, ds⟩ := by
  obtain ⟨⟨⟨-, hm, hlen, -⟩, -⟩, -⟩ := decodeFrame_eq_ok_iff.mp h
  rw [syncLoop_candidate hm hlen.symm, candidateEffect, h, ByteEffect.run]

/-- Settles O43: the candidate's own bytes (`syncLoop_candidate`), then a read of the bytes behind it. -/
theorem discardResumesBehindCandidate : Obligations.DiscardResumesBehindCandidate := by
  intro cfg C rest e closed hm hlen hdec R
  rw [syncRun, syncLoop_candidate hm hlen, candidateEffect, hdec, ByteEffect.run, syncLoop_scan_eq_after, Nat.zero_add]
  rfl

/-! ### Garbage without the marker pair (R94) -/

/-- In `MARK1` a byte that is not `MARKER1` is treated as `SCAN` treats it (R81). -/
theorem syncLoop_mark1_of_ne {cfg : Config} {closed : Bool} {b : Byte} (h : b ≠ cfg.marker1) (q : List Byte) (i : Nat)
    (ds : List FrameError) :
    syncLoop cfg closed (b :: q) .mark1 [cfg.marker0] 0 i ds = syncLoop cfg closed (b :: q) .scan [] 0 i ds := by
  simp [syncLoop, h]

/-- Garbage before a `MARKER0` is skipped, also where it ends in `MARKER0` itself. -/
theorem syncLoop_garbage {cfg : Config} {closed : Bool} {g : List Byte} (hg : ¬ [cfg.marker0, cfg.marker1] <:+: g)
    (q : List Byte) (i : Nat) (ds : List FrameError) :
    syncLoop cfg closed (g ++ cfg.marker0 :: q) .scan [] 0 i ds =
      syncLoop cfg closed (cfg.marker0 :: q) .scan [] 0 (i + g.length) ds := by
  induction g generalizing i with
  | nil => rfl
  | cons b g ih =>
    have hskip := ih (fun hpair => hg (List.infix_cons hpair)) (i + 1)
    rw [Nat.add_assoc, Nat.add_comm 1, ← List.length_cons] at hskip
    rw [← hskip, List.cons_append, syncLoop]
    split
    · next hb =>
      rw [hb]
      cases g with
      | nil => exact syncLoop_mark1_of_ne cfg.markers_distinct _ _ _
      | cons c g =>
        have hc : c ≠ cfg.marker1 := by
          rintro rfl
          exact hg ⟨[], g, by rw [hb]; rfl⟩
        exact syncLoop_mark1_of_ne hc _ _ _
    · rfl

/-- A frame behind such garbage is returned (R94). -/
theorem syncRun_garbage_frame {cfg : Config} {closed : Bool} {g F : List Byte} {f : FrameRecord}
    (hg : ¬ [cfg.marker0, cfg.marker1] <:+: g) (h : decodeFrame cfg F = .ok f) (q : List Byte) :
    syncRun cfg (g ++ F ++ q) closed = ⟨.frame f, g.length + F.length, []⟩ := by
  obtain ⟨rest, hF⟩ : ∃ rest, F = cfg.marker0 :: rest := by
    obtain ⟨⟨⟨-, hm, -, -⟩, -⟩, -⟩ := decodeFrame_eq_ok_iff.mp h
    exact ⟨_, (List.take_append_drop 2 F).symm.trans (by rw [hm]; rfl)⟩
  have hskip := syncLoop_garbage (closed := closed) hg (rest ++ q) 0 []
  rw [← List.cons_append, ← hF, syncLoop_frame h, Nat.zero_add] at hskip
  rw [syncRun, List.append_assoc, hskip]

/-! ### The frame a read returns (R84, R92) -/

/-- A frame the loop returns is decoded from the last bytes of its candidate and the bytes it consumed. -/
theorem syncLoop_frame_decodes {cfg : Config} {closed : Bool} {f : FrameRecord} {phase : SyncPhase} {buf q : List Byte}
    {need i : Nat} {ds : List FrameError} (h : ReadAt phase buf)
    (hf : (syncLoop cfg closed q phase buf need i ds).outcome = .frame f) :
    ∃ p c, p <+: q ∧ (syncLoop cfg closed q phase buf need i ds).consumed = i + p.length ∧ c <:+ buf ++ p
      ∧ decodeFrame cfg c = .ok f := by
  induction q generalizing phase buf need i ds with
  | nil => cases closed <;> simp [syncLoop] at hf
  | cons b q ih =>
    rw [syncLoop_cons h.phase_ne] at hf ⊢
    rcases byteEffect_cases cfg b need h with ⟨f', hdec, e⟩ | ⟨phase', buf', need', lost, h', ⟨old, hold⟩, e⟩
    all_goals rw [e, ByteEffect.run] at hf ⊢
    · cases hf
      exact ⟨[b], buf ++ [b], by simp, rfl, List.suffix_rfl, hdec⟩
    · obtain ⟨p, c, hp, hconsumed, hc, hdec⟩ := ih h' hf
      refine ⟨b :: p, c, List.cons_prefix_cons.mpr ⟨rfl, hp⟩, ?_, ?_, hdec⟩
      · rw [hconsumed, List.length_cons, Nat.add_assoc, Nat.add_comm 1]
      · rw [List.append_cons, ← hold, List.append_assoc]
        exact hc.trans (List.suffix_append _ _)

/-- A frame that decodes has 13 bytes and its payload (spec/41_codec.md R66). -/
theorem decodeFrame_ok_length {cfg : Config} {c : List Byte} {f : FrameRecord} (h : decodeFrame cfg c = .ok f) :
    c.length = 13 + f.payload.length := by
  obtain ⟨⟨⟨-, -, hlen, -⟩, -⟩, rfl⟩ := decodeFrame_eq_ok_iff.mp h
  simp only [fieldsOf, List.length_take, List.length_drop]
  omega

/-- Settles O45: the loop's invariant is that the candidate is made of the last bytes consumed. -/
theorem returnedFrameIsDecodedFromSource : Obligations.ReturnedFrameIsDecodedFromSource := by
  intro cfg q closed f hf
  obtain ⟨p, c, hp, hconsumed, ⟨old, hold⟩, hdec⟩ := syncLoop_frame_decodes readAt_scan hf
  rw [← syncRun, Nat.zero_add] at hconsumed
  rw [List.nil_append] at hold
  have hlen := decodeFrame_ok_length hdec
  have hbytes : q.take p.length = old ++ c := (List.prefix_iff_eq_take.mp hp).symm.trans hold.symm
  rw [hconsumed]
  refine ⟨hp.length_le, old.length, ?_, ?_⟩
  · rw [← hold, List.length_append, hlen, Nat.add_assoc]
  · rw [hbytes, List.drop_left, hdec]

end Sys2Proof.Machine
end

section
/-! PROOFS. The machine computes `sync_run` (spec/42_sync.md R93 to R97): a read left to the block takes one step for each byte
the loop consumes, and one for the end of stream. With the laws of `sync_run` this gives what one SYNC_READ and two of them
return. -/

namespace Sys2Proof.Machine

/-! ### The step of a read that is left alone -/

/-- The state a read ends in: `i` bytes consumed, the discards `ds` made, and the answer `x`. -/
def State.readEnded (s : State) (i : Nat) (ds : List FrameError) (x : Response) : State :=
  { s with
    srcQueue := s.srcQueue.drop i
    responses := s.responses ++ [x]
    discards := s.discards ++ ds
    syncBuf := []
    syncNeed := 0
    syncPhase := .idle
    pending := .none }

/-- The machine's run of a read to the answer `R` of the loop: to the frame, to the end of stream, or to a hold. -/
def RunsRead (s : State) (R : ReadResult) : Prop :=
  match R.outcome with
  | .frame f => R.consumed ≤ s.srcQueue.length
      ∧ runSteps R.consumed s = .next (s.readEnded R.consumed R.discards { status := .ok, frame := some f })
  | .streamClosed => R.consumed = s.srcQueue.length ∧ s.srcClosed = true
      ∧ runSteps (R.consumed + 1) s = .next (s.readEnded R.consumed R.discards { status := .streamClosed })
  | .hold => R.consumed = s.srcQueue.length ∧ s.srcClosed = false
      ∧ ∃ t, runSteps R.consumed s = .next t ∧ step t = .next t ∧ t.pending = .syncRead ∧ t.srcQueue = []
        ∧ t.responses = s.responses ∧ t.discards = s.discards ++ R.discards

section
variable {s : State}

/-- A pending read of a steady block with nothing scheduled moves at each step. -/
theorem Steady.step_of_syncRead (hs : Steady s) (hschedule : s.schedule = []) (hp : s.pending = .syncRead) :
    step s = .next (s.syncMove.getD s) :=
  step_eq_of_byteTurn ⟨hs.released, true, by rw [blockTurn, hschedule], .inl (hs.acceptable_of_syncRead hp)⟩

theorem RunsRead.of_empty (hs : Steady s) (hschedule : s.schedule = []) (hphase : s.syncPhase ≠ .idle)
    (hq : s.srcQueue = []) : RunsRead s (readFrom s) := by
  have hp : s.pending = .syncRead := hs.pendingInv.mpr hphase
  have hstep := hs.step_of_syncRead hschedule hp
  rw [readFrom, hq, syncLoop, RunsRead]
  cases hc : s.srcClosed with
  | true =>
    rw [syncMove_of_eos hphase hq hc, Option.getD_some] at hstep
    refine ⟨by rw [hq]; rfl, rfl, ?_⟩
    rw [runSteps_succ_of_step _ hstep, runSteps]
    simp [syncEos_eq, State.endRead, State.syncTo, State.respond, State.readEnded]
  | false =>
    rw [syncMove_eq_none_iff.mpr (.inr ⟨hq, hc⟩), Option.getD_none] at hstep
    exact ⟨by rw [hq]; rfl, rfl, s, rfl, hstep, hp, hq, rfl, (List.append_nil _).symm⟩

/-- The state after a byte with which the read goes on. -/
def State.readOn (s : State) (q : List Byte) (phase : SyncPhase) (buf : List Byte) (need : Nat) (lost : List FrameError) :
    State :=
  { s with
    srcQueue := q, syncPhase := phase, syncBuf := buf, syncNeed := need, discards := s.discards ++ lost }

/-- A byte in front adds one step and one byte consumed. -/
theorem RunsRead.cons {b : Byte} {q : List Byte} {phase : SyncPhase} {buf : List Byte} {need : Nat}
    {lost : List FrameError} {R : ReadResult} (hq : s.srcQueue = b :: q)
    (hstep : step s = .next (s.readOn q phase buf need lost)) (h : RunsRead (s.readOn q phase buf need lost) R) :
    RunsRead s (R.after 1 lost) := by
  obtain ⟨outcome, i, ds⟩ := R
  have hended (x : Response) : s.readEnded (1 + i) (lost ++ ds) x
      = (s.readOn q phase buf need lost).readEnded i ds x := by
    simp [State.readEnded, State.readOn, hq, Nat.add_comm 1]
  have hlength : s.srcQueue.length = 1 + q.length := by rw [hq, List.length_cons, Nat.add_comm]
  cases outcome with
  | frame f =>
    obtain ⟨hle, hrun⟩ := h
    refine ⟨hlength ▸ Nat.add_le_add_left hle 1, ?_⟩
    dsimp only [ReadResult.after]
    rw [hended, Nat.add_comm, runSteps_succ_of_step _ hstep]
    exact hrun
  | streamClosed =>
    obtain ⟨hall, hclosed, hrun⟩ := h
    refine ⟨hlength ▸ congrArg (1 + ·) hall, hclosed, ?_⟩
    dsimp only [ReadResult.after]
    rw [hended, Nat.add_comm 1, runSteps_succ_of_step _ hstep]
    exact hrun
  | hold =>
    obtain ⟨hall, hopen, t, hrun, hhold, hp, hempty, hresp, hdiscards⟩ := h
    refine ⟨hlength ▸ congrArg (1 + ·) hall, hopen, t, ?_, hhold, hp, hempty, hresp, ?_⟩
    · dsimp only [ReadResult.after]
      rw [Nat.add_comm, runSteps_succ_of_step _ hstep]
      exact hrun
    · rw [hdiscards]
      exact List.append_assoc _ _ _

/-- The machine runs a read as `sync_run`'s loop does, from any state of the read (R93): by induction on the bytes queued, each
byte having one effect on both. -/
theorem Steady.runsRead (hs : Steady s) (hschedule : s.schedule = []) (hphase : s.syncPhase ≠ .idle) :
    RunsRead s (readFrom s) := by
  induction hq : s.srcQueue generalizing s with
  | nil => exact RunsRead.of_empty hs hschedule hphase hq
  | cons b q ih =>
    obtain ⟨hsync, hpend, -⟩ := hs.inv
    have hmove := syncMove_of_srcQueue_cons hphase hq
    have hstep := hs.step_of_syncRead hschedule (hpend.mpr hphase)
    rw [hmove, Option.getD_some, syncByte_eq_apply] at hstep
    rw [syncByte_eq_apply] at hmove
    dsimp only at hstep hmove
    have hread := hsync.readAt hphase
    rw [readFrom, hq, syncLoop_cons hphase]
    rcases byteEffect_cases s.cfg b s.syncNeed hread with ⟨f, -, e⟩ | ⟨phase, buf, need, lost, h, -, e⟩
    all_goals
      rw [e, ByteEffect.run]
      rw [e] at hstep hmove
    · refine ⟨by simp [hq], (runSteps_succ_of_step 0 hstep).trans ?_⟩
      simp [runSteps, ByteEffect.apply, State.endRead, State.syncTo, State.respond, State.readEnded, hq]
    · have hnext := ih (s := s.readOn q phase buf need lost) (hs.of_advances (.sync hmove)) hschedule h.phase_ne rfl
      rw [syncLoop_eq_after h]
      exact RunsRead.cons hq hstep hnext

end

/-- From its start a read is `sync_run` of the queued bytes. -/
theorem Steady.runsRead_of_scan {s : State} (hs : Steady s) (hschedule : s.schedule = []) (hphase : s.syncPhase = .scan) :
    RunsRead s (syncRun s.cfg s.srcQueue s.srcClosed) := by
  obtain ⟨hsync, -⟩ := hs.inv
  obtain ⟨hbuf, hneed⟩ := (syncInv_of_scan hphase).mp hsync
  have hread : readFrom s = syncRun s.cfg s.srcQueue s.srcClosed := by rw [readFrom, hphase, hbuf, hneed, syncRun]
  exact hread ▸ hs.runsRead hschedule (by simp [hphase])

/-- Settles O41: the machine runs a read as the loop does (`Steady.runsRead`), here from its start. -/
theorem readRefinesSyncRun : Obligations.ReadRefinesSyncRun := by
  intro s hinv hr hschedule hp hphase hport R
  have hs : Steady s := ⟨hinv, hr, hport⟩
  have hrun : RunsRead s R := hs.runsRead_of_scan hschedule hphase
  rw [RunsRead] at hrun
  refine ⟨fun f hf => ?_, fun hc => ?_, fun hh => ?_⟩
  · rw [hf] at hrun
    exact hrun.2
  · rw [hc] at hrun
    obtain ⟨hall, hclosed, hrun⟩ := hrun
    refine ⟨hall, hclosed, ?_⟩
    rw [hrun, State.readEnded, hall, List.drop_length]
  · rw [hh] at hrun
    exact hrun

/-- Settles O46: the loop's answer on a closed source is no hold, and it consumes at most the bytes queued. -/
theorem readOfClosedSourceEnds : Obligations.ReadOfClosedSourceEnds := by
  intro s hinv hr hschedule hp hclosed hport
  have hs : Steady s := ⟨hinv, hr, hport⟩
  have hrun := hs.runsRead hschedule (hs.pendingInv.mp hp)
  rw [RunsRead] at hrun
  cases ho : (readFrom s).outcome with
  | frame f =>
    rw [ho] at hrun
    obtain ⟨hle, hrun⟩ := hrun
    exact ⟨_, _, _, Nat.le_succ_of_le hle, hrun, rfl, rfl, .inl rfl⟩
  | streamClosed =>
    rw [ho] at hrun
    obtain ⟨hall, -, hrun⟩ := hrun
    exact ⟨_, _, _, Nat.succ_le_succ hall.le, hrun, rfl, rfl, .inr rfl⟩
  | hold =>
    rw [ho] at hrun
    obtain ⟨-, hopen, -⟩ := hrun
    simp [hclosed] at hopen

/-! ### A SYNC_READ command (R94, R95) -/

/-- With no read pending, the end of a read has nothing to end. -/
theorem endRead_of_none {s : State} (h : StateInv s) (hp : s.pending = .none) : s.endRead = s := by
  obtain ⟨hsync, hpend, -⟩ := h
  have hphase : s.syncPhase = .idle := by
    by_contra hne
    exact absurd (hp.symm.trans (hpend.mpr hne)) (by decide)
  obtain ⟨hbuf, hneed⟩ := (syncInv_of_idle hphase).mp hsync
  rw [State.endRead, State.syncTo, ← hbuf, ← hneed, ← hphase, ← hp]

/-- The state in which the port has accepted a SYNC_READ and the commands `held` are left at it (R79). -/
def State.readStarted (s : State) (held : List Request) : State :=
  { ({ s with port := held } : State).syncTo .scan with pending := .syncRead }

/-- The state of an idle block after a SYNC_READ that returns the frame `f`. -/
def State.readReturned (s : State) (held : List Request) (i : Nat) (ds : List FrameError) (f : FrameRecord) : State :=
  { s with
    port := held
    srcQueue := s.srcQueue.drop i
    responses := s.responses ++ [{ status := .ok, frame := some f }]
    discards := s.discards ++ ds }

/-- A SYNC_READ at an idle port takes one step to be accepted, and one for each byte up to its frame. -/
theorem Steady.runSteps_syncRead {s : State} {r : Request} {held : List Request} {i : Nat} {ds : List FrameError}
    {f : FrameRecord} (hs : Steady s) (hschedule : s.schedule = []) (hp : s.pending = .none)
    (hport : s.port = r :: held) (hop : r.op = 0x20#8)
    (hrun : syncRun s.cfg s.srcQueue s.srcClosed = ⟨.frame f, i, ds⟩) :
    runSteps (i + 1) s = .next (s.readReturned held i ds f) := by
  have hdec : decodeRequest r = .ok .syncRead := by rw [decodeRequest, hop]; rfl
  have haccept : Advances s (s.readStarted held) := .accept hp hport (acceptCommand_of_decodes hdec _)
  have hstep := (step_of_schedule_nil hschedule).trans (hs.blockMove_of_advances true haccept)
  have hread : RunsRead (s.readStarted held) (syncRun s.cfg s.srcQueue s.srcClosed) :=
    (hs.of_advances haccept).runsRead_of_scan hschedule rfl
  rw [hrun] at hread
  rw [runSteps_succ_of_step i hstep, hread.2]
  conv_rhs => rw [← endRead_of_none hs.inv hp]
  rfl

theorem Steady.readReturned {s : State} {r : Request} {held : List Request} (hs : Steady s) (hport : s.port = r :: held)
    (i : Nat) (ds : List FrameError) (f : FrameRecord) : Steady (s.readReturned held i ds f) := by
  obtain ⟨hsync, hpend, -⟩ := hs.inv
  exact ⟨stateInv_of_running hs.released hsync hpend, hs.released,
    fun x hx => hs.noAbort x (hport ▸ List.mem_cons_of_mem r hx)⟩

/-- Settles O42: one SYNC_READ, whose `sync_run` skips the garbage and returns the frame (`syncRun_garbage_frame`). -/
theorem frameBehindGarbageIsFound : Obligations.FrameBehindGarbageIsFound := by
  intro s r held g F rest f hinv hr hschedule hp hport hop hheld hq hg hdec
  have hs : Steady s := ⟨hinv, hr, by simpa [hport, hop] using hheld⟩
  have hpair : ¬ [s.cfg.marker0, s.cfg.marker1] <:+: g := fun ⟨x, y, h⟩ => hg x y h.symm
  have hrun : syncRun s.cfg s.srcQueue s.srcClosed = ⟨.frame f, g.length + F.length, []⟩ :=
    hq ▸ syncRun_garbage_frame hpair hdec rest
  rw [Nat.add_assoc, Nat.add_comm, hs.runSteps_syncRead hschedule hp hport hop hrun, State.readReturned, hq,
    ← List.length_append, List.drop_left, List.append_nil]

/-- Settles O44: two SYNC_READs, the first returning `A`, the second discarding `C` (R92) and returning `B`. -/
theorem corruptedFrameBetweenTwoIsSkipped : Obligations.CorruptedFrameBetweenTwoIsSkipped := by
  intro s r₁ r₂ held A B C rest fA fB e hinv hr hschedule hp hport hop₁ hop₂ hheld hq hA hB hm hlen hC
  have hs : Steady s := ⟨hinv, hr, by simpa [hport, hop₁, hop₂] using hheld⟩
  have hq' : s.srcQueue = A ++ (C ++ (B ++ rest)) := by simp [hq]
  have hrunA : syncRun s.cfg s.srcQueue s.srcClosed = ⟨.frame fA, A.length, []⟩ := by
    rw [hq', syncRun, syncLoop_frame hA, Nat.zero_add]
  have hrunB : syncRun s.cfg (B ++ rest) s.srcClosed = ⟨.frame fB, B.length, []⟩ := by
    rw [syncRun, syncLoop_frame hB, Nat.zero_add]
  have hbehind : s.srcQueue.drop A.length = C ++ (B ++ rest) := by rw [hq', List.drop_left]
  have hrunCB : syncRun s.cfg (s.srcQueue.drop A.length) s.srcClosed = ⟨.frame fB, C.length + B.length, [e]⟩ := by
    rw [hbehind, discardResumesBehindCandidate s.cfg C (B ++ rest) e s.srcClosed hm hlen hC, hrunB]
  have hfirst := hs.runSteps_syncRead hschedule hp hport hop₁ hrunA
  have hsecond := (hs.readReturned hport A.length [] fA).runSteps_syncRead hschedule hp rfl hop₂ hrunCB
  rw [show 2 + A.length + C.length + B.length = (A.length + 1) + (C.length + B.length + 1) by omega, runSteps_add, hfirst]
  refine hsecond.trans ?_
  simp [State.readReturned, hq']

end Sys2Proof.Machine
end

section
/-! PROOFS. The statements of spec/60_exceptions.md: what an illegal `op` is answered, that no command and no step stops the
block, and which step gives which status. -/

namespace Sys2Proof.Machine

/-! ### An illegal command (R104) -/

theorem legalOp_eq_false_iff_not_mem (op : Byte) :
    legalOp op = false ↔ op ∉ [0x01#8, 0x02#8, 0x03#8, 0x04#8, 0x10#8, 0x11#8, 0x20#8, 0x21#8] := by
  rw [legalOp, List.contains_eq_mem, decide_eq_false_iff_not]

/-- A bundle whose `op` is outside the table is answered ILLEGAL_COMMAND, and that is all it does. -/
theorem acceptCommand_of_illegalOp {r : Request} (h : legalOp r.op = false) (s : State) :
    acceptCommand r s = .next (s.respond { status := .illegalCommand }) := by
  rw [acceptCommand, (decodeRequest_eq_error_iff r).mpr h]
  rfl

/-- The port runs the command a bundle decodes to, or answers ILLEGAL_COMMAND. -/
theorem acceptCommand_runs_or_rejects (r : Request) (s : State) :
    (∃ i, decodeRequest r = .ok i ∧ acceptCommand r s = exec i s)
    ∨ (legalOp r.op = false ∧ acceptCommand r s = .next (s.respond { status := .illegalCommand })) := by
  rcases decodeRequest_cases r with ⟨-, e⟩ | ⟨-, e⟩ | ⟨-, e⟩ | ⟨-, e⟩ | ⟨-, e⟩ | ⟨-, e⟩ | ⟨-, e⟩ | ⟨-, e⟩ | ⟨h, -⟩
  case inr.inr.inr.inr.inr.inr.inr.inr => exact .inr ⟨h, acceptCommand_of_illegalOp h s⟩
  all_goals exact .inl ⟨_, e, acceptCommand_of_decodes e s⟩

/-- Settles O8: the step accepts the bundle, and its `op` is outside the table. -/
theorem illegalCommandChangesNoState : Obligations.IllegalCommandChangesNoState :=
  fun _ s₀ r hacc hop =>
    (step_of_accepts hacc).trans (acceptCommand_of_illegalOp ((legalOp_eq_false_iff_not_mem r.op).mpr hop) s₀)

/-! ### Nothing stops the block (R87, R106, R107) -/

theorem exec_exists_next (i : Instr) (s : State) : ∃ t, exec i s = .next t := by
  cases i with
  | syncAbort =>
    cases hp : s.pending with
    | none => exact ⟨_, execSyncAbort_of_none hp⟩
    | syncRead => exact ⟨_, execSyncAbort_of_syncRead hp⟩
  | _ => exact ⟨_, rfl⟩

theorem acceptCommand_exists_next (r : Request) (s : State) : ∃ t, acceptCommand r s = .next t := by
  rcases acceptCommand_runs_or_rejects r s with ⟨i, -, e⟩ | ⟨-, e⟩
  · rw [e]
    exact exec_exists_next i s
  · exact ⟨_, e⟩

theorem blockMove_exists_next (c : Bool) (s : State) : ∃ t, blockMove c s = .next t := by
  rcases blockMove_cases c s with ⟨-, e⟩ | ⟨-, r, rest, -, -, e⟩ | ⟨-, s', -, -, e⟩ | ⟨-, -, -, e⟩
  · exact ⟨_, e⟩
  · rw [e]
    exact acceptCommand_exists_next r _
  · exact ⟨_, e⟩
  · exact ⟨_, e⟩

theorem step_exists_next (s : State) : ∃ t, step s = .next t := by
  rcases step_cases s with ⟨c, s₁, -, e⟩ | ⟨r, l, -, e⟩ | ⟨l, -, e⟩ | ⟨bs, l, -, e⟩ | ⟨l, -, e⟩ | ⟨l, -, e⟩
    | ⟨l, -, e⟩
  case inl =>
    rw [e]
    exact blockMove_exists_next c s₁
  all_goals exact ⟨_, e⟩

/-- Settles O12: every command answers a next state, and a step is one of the agents' moves. -/
theorem nothingStopsTheBlock : Obligations.NothingStopsTheBlock := ⟨exec_exists_next, step_exists_next⟩

/-! ### The statuses of a command's responses (R98 to R104) -/

/-- What the table of R98 asks of an accepted bundle and of the state it is accepted in, for a response of each
status; STREAM_CLOSED is no bundle's, since the synchronizer gives it later (R102). -/
def MayGive (r : Request) (s : State) : Status → Prop
  | .ok => True
  | .validation => r.op = 0x10#8
  | .framing => r.op = 0x11#8
  | .checksum => r.op = 0x11#8
  | .streamClosed => False
  | .aborted => s.pending = .syncRead ∧ r.op = 0x21#8
  | .illegalCommand => r.op ∉ [0x01#8, 0x02#8, 0x03#8, 0x04#8, 0x10#8, 0x11#8, 0x20#8, 0x21#8]

theorem encodeResponse_status (e : Except ValidationField (List Byte)) :
    (encodeResponse e).status = .ok ∨ (encodeResponse e).status = .validation := by
  cases e with
  | ok out => exact .inl rfl
  | error field => exact .inr rfl

theorem decodeResponse_status (e : Except FrameError FrameRecord) :
    (decodeResponse e).status = .ok ∨ (decodeResponse e).status = .framing
      ∨ (decodeResponse e).status = .checksum := by
  cases e with
  | ok f => exact .inl rfl
  | error err =>
    cases err with
    | framing reason => exact .inr (.inl rfl)
    | checksum computed received => exact .inr (.inr rfl)

section
variable {s t : State} {new : List Response} {x : Response}

/-- A step that does not lengthen the channel adds no response. -/
theorem not_mem_new_of_length_le (hlen : t.responses.length ≤ s.responses.length)
    (hnew : t.responses = s.responses ++ new) : x ∉ new := by
  have hnil : new = [] := by
    rw [hnew, List.length_append] at hlen
    exact List.eq_nil_of_length_eq_zero (by omega)
  simp [hnil]

/-- Of a single response added, which one it is. -/
theorem eq_of_mem_new {y : Response} (hone : t.responses = s.responses ++ [y])
    (hnew : t.responses = s.responses ++ new) (hx : x ∈ new) : x = y := by
  obtain rfl : [y] = new := List.append_cancel_left (hone.symm.trans hnew)
  exact List.mem_singleton.mp hx

/-- SYNC_ABORT answers ABORTED only for a pending read; its own answer is OK. -/
theorem execSyncAbort_mayGive {r : Request} (hop : r.op = 0x21#8) (h : execSyncAbort s = .next t)
    (hnew : t.responses = s.responses ++ new) (hx : x ∈ new) : MayGive r s x.status := by
  cases hp : s.pending with
  | none =>
    cases h.symm.trans (execSyncAbort_of_none hp)
    rw [eq_of_mem_new rfl hnew hx]
    trivial
  | syncRead =>
    cases h.symm.trans (execSyncAbort_of_syncRead hp)
    have htwo : [{ status := .aborted }, { status := .ok }] = new := by simpa using hnew
    rcases List.mem_pair.mp (htwo ▸ hx) with rfl | rfl
    · exact ⟨hp, hop⟩
    · trivial

/-- The responses of a bundle's command have the statuses that R98 gives its `op`. -/
theorem exec_mayGive {r : Request} {i : Instr} (hdec : decodeRequest r = .ok i) (h : exec i s = .next t)
    (hnew : t.responses = s.responses ++ new) (hx : x ∈ new) : MayGive r s x.status := by
  obtain ⟨-, hop⟩ := wellFormed_and_op_of_decodes hdec
  cases i
  case syncAbort => exact execSyncAbort_mayGive hop.symm h hnew hx
  all_goals cases h
  case syncRead => exact absurd hx (not_mem_new_of_length_le (s := s) le_rfl hnew)
  all_goals rw [eq_of_mem_new rfl hnew hx]
  case encode version mtype flags address sequence buf =>
    rcases encodeResponse_status (encodeFrame s.cfg version mtype flags address sequence buf) with hs | hs <;> rw [hs]
    · trivial
    · exact hop.symm
  case decode buf =>
    rcases decodeResponse_status (decodeFrame s.cfg buf) with hs | hs | hs <;> rw [hs]
    · trivial
    · exact hop.symm
    · exact hop.symm
  all_goals trivial

/-- The responses an accepted bundle adds have the statuses that R98 gives its `op`. -/
theorem acceptCommand_mayGive {r : Request} (h : acceptCommand r s = .next t)
    (hnew : t.responses = s.responses ++ new) (hx : x ∈ new) : MayGive r s x.status := by
  rcases acceptCommand_runs_or_rejects r s with ⟨i, hdec, e⟩ | ⟨hop, e⟩
  · exact exec_mayGive hdec (e.symm.trans h) hnew hx
  · cases h.symm.trans e
    rw [eq_of_mem_new rfl hnew hx]
    exact (legalOp_eq_false_iff_not_mem r.op).mp hop

/-- The response of a synchronizer step is a frame's, or STREAM_CLOSED at the end of stream. -/
theorem syncMove_status {s' : State} (h : s.syncMove = some s') (hnew : s'.responses = s.responses ++ new) (hx : x ∈ new) :
    x.status = .ok
      ∨ (x.status = .streamClosed ∧ s.syncPhase ≠ .idle ∧ s.srcQueue = [] ∧ s.srcClosed = true) := by
  rcases syncMove_cases s with ⟨hp, b, q, -, e⟩ | ⟨hp, hq, hc, e⟩ | ⟨-, -, -, e⟩ | ⟨-, e⟩
  all_goals rw [h] at e
  · obtain rfl := Option.some.inj e
    rcases syncByte_endsRead_or_goesOn b (s := { s with srcQueue := q }) hp with ⟨f, e⟩ | ⟨-, -, e⟩
    · have hone : (syncByte b { s with srcQueue := q }).responses = s.responses ++ [{ status := .ok, frame := some f }] := by
        rw [e]
        rfl
      exact .inl (by rw [eq_of_mem_new hone hnew hx])
    · exact absurd hx (not_mem_new_of_length_le (s := s) (by rw [e]) hnew)
  · obtain rfl := Option.some.inj e
    have heq := eq_of_mem_new (y := { status := .streamClosed }) rfl hnew hx
    exact .inr ⟨by rw [heq], hp, hq, hc⟩
  · cases e
  · cases e

/-- Only the block adds responses. -/
theorem blockTurn_or_responses_length_le (hstep : step s = .next t) :
    (∃ c s₁, blockTurn s = some (c, s₁)) ∨ t.responses.length ≤ s.responses.length := by
  rcases step_cases s with ⟨c, s₁, ht, -⟩ | ⟨r, l, -, e⟩ | ⟨l, -, e⟩ | ⟨bs, l, -, e⟩ | ⟨l, -, e⟩ | ⟨l, -, e⟩
    | ⟨l, -, e⟩
  case inl => exact .inl ⟨c, s₁, ht⟩
  all_goals
    right
    cases hstep.symm.trans e
  · exact le_rfl
  · simp
  · rcases deliver_cases bs { s with schedule := l } with ⟨-, e⟩ | ⟨-, e⟩ <;> rw [e]
  · exact le_rfl
  · simp
  · exact le_rfl

/-- Every response a step adds comes from the command it accepts, or from the synchronizer. -/
theorem step_response_origin (hstep : step s = .next t) (hnew : t.responses = s.responses ++ new) (hx : x ∈ new) :
    (∃ r s₀, Accepts s r s₀ ∧ MayGive r s x.status)
      ∨ x.status = .ok
      ∨ (x.status = .streamClosed ∧ s.syncPhase ≠ .idle ∧ s.srcQueue = [] ∧ s.srcClosed = true) := by
  rcases blockTurn_or_responses_length_le hstep with ⟨c, s₁, ht⟩ | hlen
  · obtain ⟨l, rfl⟩ := blockTurn_eq ht
    rcases step_of_blockTurn_cases ht with ⟨e, -⟩ | ⟨r, s₀, hacc, e⟩ | ⟨-, s', hs, e⟩
    · cases hstep.symm.trans e
      exact absurd hx (not_mem_new_of_length_le (s := s) le_rfl hnew)
    · have hgives := e.symm.trans hstep
      refine .inl ⟨r, s₀, hacc, ?_⟩
      obtain ⟨l, rest, rfl⟩ := hacc.eq
      exact acceptCommand_mayGive (s := { s with schedule := l, port := rest }) hgives hnew hx
    · cases hstep.symm.trans e
      exact .inr (syncMove_status (s := { s with schedule := l }) hs hnew hx)
  · exact absurd hx (not_mem_new_of_length_le hlen hnew)

end

/-- Settles O13: by the origin of the response, a command that R98 lets give its status, or the synchronizer. -/
theorem eachErrorHasItsCommand : Obligations.EachErrorHasItsCommand := by
  intro s t new x hstep hnew hx
  rcases step_response_origin hstep hnew hx with ⟨r, s₀, hacc, hgives⟩ | hok | ⟨hclosed, heos⟩
  · refine ⟨fun h => ?_, fun h => ?_, fun h => ?_, fun h => ?_, fun h => ?_⟩
    · exact ⟨r, s₀, hacc, by rwa [h] at hgives⟩
    · rcases h with h | h <;> exact ⟨r, s₀, hacc, by rwa [h] at hgives⟩
    · rw [h] at hgives
      exact hgives.elim
    · rw [h] at hgives
      obtain ⟨hp, hop⟩ := hgives
      exact ⟨hp, r, s₀, hacc, hop⟩
    · exact ⟨r, s₀, hacc, by rwa [h] at hgives⟩
  · simp [hok]
  · simp [hclosed, heos]

end Sys2Proof.Machine
end

section
/-! PROOFS. What a step does to the port (spec/70_reset_and_hazards.md R119, R120) and to a read, where the block does nothing,
said once for the runs below; the race of a SYNC_ABORT and a byte; reset and the configuration (R113 to R118). -/

namespace Sys2Proof.Machine

/-! ### The port (R119, R120) -/

theorem isAbort_iff_op (r : Request) : r.isAbort = true ↔ r.op = 0x21#8 := by
  simp [Request.isAbort]

/-- The command of a SYNC_ABORT bundle. -/
theorem decodeRequest_of_op_abort {r : Request} (h : r.op = 0x21#8) : decodeRequest r = .ok .syncAbort :=
  (isAbort_iff_decodes r).mp ((isAbort_iff_op r).mpr h)

/-- A bundle the port accepts is the one it can accept, and the others are left at it. -/
theorem Accepts.acceptable {s s₀ : State} {r : Request} (h : Accepts s r s₀) : s.acceptable = some (r, s₀.port) := by
  obtain ⟨-, c, s₁, rest, -, ha, -, rfl⟩ := h
  exact ha

/-- A busy port can accept its oldest SYNC_ABORT, from behind the commands it holds. -/
theorem acceptable_of_oldestAbort {s : State} {before after : List Request} {a : Request} (hp : s.pending = .syncRead)
    (hport : s.port = before ++ a :: after) (hbefore : ∀ r ∈ before, r.op ≠ 0x21#8) (ha : a.op = 0x21#8) :
    s.acceptable = some (a, before ++ after) := by
  rw [State.acceptable, if_pos (s.busy_iff.mpr hp), firstAbort_eq_some]
  refine ⟨before, after, hport, rfl, (isAbort_iff_op a).mpr ha, fun r hr => ?_⟩
  exact Bool.eq_false_iff.mpr fun habort => hbefore r hr ((isAbort_iff_op r).mp habort)

/-- A busy port can accept nothing but its oldest SYNC_ABORT. -/
theorem oldestAbort_of_acceptable {s : State} {a : Request} {rest : List Request} (hp : s.pending = .syncRead)
    (h : s.acceptable = some (a, rest)) :
    ∃ before after, s.port = before ++ a :: after ∧ (∀ r ∈ before, r.op ≠ 0x21#8) ∧ a.op = 0x21#8
      ∧ rest = before ++ after := by
  rw [State.acceptable, if_pos (s.busy_iff.mpr hp)] at h
  obtain ⟨before, after, hport, hrest, ha, hbefore⟩ := firstAbort_eq_some.mp h
  refine ⟨before, after, hport, fun r hr hop => ?_, (isAbort_iff_op a).mp ha, hrest⟩
  exact absurd ((isAbort_iff_op r).mpr hop) (Bool.eq_false_iff.mp (hbefore r hr))

/-- A state with no read pending has no synchronizer step. -/
theorem syncMove_eq_none_of_pending_none {s : State} (hpend : PendingInv s) (hp : s.pending = .none) :
    s.syncMove = none := by
  by_contra hne
  obtain ⟨t, ht⟩ := Option.ne_none_iff_exists'.mp hne
  exact absurd (hp.symm.trans (pending_of_syncMove hpend ht)) (by decide)

/-- What a turn of the block does to a busy port: nothing, or it takes the oldest SYNC_ABORT and the read is over. -/
theorem blockTurn_port {s s₁ t : State} {c : Bool} (ht : blockTurn s = some (c, s₁)) (hp : s.pending = .syncRead)
    (hstep : step s = .next t) :
    t.port = s.port ∨ ∃ before a after, s.port = before ++ a :: after ∧ (∀ r ∈ before, r.op ≠ 0x21#8)
      ∧ a.op = 0x21#8 ∧ t.port = before ++ after ∧ t.pending = .none := by
  obtain ⟨l, rfl⟩ := blockTurn_eq ht
  rcases step_of_blockTurn_cases ht with ⟨e, -⟩ | ⟨a, s₀, hacc, e⟩ | ⟨-, s', hs, e⟩
  · cases hstep.symm.trans e
    exact .inl rfl
  · obtain ⟨before, after, hport, hbefore, ha, hrest⟩ := oldestAbort_of_acceptable hp hacc.acceptable
    obtain ⟨hleft, -⟩ := acceptCommand_port_schedule (e.symm.trans hstep)
    exact .inr ⟨before, a, after, hport, hbefore, ha, hleft.trans hrest, (hacc.ends_read hp hstep).1⟩
  · cases hstep.symm.trans e
    exact .inl (syncMove_port_schedule hs).1

/-- Settles O9: the oldest command at an idle port, the oldest SYNC_ABORT at a busy one, and reset's moves. -/
theorem portAcceptsOneCommandAtATime : Obligations.PortAcceptsOneCommandAtATime := by
  refine ⟨fun s s₁ c r rest hinv hr ht hp hport => ?_, fun s s₁ t c ht hp hstep => ⟨fun hpending => ?_, ?_⟩,
    fun s s₁ before after a hr ht hp hport hbefore ha => ?_, fun s t rest hs hstep => ?_⟩
  · obtain ⟨-, hpend, -⟩ := hinv
    exact ⟨hr, c, s₁, rest, ht, acceptable_of_pending_none hp hport,
      .inl (syncMove_eq_none_of_pending_none hpend hp), rfl⟩
  · exact (readGetsOneResponse s t hp hstep).2 hpending ⟨c, s₁, ht⟩
  · exact blockTurn_port ht hp hstep
  · exact ⟨hr, true, s₁, _, ht, acceptable_of_oldestAbort hp hport hbefore ha, .inr rfl, rfl⟩
  · rcases hs with hs | hs
    all_goals
      cases hstep.symm.trans (step_of_schedule_cons hs)
      rfl

/-- Settles O10: the move of the block carries the choice of the race. -/
theorem abortRaceAdmitsBothOrders : Obligations.AbortRaceAdmitsBothOrders := by
  intro s s' a rest hr hp ha hs
  obtain ⟨-, -, -, -, hop, -⟩ := oldestAbort_of_acceptable hp ha
  constructor
  · rw [step_of_schedule_cons rfl]
    exact blockMove_of_syncMove hr hs (.inr rfl)
  · rw [step_of_schedule_cons rfl, doMove, blockMove_of_acceptable hr ha (.inr rfl),
      acceptCommand_of_decodes (decodeRequest_of_op_abort hop)]
    obtain ⟨hends, -⟩ := syncAbortEndsPendingRead.1 { s with port := rest }
    exact hends hp

/-! ### A step in which the block does nothing -/

/-- The block's elements stay as they are; the host and the environment may have added to the port and the source. -/
structure Undisturbed (s t : State) : Prop where
  cfg : t.cfg = s.cfg
  syncPhase : t.syncPhase = s.syncPhase
  syncBuf : t.syncBuf = s.syncBuf
  syncNeed : t.syncNeed = s.syncNeed
  pending : t.pending = s.pending
  port : s.port <+: t.port
  source : s.srcQueue <+: t.srcQueue
  closed : s.srcClosed = true → t.srcClosed = true ∧ t.srcQueue = s.srcQueue

/-- Every step accepts a command, takes the synchronizer's step, asserts reset, or leaves the block as it is. -/
theorem step_accepts_or_syncs_or_resets_or_undisturbed {s t : State} (hstep : step s = .next t) :
    (∃ r s₀, Accepts s r s₀) ∨ (∃ l, ({ s with schedule := l } : State).syncMove = some t)
      ∨ (∃ l, t = ({ s with schedule := l } : State).assertReset) ∨ Undisturbed s t := by
  rcases step_cases s with ⟨c, s₁, ht, -⟩ | ⟨r, l, -, e⟩ | ⟨l, -, e⟩ | ⟨bs, l, -, e⟩ | ⟨l, -, e⟩ | ⟨l, -, e⟩
    | ⟨l, -, e⟩
  case inl =>
    obtain ⟨l, rfl⟩ := blockTurn_eq ht
    rcases step_of_blockTurn_cases ht with ⟨e, -⟩ | ⟨r, s₀, hacc, -⟩ | ⟨-, s', hs, e⟩
    · cases hstep.symm.trans e
      exact .inr (.inr (.inr ⟨rfl, rfl, rfl, rfl, rfl, by simp, by simp, by simp⟩))
    · exact .inl ⟨r, s₀, hacc⟩
    · cases hstep.symm.trans e
      exact .inr (.inl ⟨l, hs⟩)
  case inr.inr.inr.inr.inr.inl =>
    cases hstep.symm.trans e
    exact .inr (.inr (.inl ⟨l, rfl⟩))
  case inr.inr.inr.inl =>
    rcases deliver_cases bs { s with schedule := l } with ⟨-, hd⟩ | ⟨hopen, hd⟩
    all_goals
      rw [hd] at e
      cases hstep.symm.trans e
    · exact .inr (.inr (.inr ⟨rfl, rfl, rfl, rfl, rfl, by simp, by simp, by simp⟩))
    · have hopen : s.srcClosed = false := hopen
      exact .inr (.inr (.inr ⟨rfl, rfl, rfl, rfl, rfl, by simp, by simp, by simp [hopen]⟩))
  all_goals
    cases hstep.symm.trans e
    exact .inr (.inr (.inr ⟨rfl, rfl, rfl, rfl, rfl, by simp, by simp, by simp⟩))

/-! ### Reset and the configuration (R113 to R118) -/

theorem acceptCommand_cfg {r : Request} {s t : State} (h : acceptCommand r s = .next t) : t.cfg = s.cfg := by
  rcases acceptCommand_cases r s with ⟨-, e⟩ | ⟨-, e⟩ | ⟨-, e⟩ | ⟨-, -, e⟩ | ⟨-, -, x, e⟩
  all_goals
    cases h.symm.trans e
    rfl

theorem syncMove_cfg {s t : State} (h : s.syncMove = some t) : t.cfg = s.cfg := by
  rcases syncMove_cases s with ⟨-, b, q, -, e⟩ | ⟨-, -, -, e⟩ | ⟨-, -, -, e⟩ | ⟨-, e⟩
  all_goals rw [h] at e
  · obtain rfl := Option.some.inj e
    exact (syncByte_frame b _).1
  · obtain rfl := Option.some.inj e
    rfl
  · cases e
  · cases e

/-- Settles O54: by the step's cases, and the proofs a configuration carries. -/
theorem configurationNeverChanges : Obligations.ConfigurationNeverChanges := by
  constructor
  · intro s t hstep
    rcases step_accepts_or_syncs_or_resets_or_undisturbed hstep with ⟨r, s₀, hacc⟩ | ⟨l, hs⟩ | ⟨l, rfl⟩ | hsame
    · rw [step_of_accepts hacc] at hstep
      obtain ⟨l, rest, rfl⟩ := hacc.eq
      exact acceptCommand_cfg (s := { s with schedule := l, port := rest }) hstep
    · exact syncMove_cfg (s := { s with schedule := l }) hs
    · rfl
    · exact hsame.cfg
  · intro cfg
    refine ⟨cfg.markers_distinct, rfl, cfg.types_distinct, ?_, cfg.flags_distinct⟩
    rw [← cfg.command_code]
    exact List.mem_cons_self

/-- Settles O53: the asserting step, the block's move under reset, and the invariant's reset values at release. -/
theorem resetHoldsTheBlock : Obligations.ResetHoldsTheBlock := by
  refine ⟨fun s => ⟨s.assertReset, rfl, rfl, rfl, rfl, rfl⟩, fun s s₁ c hr ht => ?_,
    fun s rest hinv hr hs => ?_⟩
  · rw [step_of_blockTurn ht]
    obtain ⟨l, rfl⟩ := blockTurn_eq ht
    exact if_pos hr
  · obtain ⟨-, -, hvalues⟩ := hinv
    obtain ⟨hcrc, hphase, hbuf, hneed, hnone, hresp⟩ := hvalues hr
    exact ⟨_, step_of_schedule_cons hs, rfl, hcrc, hphase, hbuf, hneed, hnone, (State.not_busy_iff _).mpr hnone, hresp,
      rfl, rfl, rfl⟩

/-- Settles O51. -/
theorem resetStateValues : Obligations.ResetStateValues := ⟨rfl, rfl, rfl, rfl, rfl, rfl, rfl⟩

/-- Settles O52: the step is the schedule's oldest move. -/
theorem assertedResetClearsBlock : Obligations.AssertedResetClearsBlock := fun _ _ hs => step_of_schedule_cons hs

/-- Settles O19: the accumulator's reset value is the one a fold starts with (`execAll_crcAcc`). -/
theorem crcAfterResetNeedsNoInit : Obligations.CrcAfterResetNeedsNoInit := by
  intro bs
  obtain ⟨t, ht, hacc⟩ := execAll_crcAcc (is := bs.map .crcUpdate) (by simp) State.reset
  have hbytes : (bs.map Instr.crcUpdate).filterMap absorbedByte = bs := by
    rw [List.filterMap_map]
    exact List.filterMap_some
  rw [hbytes] at hacc
  refine ⟨_, t.responses, (execAll_append ht).trans rfl, ?_⟩
  rw [State.respond_responses, hacc]
  rfl

end Sys2Proof.Machine
end

section
/-! PROOFS. What a weakly fair run promises (spec/70_reset_and_hazards.md R125, spec/42_sync.md R97): an action of the block that a
condition enables is taken, or the condition ends; so commands are accepted, and a read whose source has its answer gives it. -/

namespace Sys2Proof.Machine

/-! ### Fairness while a condition lasts -/

/-- A condition that enables an action lasts until the action is taken, or until it ends of itself. -/
theorem EventuallyTaken.taken_or_ends {enabled taken P : State → Prop} {σ : Nat → State} {n : Nat}
    (h : EventuallyTaken enabled taken σ) (hen : ∀ m, n ≤ m → P (σ m) → enabled (σ m)) (hP : P (σ n)) :
    ∃ m, n ≤ m ∧ P (σ m) ∧ (taken (σ m) ∨ ¬ P (σ (m + 1))) := by
  by_contra hnot
  push Not at hnot
  have hlasts : ∀ m, n ≤ m → P (σ m) := fun m hm =>
    Nat.le_induction hP (fun m hm hPm => (hnot m hm hPm).2) m hm
  obtain ⟨m, hm, htaken⟩ := h n fun m hm => hen m hm (hlasts m hm)
  exact (hnot m hm (hlasts m hm)).1 htaken

/-! ### The steps of a fair run without further reset -/

/-- A weakly fair run whose states meet the invariant, with reset released from `n` on. -/
structure FairFrom (σ : Nat → State) (n : Nat) : Prop where
  run : IsRun σ
  fair : WeaklyFair σ
  inv : ∀ m, StateInv (σ m)
  released : ∀ m, n ≤ m → (σ m).resetAsserted = false

/-- Every state of a run that starts in the invariant meets it. -/
theorem IsRun.stateInv {σ : Nat → State} (h : IsRun σ) (h0 : StateInv (σ 0)) (m : Nat) : StateInv (σ m) := by
  induction m with
  | zero => exact h0
  | succ m ih =>
    obtain ⟨t, more, hstep, e⟩ := h m
    rw [e, State.schedules_stateInv]
    exact stepKeepsInvariant _ _ ih hstep

theorem FairFrom.of_isRun {σ : Nat → State} {n : Nat} (hrun : IsRun σ) (hfair : WeaklyFair σ) (h0 : StateInv (σ 0))
    (hreset : ∀ m, n ≤ m → (σ m).resetAsserted = false) : FairFrom σ n :=
  ⟨hrun, hfair, hrun.stateInv h0, hreset⟩

/-- The state of the run after a step that accepts `r`. -/
theorem IsRun.of_accepts {σ : Nat → State} (h : IsRun σ) {m : Nat} {r : Request} {s₀ : State}
    (hacc : Accepts (σ m) r s₀) : ∃ t more, acceptCommand r s₀ = .next t ∧ σ (m + 1) = t.schedules more := by
  obtain ⟨t, more, hstep, e⟩ := h m
  exact ⟨t, more, (step_of_accepts hacc).symm.trans hstep, e⟩

section
variable {σ : Nat → State} {n m : Nat}

theorem FairFrom.mono (h : FairFrom σ n) (hm : n ≤ m) : FairFrom σ m :=
  ⟨h.run, h.fair, h.inv, fun k hk => h.released k (hm.trans hk)⟩

theorem FairFrom.pendingInv (h : FairFrom σ n) (m : Nat) : PendingInv (σ m) := by
  obtain ⟨-, hpend, -⟩ := h.inv m
  exact hpend

/-- The run's step from `m` is the synchronizer's, which does not depend on the schedule. -/
def SyncsAt (σ : Nat → State) (m : Nat) : Prop :=
  ∃ l t more, ({ σ m with schedule := l } : State).syncMove = some t ∧ σ (m + 1) = t.schedules more

/-- A step of such a run accepts a command, takes the synchronizer's step, or leaves the block as it is. -/
theorem FairFrom.step_cases (h : FairFrom σ n) (hm : n ≤ m) :
    AcceptTaken (σ m) ∨ SyncsAt σ m ∨ Undisturbed (σ m) (σ (m + 1)) := by
  obtain ⟨t, more, hstep, e⟩ := h.run m
  have hreset : t.resetAsserted = false := by
    have hr := h.released (m + 1) (Nat.le_succ_of_le hm)
    rwa [e] at hr
  rcases step_accepts_or_syncs_or_resets_or_undisturbed hstep with hacc | ⟨l, hs⟩ | ⟨l, rfl⟩ | hsame
  · exact .inl hacc
  · exact .inr (.inl ⟨l, t, more, hs, e⟩)
  · simp at hreset
  · obtain ⟨hcfg, hphase, hbuf, hneed, hpending, hport, hsource, hclosed⟩ := hsame
    rw [e]
    exact .inr (.inr ⟨hcfg, hphase, hbuf, hneed, hpending, hport, hsource, hclosed⟩)

/-! ### Commands are accepted -/

/-- A condition that lets the port accept, and that a step which accepts nothing keeps, lasts until a command is accepted. -/
theorem FairFrom.exists_accepts {P : State → Prop} (h : FairFrom σ n) (hen : ∀ s, P s → s.acceptable ≠ none)
    (hkeep : ∀ m, n ≤ m → P (σ m) → AcceptTaken (σ m) ∨ P (σ (m + 1))) (hP : P (σ n)) :
    ∃ m, n ≤ m ∧ P (σ m) ∧ AcceptTaken (σ m) := by
  obtain ⟨m, hm, hPm, htaken | hends⟩ :=
    h.fair.1.taken_or_ends (P := P) (fun m hm hPm => ⟨h.released m hm, hen _ hPm⟩) hP
  · exact ⟨m, hm, hPm, htaken⟩
  · exact ⟨m, hm, hPm, (hkeep m hm hPm).resolve_right hends⟩

/-- No read is pending, and `r` is the oldest command at the port. -/
def IdleBefore (r : Request) (s : State) : Prop := s.pending = .none ∧ [r] <+: s.port

theorem IdleBefore.acceptable {r : Request} {s : State} (h : IdleBefore r s) :
    ∃ rest, s.acceptable = some (r, rest) := by
  obtain ⟨hp, rest, e⟩ := h
  exact ⟨rest, acceptable_of_pending_none hp e.symm⟩

/-- A step that accepts nothing leaves an idle block idle, before the same command. -/
theorem FairFrom.accepts_or_idleBefore {r : Request} (h : FairFrom σ n) (hm : n ≤ m) (hidle : IdleBefore r (σ m)) :
    AcceptTaken (σ m) ∨ IdleBefore r (σ (m + 1)) := by
  obtain ⟨hp, hport⟩ := hidle
  rcases h.step_cases hm with hacc | ⟨l, t, more, hs, -⟩ | hsame
  · exact .inl hacc
  · rw [syncMove_eq_none_of_pending_none (s := { σ m with schedule := l }) (h.pendingInv m) hp] at hs
    cases hs
  · exact .inr ⟨hsame.pending.trans hp, hport.trans hsame.port⟩

/-- An idle port accepts its oldest command at last. -/
theorem FairFrom.accepts_oldest {r : Request} (h : FairFrom σ n) (hidle : IdleBefore r (σ n)) :
    ∃ m s₀, n ≤ m ∧ Accepts (σ m) r s₀ := by
  have hcan (s : State) (hidle : IdleBefore r s) : s.acceptable ≠ none := by
    obtain ⟨rest, e⟩ := hidle.acceptable
    simp [e]
  obtain ⟨m, hm, hidlem, r', s₀, hacc⟩ := h.exists_accepts hcan (fun m hm => h.accepts_or_idleBefore hm) hidle
  obtain ⟨rest, e⟩ := hidlem.acceptable
  obtain ⟨rfl, -⟩ := Prod.mk.inj (Option.some.inj (hacc.acceptable.symm.trans e))
  exact ⟨m, s₀, hm, hacc⟩

/-- A step that accepts nothing leaves at the port the commands that stand first, in their order. -/
theorem FairFrom.accepts_or_port_prefix {l : List Request} (h : FairFrom σ n) (hm : n ≤ m) (hport : l <+: (σ m).port) :
    AcceptTaken (σ m) ∨ l <+: (σ (m + 1)).port := by
  rcases h.step_cases hm with hacc | ⟨l', t, more, hs, e⟩ | hsame
  · exact .inl hacc
  · obtain ⟨hkeeps, -⟩ := syncMove_port_schedule hs
    exact .inr (by rw [e, State.schedules_port, hkeeps]; exact hport)
  · exact .inr (hport.trans hsame.port)

/-- Where a SYNC_ABORT is at the port, one is the oldest. -/
theorem exists_oldestAbort {port : List Request} (h : ∃ a ∈ port, a.op = 0x21#8) :
    ∃ before a, before ++ [a] <+: port ∧ (∀ r ∈ before, r.op ≠ 0x21#8) ∧ a.op = 0x21#8 := by
  obtain ⟨a, hfind⟩ := Option.isSome_iff_exists.mp (List.find?_isSome.mpr (by simpa using h) :
    (port.find? (·.op = 0x21#8)).isSome)
  obtain ⟨ha, before, after, hport, hbefore⟩ := List.find?_eq_some_iff_append.mp hfind
  exact ⟨before, a, ⟨after, by simp [hport]⟩, by simpa using hbefore, by simpa using ha⟩

/-- With a SYNC_ABORT at the port, what it can accept is that SYNC_ABORT or, where it is idle, the oldest command before it. -/
theorem acceptable_of_abort_prefix {s : State} {before : List Request} {a : Request} (hport : before ++ [a] <+: s.port)
    (hbefore : ∀ r ∈ before, r.op ≠ 0x21#8) (ha : a.op = 0x21#8) :
    (∃ rest, s.acceptable = some (a, rest))
      ∨ ∃ r before' rest, before = r :: before' ∧ s.acceptable = some (r, rest) ∧ before' ++ [a] <+: rest := by
  obtain ⟨after, e⟩ := hport
  rw [List.append_assoc, List.singleton_append] at e
  cases hp : s.pending with
  | syncRead => exact .inl ⟨_, acceptable_of_oldestAbort hp e.symm hbefore ha⟩
  | none =>
    cases before with
    | nil => exact .inl ⟨_, acceptable_of_pending_none hp e.symm⟩
    | cons r before => exact .inr ⟨r, before, _, rfl, acceptable_of_pending_none hp e.symm, ⟨after, by simp⟩⟩

/-- With a SYNC_ABORT at the port a command is accepted at last: the oldest SYNC_ABORT, or the oldest command before it. -/
theorem FairFrom.accepts_up_to_abort {before : List Request} {a : Request} (h : FairFrom σ n)
    (hport : before ++ [a] <+: (σ n).port) (hbefore : ∀ r ∈ before, r.op ≠ 0x21#8) (ha : a.op = 0x21#8) :
    ∃ m r s₀, n ≤ m ∧ Accepts (σ m) r s₀
      ∧ (r = a ∨ ∃ before', before = r :: before' ∧ before' ++ [a] <+: s₀.port) := by
  have hcan (s : State) (hport : before ++ [a] <+: s.port) := acceptable_of_abort_prefix hport hbefore ha
  obtain ⟨m, hm, hportm, r, s₀, hacc⟩ := h.exists_accepts (P := (before ++ [a] <+: ·.port))
    (fun s hport => by rcases hcan s hport with ⟨_, e⟩ | ⟨_, _, _, -, e, -⟩ <;> simp [e])
    (fun m hm => h.accepts_or_port_prefix hm) hport
  refine ⟨m, r, s₀, hm, hacc, ?_⟩
  rcases hcan _ hportm with ⟨rest, e⟩ | ⟨r', before', rest, hb, e, hrest⟩
  all_goals obtain ⟨rfl, rfl⟩ := Prod.mk.inj (Option.some.inj (hacc.acceptable.symm.trans e))
  · exact .inl rfl
  · exact .inr ⟨before', hb, hrest⟩

/-- The oldest SYNC_ABORT is accepted at last: by induction on the commands before it. -/
theorem FairFrom.accepts_oldestAbort {before : List Request} {a : Request} (h : FairFrom σ n)
    (hport : before ++ [a] <+: (σ n).port) (hbefore : ∀ r ∈ before, r.op ≠ 0x21#8) (ha : a.op = 0x21#8) :
    ∃ m s₀, n ≤ m ∧ Accepts (σ m) a s₀ := by
  induction before generalizing n with
  | nil =>
    obtain ⟨m, r, s₀, hm, hacc, rfl | ⟨before', hb, -⟩⟩ := h.accepts_up_to_abort hport hbefore ha
    · exact ⟨m, s₀, hm, hacc⟩
    · cases hb
  | cons x before ih =>
    obtain ⟨m, r, s₀, hm, hacc, rfl | ⟨before', hb, hleft⟩⟩ := h.accepts_up_to_abort hport hbefore ha
    · exact ⟨m, s₀, hm, hacc⟩
    · obtain ⟨rfl, rfl⟩ := List.cons.inj hb
      obtain ⟨t, more, hrun, e⟩ := h.run.of_accepts hacc
      obtain ⟨hkeeps, -⟩ := acceptCommand_port_schedule hrun
      have hnext : before ++ [a] <+: (σ (m + 1)).port := by rw [e, State.schedules_port, hkeeps]; exact hleft
      obtain ⟨k, s₁, hk, hacck⟩ :=
        ih (h.mono (Nat.le_succ_of_le hm)) hnext (fun r hr => hbefore r (List.mem_cons_of_mem x hr))
      exact ⟨k, s₁, by omega, hacck⟩

end

/-- A command other than SYNC_READ responds when it is accepted. -/
theorem acceptCommand_responds {r : Request} {s t : State} (h : acceptCommand r s = .next t) (hop : r.op ≠ 0x20#8) :
    ∃ new, new ≠ [] ∧ t.responses = s.responses ++ new := by
  rcases acceptCommand_cases r s with ⟨-, e⟩ | ⟨-, e⟩ | ⟨hread, -⟩ | ⟨-, -, e⟩ | ⟨-, -, x, e⟩
  case inr.inr.inl => exact absurd hread hop
  all_goals cases h.symm.trans e
  · exact ⟨_, by simp, rfl⟩
  · exact ⟨_, by simp, rfl⟩
  · exact ⟨_, by simp, List.append_assoc _ _ _⟩
  · exact ⟨_, by simp, rfl⟩

/-- Settles O48: what the port can accept stays there until it is accepted, and an accepted command responds in that step. -/
theorem fairRunsServeCommands : Obligations.FairRunsServeCommands := by
  intro σ n hrun hfair h0 hreset
  have h := FairFrom.of_isRun hrun hfair h0 hreset
  refine ⟨fun r rest hp hport => h.accepts_oldest ⟨hp, rest, hport.symm⟩, fun before a after hport hbefore ha => ?_,
    fun m r s₀ hacc hop => ?_⟩
  · exact h.accepts_oldestAbort ⟨after, by simp [hport]⟩ hbefore ha
  · obtain ⟨t, more, ht, e⟩ := hrun.of_accepts hacc
    obtain ⟨new, hne, hresp⟩ := acceptCommand_responds ht hop
    obtain ⟨l, rest, rfl⟩ := hacc.eq
    exact ⟨new, hne, by rw [e, State.schedules_responses, hresp]⟩

/-! ### A read whose source has its answer (R97) -/

/-- The answer of `sync_run`'s loop on a source that has it is the same with further bytes behind it, or with the source closed. -/
theorem syncLoop_of_prefix {cfg : Config} {closed closed' : Bool} {q q' : List Byte} (hq : q <+: q')
    (hclosed : closed = true → closed' = true ∧ q' = q) {phase : SyncPhase} {buf : List Byte} {need i : Nat}
    {ds : List FrameError} (h : (syncLoop cfg closed q phase buf need i ds).outcome ≠ .hold) :
    syncLoop cfg closed' q' phase buf need i ds = syncLoop cfg closed q phase buf need i ds := by
  induction q generalizing q' phase buf need i ds with
  | nil =>
    have hc : closed = true := by
      by_contra hopen
      simp [syncLoop, hopen] at h
    obtain ⟨rfl, rfl⟩ := hclosed hc
    rw [hc]
  | cons b q ih =>
    obtain ⟨bs, rfl⟩ := hq
    have hphase : phase ≠ .idle := by
      rintro rfl
      exact h rfl
    rw [List.cons_append, syncLoop_cons hphase, syncLoop_cons hphase]
    rw [syncLoop_cons hphase] at h
    cases heff : byteEffect cfg b phase buf need with
    | returns f => rfl
    | goesOn phase' buf' need' lost =>
      rw [heff] at h
      exact ih (List.prefix_append _ _) (fun hc => (hclosed hc).imp_right List.tail_eq_of_cons_eq) h

/-- The rest of a read that has its answer is the same after a step that leaves the block as it is. -/
theorem Undisturbed.readFrom_eq {s t : State} (h : Undisturbed s t) (hs : (readFrom s).outcome ≠ .hold) :
    readFrom t = readFrom s := by
  rw [readFrom, h.cfg, h.syncPhase, h.syncBuf, h.syncNeed]
  exact syncLoop_of_prefix h.source h.closed hs

/-- The response to an outcome of `sync_run` that is no hold. -/
def ReadOutcome.Answer (x : Response) : ReadOutcome → Prop
  | .frame f => x = { status := .ok, frame := some f }
  | .streamClosed => x = { status := .streamClosed }
  | .hold => False

/-- The synchronizer's step of a read gives the response of the loop's outcome, or has the same outcome to come with one byte
less to consume. -/
theorem syncMove_readFrom {s t : State} (hinv : SyncInv s) (hs : s.syncMove = some t) :
    (t.pending = .none ∧ ∃ x, (readFrom s).outcome.Answer x ∧ t.responses = s.responses ++ [x])
    ∨ (t.pending = s.pending ∧ (readFrom t).outcome = (readFrom s).outcome
      ∧ (readFrom t).consumed < (readFrom s).consumed) := by
  rcases syncMove_cases s with ⟨hphase, b, q, hq, e⟩ | ⟨-, hq, hc, e⟩ | ⟨-, -, -, e⟩ | ⟨-, e⟩
  all_goals rw [hs] at e
  · obtain rfl := Option.some.inj e
    rw [syncByte_eq_apply, readFrom, hq, syncLoop_cons hphase]
    dsimp only
    rcases byteEffect_cases s.cfg b s.syncNeed (hinv.readAt hphase) with ⟨f, -, e⟩ | ⟨phase, buf, need, lost, h, -, e⟩
    all_goals rw [e]
    · exact .inl ⟨rfl, _, rfl, rfl⟩
    · refine .inr ⟨rfl, ?_⟩
      rw [ByteEffect.run, syncLoop_eq_after h]
      exact ⟨rfl, by simp [ReadResult.after, readFrom, ByteEffect.apply]⟩
  · obtain rfl := Option.some.inj e
    exact .inl ⟨rfl, { status := .streamClosed }, by simp [readFrom, hq, syncLoop, hc, ReadOutcome.Answer], rfl⟩
  · cases e
  · cases e

/-- A read whose source has its answer has a synchronizer step. -/
theorem syncMove_ne_none_of_readFrom {s : State} (hphase : s.syncPhase ≠ .idle) (h : (readFrom s).outcome ≠ .hold) :
    s.syncMove ≠ none := by
  intro hnone
  obtain ⟨hq, hopen⟩ := (syncMove_eq_none_iff.mp hnone).resolve_left hphase
  simp [readFrom, hq, hopen, syncLoop] at h

/-- A read of a closed source has its answer (R97): a frame, or at the end of stream STREAM_CLOSED. -/
theorem syncLoop_closed_ne_hold {cfg : Config} {phase : SyncPhase} {buf : List Byte} (h : ReadAt phase buf)
    (q : List Byte) (need i : Nat) (ds : List FrameError) :
    (syncLoop cfg true q phase buf need i ds).outcome ≠ .hold := by
  induction q generalizing phase buf need i ds with
  | nil => simp [syncLoop]
  | cons b q ih =>
    rw [syncLoop_cons h.phase_ne]
    rcases byteEffect_cases cfg b need h with ⟨f, -, e⟩ | ⟨phase', buf', need', lost, h', -, e⟩
    all_goals rw [e, ByteEffect.run]
    · simp
    · exact ih h' _ _ _

/-- A read is pending whose rest, over the bytes queued, comes to the outcome `o` with `i` bytes consumed. -/
def ReadDue (o : ReadOutcome) (i : Nat) (s : State) : Prop :=
  s.pending = .syncRead ∧ (readFrom s).outcome = o ∧ (readFrom s).consumed = i

section
variable {σ : Nat → State} {n m : Nat}

theorem FairFrom.syncsAt_of_syncTurn (h : FairFrom σ n) (hturn : SyncTurn (σ m)) : SyncsAt σ m := by
  obtain ⟨c, s₁, t, ht, hs, hstep⟩ := step_of_syncTurn hturn
  obtain ⟨l, rfl⟩ := blockTurn_eq ht
  obtain ⟨more, e⟩ := h.run.step_next hstep
  exact ⟨l, t, more, hs, e⟩

/-- A SYNC_ABORT accepted while a read is pending ends it. -/
theorem FairFrom.ends_of_accepts (h : FairFrom σ n) (hp : (σ m).pending = .syncRead) (hacc : AcceptTaken (σ m)) :
    (σ (m + 1)).pending = .none
      ∧ (σ (m + 1)).responses = (σ m).responses ++ [{ status := .aborted }, { status := .ok }] := by
  obtain ⟨r, s₀, hacc⟩ := hacc
  obtain ⟨t, more, hstep, e⟩ := h.run m
  rw [e, State.schedules_pending, State.schedules_responses]
  exact hacc.ends_read hp hstep

/-- A read that is due goes on to be due until a SYNC_ABORT is accepted or the synchronizer moves, and then it moves. -/
theorem FairFrom.accepts_or_syncs_of_readDue {o : ReadOutcome} {i : Nat} (h : FairFrom σ n) (ho : o ≠ .hold)
    (hdue : ReadDue o i (σ n)) :
    ∃ m, n ≤ m ∧ ReadDue o i (σ m) ∧ (AcceptTaken (σ m) ∨ SyncsAt σ m) := by
  obtain ⟨m, hm, hduem, hturn⟩ := h.fair.2.taken_or_ends (P := ReadDue o i)
    (fun m hm ⟨hp, hout, _⟩ =>
      ⟨h.released m hm, syncMove_ne_none_of_readFrom ((h.pendingInv m).mp hp) (hout ▸ ho)⟩) hdue
  refine ⟨m, hm, hduem, ?_⟩
  rcases h.step_cases hm with hacc | hsync | hsame
  · exact .inl hacc
  · exact .inr hsync
  · obtain ⟨hp, hout, hcons⟩ := hduem
    have hread := hsame.readFrom_eq (hout ▸ ho)
    have hstays : ReadDue o i (σ (m + 1)) := ⟨hsame.pending.trans hp, hread ▸ hout, hread ▸ hcons⟩
    exact .inr (h.syncsAt_of_syncTurn (hturn.resolve_right (not_not_intro hstays)))

/-- The run's step from `k` ends a read. -/
def EndsRead (σ : Nat → State) (k : Nat) : Prop := (σ k).pending = .syncRead ∧ (σ (k + 1)).pending = .none

/-- A read that is due ends with its answer, unless a SYNC_ABORT ends it: by induction on the bytes to consume. -/
theorem FairFrom.read_ends {o : ReadOutcome} {i : Nat} (h : FairFrom σ n) (ho : o ≠ .hold) (hdue : ReadDue o i (σ n)) :
    ∃ k, n ≤ k ∧ EndsRead σ k
      ∧ (AcceptTaken (σ k) ∨ ∃ x, o.Answer x ∧ (σ (k + 1)).responses = (σ k).responses ++ [x]) := by
  induction i using Nat.strong_induction_on generalizing n with
  | _ i ih =>
    obtain ⟨m, hm, ⟨hp, hout, hcons⟩, hacc | ⟨l, t, more, hs, e⟩⟩ := h.accepts_or_syncs_of_readDue ho hdue
    · exact ⟨m, hm, ⟨hp, (h.ends_of_accepts hp hacc).1⟩, .inl hacc⟩
    · obtain ⟨hsync, -⟩ := h.inv m
      rcases syncMove_readFrom (s := { σ m with schedule := l }) hsync hs with
        ⟨hended, x, hx, hresp⟩ | ⟨hpending, hout', hless⟩
      · exact ⟨m, hm, ⟨hp, by rw [e]; exact hended⟩, .inr ⟨x, hout ▸ hx, by rw [e]; exact hresp⟩⟩
      · have hnext : ReadDue o (readFrom t).consumed (σ (m + 1)) := by
          rw [e]
          exact ⟨hpending.trans hp, hout'.trans hout, rfl⟩
        obtain ⟨k, hk, hends⟩ := ih _ (hless.trans_eq hcons) (h.mono (Nat.le_succ_of_le hm)) hnext
        exact ⟨k, by omega, hends⟩

/-- A read that is over later has a step that ends it. -/
theorem exists_endsRead {j : Nat} (hp : (σ n).pending = .syncRead) (hj : n ≤ j) (hover : (σ j).pending = .none) :
    ∃ k, n ≤ k ∧ EndsRead σ k := by
  by_contra hnot
  push Not at hnot
  have hlasts : (σ j).pending = .syncRead := Nat.le_induction hp (fun k hk hpk => by
    cases hnext : (σ (k + 1)).pending with
    | none => exact absurd ⟨hpk, hnext⟩ (hnot k hk)
    | syncRead => rfl) j hj
  exact absurd (hlasts.symm.trans hover) (by decide)

/-- The step that ends a read gives its response: OK, STREAM_CLOSED, or ABORTED (R89). -/
theorem FairFrom.response_of_endsRead {k : Nat} (h : FairFrom σ n) (hk : n ≤ k) (hends : EndsRead σ k) :
    ∃ x new, (σ (k + 1)).responses = (σ k).responses ++ x :: new
      ∧ (x.status = .ok ∨ x.status = .streamClosed ∨ x.status = .aborted) := by
  obtain ⟨hp, hover⟩ := hends
  rcases h.step_cases hk with hacc | ⟨l, t, more, hs, e⟩ | hsame
  · exact ⟨_, _, (h.ends_of_accepts hp hacc).2, .inr (.inr rfl)⟩
  · rw [e] at hover ⊢
    rcases syncMove_response hs with ⟨-, ⟨f, hresp⟩ | hresp⟩ | ⟨hpending, -⟩
    · exact ⟨_, _, hresp, .inl rfl⟩
    · exact ⟨_, _, hresp, .inr (.inl rfl)⟩
    · exact absurd (hover.symm.trans (hpending.trans hp)) (by decide)
  · exact absurd (hover.symm.trans (hsame.pending.trans hp)) (by decide)

/-- The three causes of R125 and R97: with an answer at its source or a SYNC_ABORT at the port, a read does not last. -/
theorem FairFrom.exists_pending_none (h : FairFrom σ n)
    (hcause : (σ n).srcClosed = true ∨ (∃ a ∈ (σ n).port, a.op = 0x21#8) ∨ ∃ f, (readFrom (σ n)).outcome = .frame f) :
    ∃ j, n ≤ j ∧ (σ j).pending = .none := by
  cases hp : (σ n).pending with
  | none => exact ⟨n, le_rfl, hp⟩
  | syncRead =>
    have hdue (ho : (readFrom (σ n)).outcome ≠ .hold) : ∃ j, n ≤ j ∧ (σ j).pending = .none := by
      obtain ⟨k, hk, ⟨-, hover⟩, -⟩ := h.read_ends ho ⟨hp, rfl, rfl⟩
      exact ⟨k + 1, by omega, hover⟩
    rcases hcause with hclosed | ⟨a, ha, hop⟩ | ⟨f, hf⟩
    · obtain ⟨hsync, hpend, -⟩ := h.inv n
      refine hdue ?_
      rw [readFrom, hclosed]
      exact syncLoop_closed_ne_hold (hsync.readAt (hpend.mp hp)) _ _ _ _
    · obtain ⟨before, a, hport, hbefore, ha⟩ := exists_oldestAbort ⟨a, ha, hop⟩
      obtain ⟨m, s₀, hm, hacc⟩ := h.accepts_oldestAbort hport hbefore ha
      cases hpm : (σ m).pending with
      | none => exact ⟨m, hm, hpm⟩
      | syncRead => exact ⟨m + 1, by omega, (h.ends_of_accepts hpm ⟨a, s₀, hacc⟩).1⟩
    · exact hdue (by simp [hf])

end

/-- Settles O49: a read with its answer at the source, or a SYNC_ABORT at the port, does not last (`FairFrom.read_ends`,
`FairFrom.accepts_oldestAbort`), and the step that ends it responds. -/
theorem fairReadsEnd : Obligations.FairReadsEnd := by
  intro σ n hrun hfair h0 hreset hp endsWith
  have h := FairFrom.of_isRun hrun hfair h0 hreset
  refine ⟨fun ⟨m, hm, hcause⟩ => ?_, fun f hf hnoAbort => ?_⟩
  · obtain ⟨j, hj, hover⟩ := (h.mono hm).exists_pending_none hcause
    obtain ⟨k, hk, hends⟩ := exists_endsRead hp (hm.trans hj) hover
    obtain ⟨x, new, hresp, hstatus⟩ := h.response_of_endsRead hk hends
    exact ⟨k, x, new, ⟨hk, hends.1, hends.2, hresp⟩, hstatus⟩
  · obtain ⟨k, hk, hends, ⟨r, s₀, hacc⟩ | ⟨x, hx, hresp⟩⟩ := h.read_ends (by simp) ⟨hp, hf, rfl⟩
    · exact absurd (hacc.op_of_pending hends.1) (hnoAbort k r s₀ hk hacc)
    · cases hx
      exact ⟨k, hk, hends.1, hends.2, hresp⟩

end Sys2Proof.Machine
end

section
/-! PROOFS. Runs and weakly fair runs there are (spec/70_reset_and_hazards.md R122, R125): every sequence of moves is a run, the
block left alone is fair, and a read can wait for ever. -/

namespace Sys2Proof.Machine

/-! ### A run of given moves -/

/-- The state after a step; every step has one (`step_exists_next`). -/
def State.afterStep (s : State) : State :=
  match step s with
  | .next t => t
  | _ => s

theorem step_eq_afterStep (s : State) : step s = .next s.afterStep := by
  obtain ⟨t, ht⟩ := step_exists_next s
  rw [State.afterStep, ht]

/-- The run from `s` in which the agents add the moves `more n` after step `n`. -/
def runAdding (s : State) (more : Nat → List Move) : Nat → State
  | 0 => s
  | n + 1 => (runAdding s more n).afterStep.schedules (more n)

theorem isRun_runAdding (s : State) (more : Nat → List Move) : IsRun (runAdding s more) :=
  fun n => ⟨_, more n, step_eq_afterStep _, rfl⟩

theorem blockMove_schedule {c : Bool} {s t : State} (h : blockMove c s = .next t) : t.schedule = s.schedule := by
  rcases blockMove_cases c s with ⟨-, e⟩ | ⟨-, r, rest, -, -, e⟩ | ⟨-, s', hs, -, e⟩ | ⟨-, -, -, e⟩
  · cases h.symm.trans e
    rfl
  · exact (acceptCommand_port_schedule (e.symm.trans h)).2
  · cases h.symm.trans e
    exact (syncMove_port_schedule hs).2
  · cases h.symm.trans e
    rfl

theorem doMove_schedule {m : Move} {s t : State} (h : doMove m s = .next t) : t.schedule = s.schedule := by
  cases m with
  | block c => exact blockMove_schedule h
  | deliver bs =>
    cases h
    rcases deliver_cases bs s with ⟨-, e⟩ | ⟨-, e⟩ <;> rw [e]
  | _ =>
    cases h
    rfl

/-- A step takes the oldest move off the schedule, and touches no other. -/
theorem step_schedule {s t : State} (h : step s = .next t) : t.schedule = s.schedule.tail := by
  cases hs : s.schedule with
  | nil =>
    rw [step_of_schedule_nil hs] at h
    rw [blockMove_schedule h, hs]
    rfl
  | cons m rest =>
    rw [step_of_schedule_cons hs] at h
    exact doMove_schedule h

theorem runAdding_schedule_succ (s : State) (more : Nat → List Move) (n : Nat) :
    (runAdding s more (n + 1)).schedule = (runAdding s more n).schedule.tail ++ more n := by
  rw [runAdding, State.schedules_schedule, step_schedule (step_eq_afterStep _)]

/-- Where one move stands on the schedule and one is added after each step, the moves taken are those added. -/
theorem runAdding_schedule_of_moves {s : State} {μ : Nat → Move} (h : s.schedule = [μ 0]) (n : Nat) :
    (runAdding s (fun n => [μ (n + 1)]) n).schedule = [μ n] := by
  induction n with
  | zero => exact h
  | succ n ih => rw [runAdding_schedule_succ, ih]; rfl

/-- With nothing added, the schedule is exhausted at last. -/
theorem runAdding_schedule_of_nothing (s : State) (n : Nat) :
    (runAdding s (fun _ => []) n).schedule = s.schedule.drop n := by
  induction n with
  | zero => rfl
  | succ n ih => rw [runAdding_schedule_succ, ih, List.tail_drop, List.append_nil]

/-! ### The block left alone is fair -/

section
variable {s : State}

/-- With its schedule exhausted the block accepts a command wherever it can. -/
theorem acceptTaken_of_schedule_nil (hschedule : s.schedule = []) (h : AcceptEnabled s) : AcceptTaken s := by
  obtain ⟨hr, hne⟩ := h
  obtain ⟨⟨r, rest⟩, ha⟩ := Option.ne_none_iff_exists'.mp hne
  exact ⟨r, _, hr, true, s, rest, by rw [blockTurn, hschedule], ha, .inr rfl, rfl⟩

/-- With its schedule exhausted the block takes the synchronizer's step where it can accept no command. -/
theorem syncTurn_of_schedule_nil (hschedule : s.schedule = []) (h : SyncEnabled s) (ha : s.acceptable = none) :
    SyncTurn s :=
  ⟨h.1, true, s, by rw [blockTurn, hschedule], h.2, .inl ha⟩

/-- An accepted command leaves fewer at the port. -/
theorem port_length_lt_of_acceptable {r : Request} {rest : List Request} (h : s.acceptable = some (r, rest)) :
    rest.length < s.port.length := by
  cases hp : s.pending with
  | syncRead =>
    obtain ⟨before, after, hport, -, -, hrest⟩ := oldestAbort_of_acceptable hp h
    simp [hport, hrest]
  | none =>
    cases hport : s.port with
    | nil => simp [State.acceptable, s.not_busy_iff.mpr hp, hport] at h
    | cons x xs =>
      rw [acceptable_of_pending_none hp hport] at h
      cases h
      exact Nat.lt_succ_self _

end

/-- In a run of the block alone a synchronizer step that stays possible is taken: only the commands at the port, of which
there are ever fewer, can go before it. -/
theorem syncTurn_of_alone {σ : Nat → State} (hrun : ∀ n, step (σ n) = .next (σ (n + 1))) {n : Nat}
    (hschedule : ∀ m, n ≤ m → (σ m).schedule = []) (h : ∀ m, n ≤ m → SyncEnabled (σ m)) :
    ∃ m, n ≤ m ∧ SyncTurn (σ m) := by
  induction hl : (σ n).port.length using Nat.strong_induction_on generalizing n with
  | _ l ih =>
    cases ha : (σ n).acceptable with
    | none => exact ⟨n, le_rfl, syncTurn_of_schedule_nil (hschedule n le_rfl) (h n le_rfl) ha⟩
    | some accepted =>
      obtain ⟨r, s₀, hacc⟩ := acceptTaken_of_schedule_nil (hschedule n le_rfl) ⟨(h n le_rfl).1, by simp [ha]⟩
      obtain ⟨hport, -⟩ := acceptCommand_port_schedule ((step_of_accepts hacc).symm.trans (hrun n))
      have hless := port_length_lt_of_acceptable hacc.acceptable
      rw [← hport, hl] at hless
      obtain ⟨m, hm, hturn⟩ := ih _ hless (fun m hm => hschedule m (by omega)) (fun m hm => h m (by omega)) rfl
      exact ⟨m, by omega, hturn⟩

/-- A run of the block alone is weakly fair once the schedule is exhausted. -/
theorem weaklyFair_of_alone {σ : Nat → State} (hrun : ∀ n, step (σ n) = .next (σ (n + 1))) {N : Nat}
    (hschedule : ∀ m, N ≤ m → (σ m).schedule = []) : WeaklyFair σ := by
  refine ⟨fun n h => ⟨max n N, le_max_left _ _, ?_⟩, fun n h => ?_⟩
  · exact acceptTaken_of_schedule_nil (hschedule _ (le_max_right _ _)) (h _ (le_max_left _ _))
  · obtain ⟨m, hm, hturn⟩ := syncTurn_of_alone hrun (n := max n N) (fun m hm => hschedule m (by omega))
      (fun m hm => h m (by omega))
    exact ⟨m, by omega, hturn⟩

theorem exists_weaklyFair_run (s : State) : ∃ σ, IsRun σ ∧ WeaklyFair σ ∧ σ 0 = s := by
  refine ⟨runAdding s fun _ => [], isRun_runAdding _ _, ?_, rfl⟩
  refine weaklyFair_of_alone (N := s.schedule.length) (fun n => ?_) fun m hm => ?_
  · rw [runAdding, State.schedules_nil]
    exact step_eq_afterStep _
  · rw [runAdding_schedule_of_nothing, List.drop_eq_nil_iff]
    exact hm

/-! ### Reads that wait for ever (R87, R97, R122) -/

/-- A pending read is one that reset has not ended. -/
theorem released_of_syncRead {s : State} (hinv : StateInv s) (hp : s.pending = .syncRead) : s.resetAsserted = false := by
  obtain ⟨-, -, hreset⟩ := hinv
  by_contra hr
  obtain ⟨-, -, -, -, hnone, -⟩ := hreset (by simpa using hr)
  exact absurd (hp.symm.trans hnone) (by decide)

/-- A read of an open source with no byte holds for ever. -/
theorem holding_run {s : State} (hinv : StateInv s) (hp : s.pending = .syncRead) (hq : s.srcQueue = [])
    (hopen : s.srcClosed = false) (hport : ∀ r ∈ s.port, r.op ≠ 0x21#8) (hschedule : s.schedule = []) :
    IsRun (fun _ => s) ∧ WeaklyFair fun _ => s := by
  have hs : Steady s := ⟨hinv, released_of_syncRead hinv hp, hport⟩
  have hsync : s.syncMove = none := syncMove_eq_none_iff.mpr (.inr ⟨hq, hopen⟩)
  have hhold := hs.step_of_syncRead hschedule hp
  rw [hsync, Option.getD_none] at hhold
  exact ⟨isRun_of_steps fun _ => hhold, weaklyFair_of_quiet 0 fun _ _ => ⟨hs.acceptable_of_syncRead hp, hsync⟩⟩

/-- `s` at even steps, `t` at odd ones. -/
def alternating (s t : State) (n : Nat) : State := if n % 2 = 0 then s else t

theorem alternating_cases (s t : State) (n : Nat) :
    (alternating s t n = s ∧ alternating s t (n + 1) = t) ∨ (alternating s t n = t ∧ alternating s t (n + 1) = s) := by
  rcases Nat.mod_two_eq_zero_or_one n with h | h <;> simp [alternating, Nat.add_mod, h]

/-- The second state comes again and again. -/
theorem alternating_recurs {s t : State} {P : State → Prop} (ht : P t) (n : Nat) :
    ∃ m, n ≤ m ∧ P (alternating s t m) := by
  rcases alternating_cases s t n with ⟨-, h⟩ | ⟨h, -⟩
  · exact ⟨n + 1, n.le_succ, by rwa [h]⟩
  · exact ⟨n, le_rfl, by rwa [h]⟩

theorem alternating_forall {s t : State} {P : State → Prop} (hs : P s) (ht : P t) (n : Nat) : P (alternating s t n) := by
  rcases alternating_cases s t n with ⟨h, -⟩ | ⟨h, -⟩ <;> rwa [h]

theorem isRun_alternating {s t u : State} {more : List Move} (hs : step s = .next t) (ht : step t = .next u)
    (hback : s = u.schedules more) : IsRun (alternating s t) := by
  intro n
  rcases alternating_cases s t n with ⟨h, h'⟩ | ⟨h, h'⟩
  all_goals rw [h, h']
  · exact ⟨t, [], hs, by simp⟩
  · exact ⟨u, more, ht, hback⟩

/-- The state after the byte `b` is delivered, with the block's move to come. -/
def State.offered (s : State) (b : Byte) : State := { s with srcQueue := [b], schedule := [.block true] }

section
variable {s : State} {b : Byte}

/-- The block's turn goes to the byte offered. -/
theorem Steady.byteTurn_offered (hs : Steady s) (hp : s.pending = .syncRead) (b : Byte) :
    ByteTurn (s.offered b) { s.offered b with schedule := [] } :=
  ⟨hs.released, true, rfl, .inl (hs.acceptable_of_syncRead hp)⟩

theorem Steady.syncTurn_offered (hs : Steady s) (hp : s.pending = .syncRead) (b : Byte) : SyncTurn (s.offered b) := by
  obtain ⟨hr, c, ht, -⟩ := hs.byteTurn_offered hp b
  have hmove := syncMove_of_srcQueue_cons (s := s.offered b) (hs.pendingInv.mp hp) rfl
  exact ⟨hr, c, _, ht, by simp [hmove], .inl (hs.acceptable_of_syncRead hp)⟩

/-- Scanning, a byte that begins no candidate is delivered, consumed and dropped, and the next one may come. -/
theorem Steady.isRun_offered (hs : Steady s) (hp : s.pending = .syncRead) (hphase : s.syncPhase = .scan)
    (hq : s.srcQueue = []) (hopen : s.srcClosed = false) (hb : b ≠ s.cfg.marker0)
    (hschedule : s.schedule = [.deliver [b], .block true]) : IsRun (alternating s (s.offered b)) := by
  have hdeliver : step s = .next (s.offered b) := by
    rw [step_of_schedule_cons hschedule, doMove, State.deliver_open { s with schedule := [.block true] } [b] hopen,
      hq]
    rfl
  obtain ⟨hscan, -⟩ := scanningByteSteps _ _ b [] (hs.byteTurn_offered hp b) rfl
  obtain ⟨-, hdrop⟩ := hscan hphase
  have hback : s = { s with schedule := [.deliver [b], .block true], srcQueue := [] } := by rw [← hschedule, ← hq]
  exact isRun_alternating (more := [.deliver [b], .block true]) hdeliver (hdrop hb) hback

theorem Steady.weaklyFair_offered (hs : Steady s) (hp : s.pending = .syncRead) (b : Byte) :
    WeaklyFair (alternating s (s.offered b)) := by
  have hnone := hs.acceptable_of_syncRead hp
  have hdisabled (n : Nat) : ¬ AcceptEnabled (alternating s (s.offered b) n) :=
    alternating_forall (P := (¬ AcceptEnabled ·)) (t := s.offered b) (fun h => h.2 hnone) (fun h => h.2 hnone) n
  exact ⟨eventuallyTaken_of_disabled 0 fun n _ => hdisabled n,
    eventuallyTaken_of_taken (alternating_recurs (hs.syncTurn_offered hp b))⟩

end

/-- Settles O50: the run of given moves, the run of the block alone, and the two reads that wait for ever. -/
theorem fairRunsCanWaitForEver : Obligations.FairRunsCanWaitForEver := by
  refine ⟨fun s μ h => ⟨_, isRun_runAdding s _, rfl, runAdding_schedule_of_moves h⟩, exists_weaklyFair_run,
    fun s hinv hp hq hopen hport hschedule => ?_, fun s b hinv hr hphase hq hopen hport hb hschedule => ?_⟩
  · obtain ⟨hrun, hfair⟩ := holding_run hinv hp hq hopen hport hschedule
    exact ⟨_, hrun, hfair, rfl, fun _ => ⟨hp, rfl, hq⟩⟩
  · have hs : Steady s := ⟨hinv, hr, hport⟩
    have hp : s.pending = .syncRead := hs.pendingInv.mpr (by simp [hphase])
    refine ⟨_, hs.isRun_offered hp hphase hq hopen hb hschedule, hs.weaklyFair_offered hp b, rfl, fun n => ?_⟩
    exact ⟨alternating_forall (P := (·.pending = .syncRead)) (t := s.offered b) hp hp n,
      alternating_forall (P := (·.responses = s.responses)) (t := s.offered b) rfl rfl n,
      alternating_recurs (hs.syncTurn_offered hp b) n⟩

end Sys2Proof.Machine
end
